-- ==== Sys2Proof/Word.lean ====
section
/-! DEFINITION. The word widths of the register interface and of buffer memory (20_memory.md R60, R64). -/

namespace Sys2Proof

/-- A word of the register interface: every software access is 32 bits (R64). -/
abbrev Word := BitVec 32

/-- A requested size or a pipe counter: `SIZE_BITS` = 16 (R8, D9). -/
abbrev Size := BitVec 16

/-- A descriptor byte count or a maximum packet size: `BC_BITS` = 10 (R8, D10). -/
abbrev Count := BitVec 10

/-- A byte of buffer memory, or an 8-bit register. -/
abbrev Byte := BitVec 8

end Sys2Proof
end

