-- ==== Sys2Proof/Config.lean ====
section
/-! DEFINITION. The implementation parameters of 00_scope.md R8, the fixed sizes, and the values the spec leaves free. -/

namespace Sys2Proof

/-- The open parameters of R8 other than `NUM_EP`, which is the length of the endpoint table
(`State.numEp`). State carries them as data that no step changes, so that every statement about all
states is a statement about all values of the parameters (log 1). -/
structure Params where
  /-- `ADDR_BITS`, the width of a buffer address (D8). -/
  addrBits : Nat
  /-- `STAT_FIFO_DEPTH`, the capacity of the completion queue (D11). -/
  statFifoDepth : Nat
  /-- `EP0_MAX_PACKET`, programmed by the bus-reset service (D12). -/
  ep0MaxPacket : Count
  /-- `SETUP_BUF_ADDR`, where the bus-reset service arms the setup packet (D13). -/
  setupBufAddr : Nat
deriving DecidableEq, Repr

/-- The ranges R8 gives these parameters. `NUM_EP` is no field of this record: its range is in
`Machine.State.ParametersInRange`. -/
def Params.wf (p : Params) : Bool :=
  decide (1 ≤ p.addrBits) && decide (1 ≤ p.statFifoDepth) &&
  [8#10, 16#10, 32#10, 64#10].contains p.ep0MaxPacket &&
  decide (0 < p.setupBufAddr) && decide (p.setupBufAddr < 2 ^ p.addrBits)

namespace Config

/-- The parameters the vectors of 95_test_vectors.md use (section 0), taken for `State.reset`
(DESIGN CHOICE, log 1). -/
def vectorParams : Params :=
  { addrBits := 32, statFifoDepth := 4, ep0MaxPacket := 64, setupBufAddr := 0x100 }

/-- `NUM_EP` of the vectors. -/
abbrev vectorNumEp : Nat := 4

/-- The largest `NUM_EP`: endpoint numbers have four bits (R8, D7). -/
abbrev maxNumEp : Nat := 16

/-- `FD_COUNT`: entries of the function map (R8). -/
abbrev fdCount : Nat := 32

/-- `SETUP_LEN`: bytes of a setup packet (R8). -/
abbrev setupLen : Nat := 8

/-- `NONE` of `EPFUNC` (R46). -/
abbrev fdNone : Byte := 0xFF

/-- FREE VALUE (log 4): the byte buffer memory holds at an address before anything writes it,
"an unconstrained draw" (70_reset_and_hazards.md R240, U16). -/
opaque powerOnByte : Nat → Byte

/-- FREE VALUE (log 5): a byte read from a receive buffer while the engine owns its descriptor
(70_reset_and_hazards.md R252, U15), drawn by a counter of State. -/
opaque freeByte : Nat → Byte

/-- FREE VALUE (log 6): the word a 32-bit read of `ARG0` returns when `ADDR_BITS` > 32, as a function of what `ARG0` holds; the
spec does not say. -/
opaque freeArg0Read : Nat → Word

/-- FREE VALUE (log 6): bits 32 and up of `ARG0` after a 32-bit write to it when `ADDR_BITS` > 32, as a function of what `ARG0`
held and the word written; the spec does not say. -/
opaque freeArg0High : Nat → Word → Nat

end Config

end Sys2Proof
end

