-- ==== Sys2Proof/Syntax.lean ====
section
/-! DEFINITION. The commands of CCF-PIPE v1, one constructor per row of spec/opcode_table.json (30_encoding.md R81, R98). -/

namespace Sys2Proof

/-- The direction of a pipe (00_scope.md R9): `rx` = 0 receives OUT and SETUP tokens, `tx` = 1 serves IN tokens. -/
inductive Dir where
  | rx
  | tx
deriving DecidableEq, Repr

/-- A command as its word gives it: the fields of `CMD` (30_encoding.md R82 to R85). The operands `buf`, `size`,
`max` and `fd` are read from `ARG0` and `ARG1` when the command executes (R80), so they are no part of the word. -/
inductive Instr where
  /-- CONFIGURE (40_pipe_config.md R110). -/
  | configure (ep : Nat) (cfTx cfRx cfHshk : Bool)
  /-- START (41_transfer.md R140). -/
  | start (ep : Nat) (dir : Dir) (force dts zlp : Bool)
  /-- STALL (40_pipe_config.md R115). -/
  | stall (ep : Nat) (dir : Dir)
  /-- UNSTALL (40_pipe_config.md R118). -/
  | unstall (ep : Nat) (dir : Dir)
  /-- FLUSH (40_pipe_config.md R121). -/
  | flush (ep : Nat) (dir : Dir)
  /-- QUERY_STALL (40_pipe_config.md R125). -/
  | queryStall (ep : Nat) (dir : Dir)
  /-- SET_EPFUNC (42_dispatch.md R190). -/
  | setEpfunc (ep : Nat)
  /-- READ_ERR (42_dispatch.md R191). -/
  | readErr
  /-- DISPATCH (42_dispatch.md R170). -/
  | dispatch
deriving DecidableEq, Repr

/-- The endpoint number a command names, where it names one. -/
def Instr.endpoint? : Instr → Option Nat
  | .configure ep _ _ _ => some ep
  | .start ep _ _ _ _ => some ep
  | .stall ep _ => some ep
  | .unstall ep _ => some ep
  | .flush ep _ => some ep
  | .queryStall ep _ => some ep
  | .setEpfunc ep => some ep
  | .readErr => none
  | .dispatch => none

end Sys2Proof
end

