-- ==== Sys2Proof/Machine/State.lean ====
section
/-! DEFINITION. The state of the machine: the block's state, the state it shares with the transfer engine, the environment
state its rules read (10_state.md R20), the platform's buffer memory, and the model's own fields. Power-on is
70_reset_and_hazards.md R240. -/

namespace Sys2Proof.Machine

/-- A stuck state of an agent: its step has no meaning in the spec. Every one is SAFE: the model stops where the
hardware may go on. -/
inductive Fault where
  /-- Raised by an engine step that would use a buffer `[addr, addr + bc)` reaching past `2^ADDR_BITS - 1`: the spec
  gives it no meaning and calls the step stuck (20_memory.md R68, U17). Safe (log 8). -/
  | engineBufferWraps
  /-- Raised by an upper-layer access to a buffer address of `2^ADDR_BITS` or more, which does not exist
  (20_memory.md R60). Safe (log 16). -/
  | bufferAddressOutside
deriving DecidableEq, Repr

/-- An action the spec gives no step. Every one is SAFE: the model stops. -/
inductive Refusal where
  /-- Raised by `exec` for an instruction that has no meaning yet; no arm does so. Safe. -/
  | notModelled (mnemonic : String)
  /-- Raised by a register access that is not an aligned 32-bit word: "a model gives such an access no step (it
  refuses it)" (20_memory.md R64, U18). Safe (log 9). -/
  | registerAccessShape
  /-- Raised by a register access at or beyond `0x40 + 4*NUM_EP`: "Offsets beyond the map are the platform's, so a
  model refuses them" (U31). Safe (log 9). -/
  | registerBeyondMap
  /-- Raised by a transport-error step with an all-zero mask: the step exists for a nonzero draw only
  (60_exceptions.md R223). Safe (log 9). -/
  | emptyErrorReport
deriving DecidableEq, Repr

/-- The ownership bit of a descriptor (R28): `sw` = 0, `hw` = 1. -/
inductive Owner where
  | sw
  | hw
deriving DecidableEq, Repr

/-- The token type of a completed packet (R33): NONE, OUT, IN, SETUP. Every other value is reserved and never
written (U25). -/
inductive Pid where
  | none
  | out
  | inn
  | setup
deriving DecidableEq, Repr

/-- A buffer descriptor `BD[e][d][i]`: the six fields of R28 to R33. -/
structure Descriptor where
  uown : Owner
  stall : Bool
  tog : Bool
  bc : Count
  addr : Nat
  pid : Pid
deriving DecidableEq, Repr

/-- A pipe `P[e][d]`: the nine fields of R35 to R42. -/
structure Pipe where
  buf : Nat
  max : Count
  size : Size
  rem : Size
  cnt : Size
  pp : Bool
  tog : Bool
  zeroPkt : Bool
  sendZeroPkt : Bool
deriving DecidableEq, Repr

/-- Everything held per (endpoint, direction): the pipe, its two descriptors, the engine's ping-pong pointer
`ENG_PP[e][d]` (R51), the hold of a transfer whose continuation found an engine-owned descriptor
(70_reset_and_hazards.md R254, log 21), and the model's own record of the transmit bytes the engine has already read for
the packet in each descriptor, as (offset, byte) pairs (log 7). -/
structure Channel where
  pipe : Pipe
  bd0 : Descriptor
  bd1 : Descriptor
  engPp : Bool
  held : Bool
  fetched0 : List (Nat × Byte)
  fetched1 : List (Nat × Byte)
deriving DecidableEq, Repr

/-- Everything held per endpoint: its two pipes, `EPCTL[e]` (R44) and `EPFUNC[e]` (R46). -/
structure Endpoint where
  rx : Channel
  tx : Channel
  epctl : Byte
  epfunc : Byte
deriving DecidableEq, Repr

/-- A completion record of `CQ` (R50). -/
structure Completion where
  ep : Nat
  dir : Dir
  pp : Bool
deriving DecidableEq, Repr

/-- The kinds of event (30_encoding.md R92). The names `suspend` and `resume` are the events of the IDLE and RESUME
classes. -/
inductive EventKind where
  | tick
  | detach
  | sof
  | setupReceived
  | ep0Complete
  | xferComplete
  | busReset
  | busError
  | suspend
  | resume
  | stall
deriving DecidableEq, Repr

/-- An event record (R92). Fields a kind does not use are 0. -/
structure Event where
  kind : EventKind
  ep : Nat := 0
  dir : Dir := .rx
  pp : Bool := false
  fd : Byte := 0
  value : Size := 0
  addr : Nat := 0
deriving DecidableEq, Repr

/-- The 8-byte setup packet the host sends (30_encoding.md R89). -/
structure SetupPacket where
  bmRequestType : Byte
  bRequest : Byte
  wValue : BitVec 16
  wIndex : BitVec 16
  wLength : BitVec 16
deriving DecidableEq, Repr

/-- A transmit packet the engine has moved to the host: what the host sees of 60_exceptions.md R220 (the model's own
observation, log 11). -/
structure SentPacket where
  ep : Nat
  tog : Bool
  data : List Byte
deriving DecidableEq, Repr

/-- The width of a software access to the register interface (20_memory.md R64). -/
inductive AccessWidth where
  | byte
  | half
  | word
deriving DecidableEq, Repr

/-- What an agent outside the block does next (60_exceptions.md R200; log 2). -/
inductive Input where
  /-- The upper layer writes a register (20_memory.md R66). A write to offset 0 issues a command. -/
  | regWrite (offset : Nat) (width : AccessWidth) (value : Word)
  /-- The upper layer reads a register. -/
  | regRead (offset : Nat) (width : AccessWidth)
  /-- The upper layer takes the event at the head of `EVOUT` (R52). -/
  | takeEvent
  /-- The upper layer writes a byte of buffer memory (R60). -/
  | bufWrite (addr : Nat) (value : Byte)
  /-- The upper layer reads a byte of buffer memory. -/
  | bufRead (addr : Nat)
  /-- The host sends an IN token; `acked` says whether it acknowledges the packet it is sent (R220). -/
  | inToken (ep : Nat) (acked : Bool)
  /-- The host sends an OUT token with a data packet of toggle `tog` (R220). -/
  | outPacket (ep : Nat) (tog : Bool) (data : List Byte)
  /-- The host sends a SETUP transaction to endpoint 0 (R221). -/
  | setup (packet : SetupPacket)
  /-- The engine reads byte `k` of the transmit packet in descriptor `pp` ahead of its completion (R76, R252). -/
  | txFetch (ep : Nat) (pp : Bool) (k : Nat)
  /-- The 1 ms timer fires (R223). -/
  | tick
  /-- The session is lost while attached (R223). -/
  | sessionLost
  /-- A start-of-frame (R223). -/
  | startOfFrame
  /-- The host resets the bus (R223). -/
  | busReset
  /-- The engine reports transport errors, a nonzero mask (R223). -/
  | transportError (mask : BitVec 5)
  /-- The bus goes idle (R223). -/
  | busIdle
  /-- Resume signalling (R223). -/
  | resumeSignal
deriving DecidableEq, Repr

/-- The state. The endpoint table's length is `NUM_EP`, 1 to 16 (R8; `State.ParametersInRange` says so). -/
structure State where
  /-- The parameters of R8, which no step changes (log 1). -/
  params : Params
  /-- `ARG0` (R23). -/
  arg0 : Nat
  /-- `ARG1` (R24). -/
  arg1 : Size
  /-- `RESULT` (R25). -/
  result : Byte
  /-- `RDATA` (R25). -/
  rdata : Word
  /-- `BD`, `P`, `ENG_PP`, `EPCTL` and `EPFUNC`, endpoint by endpoint (R27, R34, R44, R46, R51). -/
  eps : List Endpoint
  /-- `ERRSTAT` (R47). -/
  errstat : Byte
  /-- The stored bits of `STATUS`; bit 3, TOKEN, is derived and never stored (R48). -/
  status : BitVec 16
  /-- `ERRPEND` (R49). -/
  errpend : BitVec 5
  /-- `CQ`, head first (R50). -/
  cq : List Completion
  /-- `EVOUT`, head first (R52). -/
  evout : List Event
  /-- Buffer memory: the bytes written since power-on, addresses strictly rising (R60, R240; log 4). -/
  mem : List Host.Cell
  /-- The model's own: what the agents outside the block do next, oldest first (log 2). -/
  inputs : List Input
  /-- The model's own: the counter free values are drawn with (log 5). -/
  freeCtr : Nat
  /-- The model's own: the word the last register read returned (log 11). -/
  busData : Word
  /-- The model's own: the byte the upper layer's last buffer read returned (log 11). -/
  bufData : Byte
  /-- The model's own: the event the upper layer last took, if `EVOUT` held one (log 11). -/
  taken : Option Event
  /-- The model's own: the transmit packets the host has acknowledged, oldest first (log 11). -/
  sent : List SentPacket
deriving DecidableEq, Repr

/-- A descriptor at power-on (R240). -/
def Descriptor.powerOn : Descriptor :=
  { uown := .sw, stall := false, tog := false, bc := 0, addr := 0, pid := .none }

/-- A pipe at power-on: idle and unconfigured (R240). -/
def Pipe.powerOn : Pipe :=
  { buf := 0, max := 0, size := 0, rem := 0, cnt := 0, pp := false, tog := false, zeroPkt := false, sendZeroPkt := false }

/-- A pipe, its descriptors and its engine pointer at power-on (R240). -/
def Channel.powerOn : Channel :=
  { pipe := .powerOn, bd0 := .powerOn, bd1 := .powerOn, engPp := false, held := false, fetched0 := [], fetched1 := [] }

/-- Endpoint `e` at power-on: `EPCTL` is 0x00 for endpoint 0 and 0x08 for every other, `EPFUNC` is 0xFF (R240). -/
def Endpoint.powerOn (e : Nat) : Endpoint :=
  { rx := .powerOn, tx := .powerOn, epctl := if e = 0 then 0x00 else 0x08, epfunc := Config.fdNone }

/-- The block after power-on, with `numEp` endpoints and parameters `p` (70_reset_and_hazards.md R240). -/
def State.powerOn (numEp : Nat) (p : Params) : State :=
  { params := p, arg0 := 0, arg1 := 0, result := 0, rdata := 0,
    eps := (List.range numEp).map Endpoint.powerOn,
    errstat := 0, status := 0, errpend := 0, cq := [], evout := [], mem := [],
    inputs := [], freeCtr := 0, busData := 0, bufData := 0, taken := none, sent := [] }

/-- The machine right after reset: power-on with the parameters of the spec's vectors (log 1). -/
def State.reset : State := State.powerOn Config.vectorNumEp Config.vectorParams

end Sys2Proof.Machine
end

