-- ==== Sys2Proof/Machine/Flags.lean ====
section
/-! DEFINITION. The bits of STATUS, ERRSTAT and EPCTL (10_state.md R44, R47, R48), the codes of RESULT, PIDs and events
(30_encoding.md R90, R92; 10_state.md R33), STATUS as software reads it, and the interrupt line (60_exceptions.md R207). -/

namespace Sys2Proof.Machine

/-- Sets bit `n` of a register to `b`. -/
def putBit {w : Nat} (v : BitVec w) (n : Nat) (b : Bool) : BitVec w :=
  if b then v ||| (1#w <<< n) else v &&& ~~~(1#w <<< n)

/-- The stored status classes (R48); TOKEN is derived. -/
inductive StatusClass where
  | tick
  | detach
  | sof
  | reset
  | error
  | idle
  | resume
  | stall
deriving DecidableEq, Repr

/-- The bit of `STATUS` that holds a class (R48). -/
def StatusClass.bit : StatusClass → Nat
  | .tick => 0
  | .detach => 1
  | .sof => 2
  | .reset => 4
  | .error => 5
  | .idle => 6
  | .resume => 7
  | .stall => 8

/-- A class is pending while its bit is 1 (60_exceptions.md R206). -/
def State.pending (s : State) (c : StatusClass) : Bool := s.status.getLsbD c.bit

/-- `STATUS.c <- 1`. -/
def State.raise (s : State) (c : StatusClass) : State := { s with status := putBit s.status c.bit true }

/-- `STATUS.c <- 0`. -/
def State.clear (s : State) (c : StatusClass) : State := { s with status := putBit s.status c.bit false }

/-- `STATUS` as it reads: bit 3, TOKEN, is 1 exactly when `CQ` is not empty (R48). -/
def State.statusRead (s : State) : BitVec 16 := putBit s.status 3 (!s.cq.isEmpty)

/-- The interrupt line: `IRQ = (STATUS != 0)`, with TOKEN derived (60_exceptions.md R207). -/
def State.irq (s : State) : Bool := s.statusRead != 0

/-- `ERRSTAT.OWN`, bit 7 (R47). -/
abbrev errOwnBit : Nat := 7

/-- `EPCTL` bits (R44, 30_encoding.md R86). -/
abbrev epctlTxen : Nat := 1

/-- `EPCTL.RXEN`. -/
abbrev epctlRxen : Nat := 2

/-- `EPCTL.CONDIS`. -/
abbrev epctlCondis : Nat := 3

/-- `EPCTL.HSHK`. -/
abbrev epctlHshk : Nat := 4

/-- The failure codes a command reports (30_encoding.md R90). OK is 0. -/
inductive FailCode where
  | range
  | unconfigured
  | busy
  | nullbuf
  | ownership
  | illegal
deriving DecidableEq, Repr

/-- The value of `RESULT` for a failure (R90). -/
def FailCode.toByte : FailCode → Byte
  | .range => 1
  | .unconfigured => 2
  | .busy => 3
  | .nullbuf => 4
  | .ownership => 5
  | .illegal => 6

/-- The 4-bit code of a token type (R33). -/
def Pid.code : Pid → BitVec 4
  | .none => 0x0
  | .out => 0x1
  | .inn => 0x9
  | .setup => 0xD

/-- The 4-bit code of an event kind (R92). -/
def EventKind.code : EventKind → BitVec 4
  | .tick => 1
  | .detach => 2
  | .sof => 3
  | .setupReceived => 4
  | .ep0Complete => 5
  | .xferComplete => 6
  | .busReset => 7
  | .busError => 8
  | .suspend => 9
  | .resume => 10
  | .stall => 11

/-- `dir_bit(d)`: 1 for TX and 0 for RX (00_scope.md R12). -/
def dirBit (d : Dir) : Bool := d == .tx

/-- Word 0 of an event record: `kind | ep << 4 | dir << 8 | pp << 9 | fd << 16` (30_encoding.md R93). -/
def Event.word0 (v : Event) : Word :=
  v.kind.code.setWidth 32 ||| ((BitVec.ofNat 4 v.ep).setWidth 32 <<< 4) |||
    putBit (putBit 0#32 8 (dirBit v.dir)) 9 v.pp ||| (v.fd.setWidth 32 <<< 16)

/-- Word 1 of an event record: `zext_32(value)` (R93). -/
def Event.word1 (v : Event) : Word := v.value.setWidth 32

/-- Word 2 of an event record: `zext_32(addr)`, or `addr` itself when `ADDR_BITS > 32` (R93): in both cases the number
`addr`. -/
def Event.word2 (v : Event) : Nat := v.addr

end Sys2Proof.Machine
end

