-- ==== Sys2Proof/Machine/Ops.lean ====
section
/-! DEFINITION. The named operations over registers, tables and buffer memory that every meaning uses: reading and writing
a pipe and its descriptors, ending a command, the ownership violation, buffer memory and its free bytes.

The block takes no trap and has no return from one (60_exceptions.md R211, R212): a command ends by `State.ok` or
`State.fail`, and `State.ownershipViolation` is the only error path shared by several commands (10_state.md R56). -/

namespace Sys2Proof.Machine

/-- `NUM_EP`: the number of endpoints the block implements (00_scope.md R8). -/
def State.numEp (s : State) : Nat := s.eps.length

/-- Endpoint `e`'s registers and pipes. No rule reads an endpoint `e >= NUM_EP`; for one, the power-on value stands
(log 15). -/
def State.endpoint (s : State) (e : Nat) : Endpoint := s.eps.getD e (Endpoint.powerOn e)

/-- Replaces endpoint `e`'s registers and pipes. -/
def State.setEndpoint (s : State) (e : Nat) (x : Endpoint) : State := { s with eps := s.eps.set e x }

/-- One direction of an endpoint. -/
def Endpoint.channel (x : Endpoint) : Dir → Channel
  | .rx => x.rx
  | .tx => x.tx

/-- Replaces one direction of an endpoint. -/
def Endpoint.setChannel (x : Endpoint) (d : Dir) (c : Channel) : Endpoint :=
  match d with
  | .rx => { x with rx := c }
  | .tx => { x with tx := c }

/-- Descriptor `i` of a pipe: `false` is the even one, index 0. -/
def Channel.bd (c : Channel) (i : Bool) : Descriptor := if i then c.bd1 else c.bd0

/-- Replaces descriptor `i` of a pipe. -/
def Channel.setBd (c : Channel) (i : Bool) (b : Descriptor) : Channel :=
  if i then { c with bd1 := b } else { c with bd0 := b }

/-- The transmit bytes the engine has already read for the packet in descriptor `i` (log 7). -/
def Channel.fetched (c : Channel) (i : Bool) : List (Nat × Byte) := if i then c.fetched1 else c.fetched0

/-- Replaces the bytes already read for descriptor `i`. -/
def Channel.setFetched (c : Channel) (i : Bool) (l : List (Nat × Byte)) : Channel :=
  if i then { c with fetched1 := l } else { c with fetched0 := l }

/-- The pipe, descriptors and engine pointer of (`e`, `d`). -/
def State.channel (s : State) (e : Nat) (d : Dir) : Channel := (s.endpoint e).channel d

/-- Replaces the pipe, descriptors and engine pointer of (`e`, `d`). -/
def State.setChannel (s : State) (e : Nat) (d : Dir) (c : Channel) : State :=
  s.setEndpoint e ((s.endpoint e).setChannel d c)

/-- `P[e][d]`. -/
def State.pipe (s : State) (e : Nat) (d : Dir) : Pipe := (s.channel e d).pipe

/-- `BD[e][d][i]`. -/
def State.bd (s : State) (e : Nat) (d : Dir) (i : Bool) : Descriptor := (s.channel e d).bd i

/-- `ENG_PP[e][d]`. -/
def State.engPp (s : State) (e : Nat) (d : Dir) : Bool := (s.channel e d).engPp

/-- The transfer on (`e`, `d`) is held by an OWNFAIL (70_reset_and_hazards.md R254, log 21). -/
def State.held (s : State) (e : Nat) (d : Dir) : Bool := (s.channel e d).held

/-- `EPCTL[e]`. -/
def State.epctl (s : State) (e : Nat) : Byte := (s.endpoint e).epctl

/-- `EPFUNC[e]`. -/
def State.epfunc (s : State) (e : Nat) : Byte := (s.endpoint e).epfunc

/-- `return Ok(v)`: `RESULT <- OK`, `RDATA <- v` (00_scope.md R12). -/
def State.ok (s : State) (v : Word) : State := { s with result := 0, rdata := v }

/-- `raise Fail(code)`: `RESULT <- code`, `RDATA <- 0` (00_scope.md R12). -/
def State.fail (s : State) (c : FailCode) : State := { s with result := c.toByte, rdata := 0 }

/-- `execute(ILLEGAL)`: `RESULT <- E_ILLEGAL`, `RDATA <- 0`, no other write (30_encoding.md R94, R99). -/
def State.illegal (s : State) : State := s.fail .illegal

/-- An ownership violation: `ERRSTAT.OWN <- 1` and `STATUS.ERROR <- 1` (10_state.md R56). -/
def State.ownershipViolation (s : State) : State :=
  { s.raise .error with errstat := putBit s.errstat errOwnBit true }

/-- Runs `body` on the endpoint a command names, or fails with E_RANGE when `ep >= NUM_EP` (30_encoding.md R90, R91). -/
def State.inRange (s : State) (ep : Nat) (body : State) : State :=
  if ep < s.numEp then body else s.fail .range

/-- `a +_ADDR_BITS k` (20_memory.md R77). -/
def addrAdd (p : Params) (a k : Nat) : Nat := (a + k) % 2 ^ p.addrBits

/-- A memory holds its canonical form: addresses strictly rising. An unlisted address has not been written since power-on
(log 4), so no listed entry can equal what it reads as. -/
abbrev Memory.wf (m : List Host.Cell) : Prop := m.Pairwise (fun a b => a.1 < b.1)

/-- The byte written at an address since power-on, if any. -/
def Memory.lookup : List Host.Cell → Nat → Option Byte
  | [], _ => none
  | (b, v) :: m, a => if a = b then some v else Memory.lookup m a

/-- Writes one byte, keeping the addresses strictly rising. -/
def Memory.write : List Host.Cell → Nat → Byte → List Host.Cell
  | [], a, v => [(a, v)]
  | (b, w) :: m, a, v =>
    if a < b then (a, v) :: (b, w) :: m
    else if a = b then (a, v) :: m
    else (b, w) :: Memory.write m a v

/-- `MemWrite(addr, n, bytes)`: writes the bytes from `a` upward (00_scope.md R12). -/
def Memory.writeBytes : List Host.Cell → Nat → List Byte → List Host.Cell
  | m, _, [] => m
  | m, a, v :: vs => Memory.writeBytes (Memory.write m a v) (a + 1) vs

/-- The byte buffer memory holds at an address: the one written there, or the power-on draw (R240). -/
def Memory.byteAt (m : List Host.Cell) (a : Nat) : Byte := (Memory.lookup m a).getD (Config.powerOnByte a)

/-- An address lies in the buffer `[addr, addr + bc)` of a descriptor. 20_memory.md R68 gives a buffer that wraps past
`2^ADDR_BITS - 1` no meaning. DESIGN CHOICE (log 22): of such a buffer the addresses from `addr` to the end of the address space are
covered, and no low address it would wrap to is. -/
def Descriptor.covers (b : Descriptor) (a : Nat) : Bool := decide (b.addr ≤ a) && decide (a < b.addr + b.bc.toNat)

/-- The buffer `[addr, addr + bc)` of a descriptor reaches past `2^ADDR_BITS - 1` (20_memory.md R68). DEDUCED (log 8): a buffer
whose last byte is at `2^ADDR_BITS - 1` does not, although the note on vector T11 of 95_test_vectors.md calls the step on such a
buffer stuck. -/
def Descriptor.wraps (p : Params) (b : Descriptor) : Bool := decide (2 ^ p.addrBits < b.addr + b.bc.toNat)

/-- An address lies in the buffer of an engine-owned descriptor of a pipe. -/
def Channel.holds (c : Channel) (a : Nat) : Bool :=
  (decide (c.bd0.uown = .hw) && c.bd0.covers a) || (decide (c.bd1.uown = .hw) && c.bd1.covers a)

/-- An address lies in a receive buffer the engine owns, whose contents are undefined until its completion
(70_reset_and_hazards.md R252); for one that wraps, see `Descriptor.covers` (log 22). -/
def State.underRx (s : State) (a : Nat) : Bool := s.eps.any fun x => x.rx.holds a

/-- An address lies in a transmit buffer the engine owns (70_reset_and_hazards.md R252); for one that wraps, see
`Descriptor.covers` (log 22). -/
def State.underTx (s : State) (a : Nat) : Bool := s.eps.any fun x => x.tx.holds a

/-- A byte of buffer memory as an agent reads it, `k` being the draw of a byte whose contents are undefined. -/
def State.readByte (s : State) (a k : Nat) : Byte :=
  if s.underRx a then Config.freeByte k else Memory.byteAt s.mem a

/-- Puts a CMD write first among the inputs: "where the machine fetches its next instruction". -/
def State.issueFirst (s : State) (w : Word) : State := { s with inputs := .regWrite 0 .word w :: s.inputs }

end Sys2Proof.Machine
end

