-- ==== Sys2Proof/Machine/Engine.lean ====
section
/-! DEFINITION. The steps of the transfer engine and the host the block's rules read (60_exceptions.md R220 to R225). -/

namespace Sys2Proof.Machine

/-- How the engine answers a host transaction. Only `complete`, `accept` and `stallHandshake` change state; the names are
those of 95_test_vectors.md section 0. -/
inductive Answer where
  /-- A data completion (R220). -/
  | complete
  /-- A SETUP is accepted (R221). -/
  | accept
  /-- A STALL handshake (R222). -/
  | stallHandshake
  /-- The direction is disabled, HSHK is 0, or no such endpoint exists: no state change (R220; log 10). -/
  | disabled
  /-- The descriptor is `SW`: the token is NAKed (R220). -/
  | nak
  /-- `CQ` is full: the engine holds and the token is NAKed (R220, 70_reset_and_hazards.md R260), on a stall-armed descriptor too
  (log 10). -/
  | holds
  /-- The toggle differs: acknowledged and discarded as a retransmission (R220). -/
  | ackDiscard
  /-- The packet is longer than `bc`: not a completion (R220). -/
  | tooLong
  /-- The host does not acknowledge the packet it was sent: not a completion (R220). -/
  | unacknowledged
  /-- A SETUP is not accepted (R221). -/
  | notAccepted
deriving DecidableEq, Repr

/-- The endpoint exists and is enabled for the direction with handshakes: `EPCTL[e].TXEN` or `.RXEN`, and `.HSHK`
(R220, R222). -/
def State.dirEnabled (s : State) (e : Nat) (d : Dir) : Bool :=
  decide (e < s.numEp) &&
  (s.epctl e).getLsbD (match d with | .tx => epctlTxen | .rx => epctlRxen) &&
  (s.epctl e).getLsbD epctlHshk

/-- The descriptor the engine serves next on a pipe. -/
def State.engineBd (s : State) (e : Nat) (d : Dir) : Descriptor := s.bd e d (s.engPp e d)

/-- `CQ` holds `STAT_FIFO_DEPTH` records (R50). -/
def State.cqFull (s : State) : Bool := decide (s.params.statFifoDepth ≤ s.cq.length)

/-- The engine's answer to an IN token on endpoint `e` (R220, R222). A full `CQ` comes before the stall bit: R222 is silent on the
queue, and R260 says that the host's tokens are then NAKed (DEDUCED, log 10). -/
def State.answerIn (s : State) (e : Nat) (acked : Bool) : Answer :=
  let b := s.engineBd e .tx
  if !s.dirEnabled e .tx then .disabled
  else if b.uown = .sw then .nak
  else if s.cqFull then .holds
  else if b.stall then .stallHandshake
  else if !acked then .unacknowledged
  else .complete

/-- The engine's answer to an OUT packet of toggle `tog` and `n` bytes on endpoint `e` (R220, R222); a full `CQ` comes
before the stall bit here too (DEDUCED, log 10). -/
def State.answerOut (s : State) (e : Nat) (tog : Bool) (n : Nat) : Answer :=
  let b := s.engineBd e .rx
  if !s.dirEnabled e .rx then .disabled
  else if b.uown = .sw then .nak
  else if s.cqFull then .holds
  else if b.stall then .stallHandshake
  else if tog ≠ b.tog then .ackDiscard
  else if b.bc.toNat < n then .tooLong
  else .complete

/-- The engine's answer to a SETUP transaction (R221). -/
def State.answerSetup (s : State) : Answer :=
  let b := s.engineBd 0 .rx
  if s.dirEnabled 0 .rx && !(s.epctl 0).getLsbD epctlCondis && decide (b.uown = .hw) &&
      decide (Config.setupLen ≤ b.bc.toNat) && !s.cqFull then .accept
  else .notAccepted

/-- The engine returns the descriptor it serves, changed by `f`: its pointer inverts and a record joins `CQ` (R220, R221). -/
def State.engineReturn (s : State) (e : Nat) (d : Dir) (f : Descriptor → Descriptor) : State :=
  let c := s.channel e d
  let i := c.engPp
  let c1 := c.setBd i { f (c.bd i) with uown := .sw }
  { s.setChannel e d { c1 with engPp := !i } with cq := s.cq ++ [{ ep := e, dir := d, pp := i }] }

/-- The byte the engine sends at offset `k` of the packet in descriptor `i` of a transmit pipe: the one it has read
already, or the one it reads now (R76, R252; log 7). -/
def State.txByte (s : State) (e : Nat) (i : Bool) (k : Nat) : Byte :=
  let c := s.channel e .tx
  ((c.fetched i).lookup k).getD (s.readByte ((c.bd i).addr + k) (s.freeCtr + k))

/-- `MemRead(BD.addr, BD.bc)` as the engine sends it (R220). -/
def State.txData (s : State) (e : Nat) (i : Bool) : List Byte :=
  (List.range ((s.channel e .tx).bd i).bc.toNat).map (s.txByte e i)

/-- `EngineComplete` for an acknowledged IN (R220): the descriptor returns with `pid` IN and its `bc` unchanged, and the
host has the packet. -/
def State.completeIn (s : State) (e : Nat) : State :=
  let i := s.engPp e .tx
  let b := s.bd e .tx i
  { s.engineReturn e .tx (fun b => { b with pid := .inn }) with
    sent := s.sent ++ [{ ep := e, tog := b.tog, data := s.txData e i }]
    freeCtr := s.freeCtr + b.bc.toNat }

/-- `EngineComplete` for an OUT packet (R220): the bytes land in the buffer, and the descriptor returns with the count and
`pid` OUT. -/
def State.completeOut (s : State) (e : Nat) (data : List Byte) : State :=
  { s.engineReturn e .rx (fun b => { b with bc := BitVec.ofNat 10 data.length, pid := .out }) with
    mem := Memory.writeBytes s.mem (s.engineBd e .rx).addr data }

/-- Byte 0 (`hi` false) or 1 of a 16-bit field, little-endian (20_memory.md R63). -/
def halfByte (hi : Bool) (v : BitVec 16) : Byte := if hi then (v >>> 8).setWidth 8 else v.setWidth 8

/-- The 8 bytes of a setup packet, as the engine writes them (30_encoding.md R89). -/
def SetupPacket.bytes (q : SetupPacket) : List Byte :=
  [ q.bmRequestType, q.bRequest, halfByte false q.wValue, halfByte true q.wValue,
    halfByte false q.wIndex, halfByte true q.wIndex, halfByte false q.wLength, halfByte true q.wLength ]

/-- `EngineSetup` (R221). -/
def State.acceptSetup (s : State) (q : SetupPacket) : State :=
  { s.engineReturn 0 .rx (fun b => { b with bc := BitVec.ofNat 10 Config.setupLen, pid := .setup, stall := false }) with
    mem := Memory.writeBytes s.mem (s.engineBd 0 .rx).addr q.bytes }

/-- An engine step that uses the buffer of `b` is stuck if it wraps (20_memory.md R68). -/
def onBuffer (p : Params) (b : Descriptor) (s : State) : Host.Outcome State Fault Refusal :=
  if b.wraps p then .fault .engineBufferWraps else .next s

/-- The state after an answer other than a completion: a STALL handshake sets `STATUS.STALL` (R222), every other answer
changes nothing (R220, R221). -/
def State.afterAnswer (s : State) : Answer → State
  | .stallHandshake => s.raise .stall
  | .complete => s
  | .accept => s
  | .disabled => s
  | .nak => s
  | .holds => s
  | .ackDiscard => s
  | .tooLong => s
  | .unacknowledged => s
  | .notAccepted => s

/-- An IN token (R220, R222). -/
def stepIn (e : Nat) (acked : Bool) (s : State) : Host.Outcome State Fault Refusal :=
  if s.answerIn e acked = .complete then onBuffer s.params (s.engineBd e .tx) (s.completeIn e)
  else .next (s.afterAnswer (s.answerIn e acked))

/-- An OUT packet (R220, R222). -/
def stepOut (e : Nat) (tog : Bool) (data : List Byte) (s : State) : Host.Outcome State Fault Refusal :=
  if s.answerOut e tog data.length = .complete then onBuffer s.params (s.engineBd e .rx) (s.completeOut e data)
  else .next (s.afterAnswer (s.answerOut e tog data.length))

/-- A SETUP transaction (R221). -/
def stepSetup (q : SetupPacket) (s : State) : Host.Outcome State Fault Refusal :=
  if s.answerSetup = .accept then onBuffer s.params (s.engineBd 0 .rx) (s.acceptSetup q)
  else .next (s.afterAnswer s.answerSetup)

/-- The engine may read byte `k` of the packet in descriptor `i`: the descriptor is `HW`, carries data and has that byte
(R76). -/
def State.mayFetch (s : State) (e : Nat) (i : Bool) (k : Nat) : Bool :=
  let b := s.bd e .tx i
  decide (e < s.numEp) && decide (b.uown = .hw) && !b.stall && decide (k < b.bc.toNat)

/-- The engine reads one byte of a transmit packet ahead of its completion, "at some point while the descriptor is `HW`"
(R76): that byte is the one it will send (log 7). -/
def stepTxFetch (e : Nat) (i : Bool) (k : Nat) (s : State) : Host.Outcome State Fault Refusal :=
  let c := s.channel e .tx
  let b := c.bd i
  if s.mayFetch e i k then
    onBuffer s.params b
      { s.setChannel e .tx (c.setFetched i ((k, s.readByte (b.addr + k) s.freeCtr) :: c.fetched i)) with
        freeCtr := s.freeCtr + 1 }
  else .next s

/-- The engine reports transport errors (R223). -/
def stepTransportError (m : BitVec 5) (s : State) : Host.Outcome State Fault Refusal :=
  if m = 0 then .refused .emptyErrorReport
  else .next { s.raise .error with errpend := s.errpend ||| m }

end Sys2Proof.Machine
end

