-- ==== Sys2Proof/WellFormed.lean ====
section
/-! DEFINITION. Which terms of `Instr` a command word can carry: the endpoint field has four bits (30_encoding.md R82).
Whether the endpoint exists (`ep < NUM_EP`) is no part of this: each command checks it when it executes (R99). -/

namespace Sys2Proof

/-- An endpoint number fits the 4-bit field `CMD[3:0]`. -/
def epFits (ep : Nat) : Bool := decide (ep < 16)

/-- The fields of a command fit its word. -/
def Instr.wellFormed : Instr → Bool
  | .configure ep _ _ _ => epFits ep
  | .start ep _ _ _ _ => epFits ep
  | .stall ep _ => epFits ep
  | .unstall ep _ => epFits ep
  | .flush ep _ => epFits ep
  | .queryStall ep _ => epFits ep
  | .setEpfunc ep => epFits ep
  | .readErr => true
  | .dispatch => true

end Sys2Proof
end

