-- ==== Sys2Proof/Decode.lean ====
section
/-! DEFINITION. The decode table and the decoder of 30_encoding.md R98 and R99, total on every 32-bit word, the reasons
a word is illegal (R94), and the encoder written from the same table. -/

namespace Sys2Proof

/-- Why a word is illegal (R94). The names are the model's; the block reports all four as E_ILLEGAL (log 17). -/
inductive IllegalWord where
  /-- OPCODE 0x00 or 0x0A .. 0xFF. -/
  | reservedOpcode
  /-- `CMD[23:16]` is not 0. -/
  | reservedByte
  /-- A reserved CFLAGS bit is set (R84, R80). -/
  | reservedCflags
  /-- A reserved XFLAGS bit is set (R83). -/
  | reservedXflags
deriving DecidableEq, Repr

/-- `ep = CMD[3:0]` (R85). -/
def epField (w : Word) : Nat := (w &&& 0xF#32).toNat

/-- `dir = CMD[7]`: 1 is transmit (R82). -/
def dirField (w : Word) : Dir := if w.getLsbD 7 then .tx else .rx

/-- One row of the decode table (R98): a word selects it when its bits under `mask` are `bits`. -/
structure Row where
  mnemonic : String
  bits : Word
  mask : Word
  fields : Word → Instr

/-- The decode table (R98), with the fields of R99 and R85. -/
def rows : List Row :=
  [ { mnemonic := "CONFIGURE", bits := 0x01000000, mask := 0xFFFFF8F0,
      fields := fun w => .configure (epField w) (w.getLsbD 8) (w.getLsbD 9) (w.getLsbD 10) },
    { mnemonic := "START", bits := 0x02000000, mask := 0xFFFFFF00,
      fields := fun w => .start (epField w) (dirField w) (w.getLsbD 6) (w.getLsbD 5) (w.getLsbD 4) },
    { mnemonic := "STALL", bits := 0x03000000, mask := 0xFFFFFF70,
      fields := fun w => .stall (epField w) (dirField w) },
    { mnemonic := "UNSTALL", bits := 0x04000000, mask := 0xFFFFFF70,
      fields := fun w => .unstall (epField w) (dirField w) },
    { mnemonic := "FLUSH", bits := 0x05000000, mask := 0xFFFFFF70,
      fields := fun w => .flush (epField w) (dirField w) },
    { mnemonic := "QUERY_STALL", bits := 0x06000000, mask := 0xFFFFFF70,
      fields := fun w => .queryStall (epField w) (dirField w) },
    { mnemonic := "SET_EPFUNC", bits := 0x07000000, mask := 0xFFFFFFF0,
      fields := fun w => .setEpfunc (epField w) },
    { mnemonic := "READ_ERR", bits := 0x08000000, mask := 0xFFFFFFFF,
      fields := fun _ => .readErr },
    { mnemonic := "DISPATCH", bits := 0x09000000, mask := 0xFFFFFFFF,
      fields := fun _ => .dispatch } ]

/-- A word selects a row when `w & mask == match` (R98). -/
def Row.selectedBy (w : Word) (r : Row) : Bool := (w &&& r.mask) == r.bits

/-- The first reason of R94 that applies to an illegal word. -/
def illegalReason (w : Word) : IllegalWord :=
  if (w >>> 24) == 0#32 || BitVec.ult 9#32 (w >>> 24) then .reservedOpcode
  else if (w &&& 0x00FF0000#32) != 0#32 then .reservedByte
  else if (w &&& 0x0000F800#32) != 0#32 ||
      ((w >>> 24) != 1#32 && (w &&& 0x00000700#32) != 0#32) then .reservedCflags
  else .reservedXflags

/-- The decode function (R99): the instruction of the first row the word selects, or the reason it is illegal. -/
def decode (w : Word) : Except IllegalWord Instr :=
  match rows.find? (Row.selectedBy w) with
  | some r => .ok (r.fields w)
  | none => .error (illegalReason w)

/-- A one-bit field at bit `n` of a word. -/
def bitField (n : Nat) (b : Bool) : Word := if b then 1#32 <<< n else 0#32

/-- `dir` at bit 7 (R82). -/
def dirBits (d : Dir) : Word := bitField 7 (d == .tx)

/-- `ep` at bits 3:0 (R82). -/
def epBits (ep : Nat) : Word := BitVec.ofNat 32 (ep % 16)

/-- The word of a command (R96, column CMD). -/
def encode : Instr → Word
  | .configure ep cfTx cfRx cfHshk =>
      0x01000000 ||| bitField 10 cfHshk ||| bitField 9 cfRx ||| bitField 8 cfTx ||| epBits ep
  | .start ep dir force dts zlp =>
      0x02000000 ||| dirBits dir ||| bitField 6 force ||| bitField 5 dts ||| bitField 4 zlp ||| epBits ep
  | .stall ep dir => 0x03000000 ||| dirBits dir ||| epBits ep
  | .unstall ep dir => 0x04000000 ||| dirBits dir ||| epBits ep
  | .flush ep dir => 0x05000000 ||| dirBits dir ||| epBits ep
  | .queryStall ep dir => 0x06000000 ||| dirBits dir ||| epBits ep
  | .setEpfunc ep => 0x07000000 ||| epBits ep
  | .readErr => 0x08000000
  | .dispatch => 0x09000000

/-- The instruction the decoder reads from an instruction of `nbits` bits. Every command is one 32-bit word (R95) that
software writes whole (R64), so the word's number is the word. -/
def decodeTableWord (nbits w : Nat) : Option Instr :=
  if nbits ≤ 32 ∧ w < 2 ^ 32 then
    match decode (BitVec.ofNat 32 w) with
    | .ok i => some i
    | .error _ => none
  else none

end Sys2Proof
end

