-- ==== Sys2Proof/Machine/Operands.lean ====
section
/-! DEFINITION. How a command assembles its operands from the argument registers (30_encoding.md R85): none is
sign-extended, scaled or shifted. The fields of the command word are the arguments of its constructor. -/

namespace Sys2Proof.Machine

/-- `buf = ARG0` (R85), START only. -/
abbrev State.bufOperand (s : State) : Nat := s.arg0

/-- `size = ARG1` (R85), START only. -/
abbrev State.sizeOperand (s : State) : Size := s.arg1

/-- `max = ARG1[BC_BITS-1:0]` (R85), CONFIGURE only; the upper bits are ignored (70_reset_and_hazards.md R255). -/
abbrev State.maxOperand (s : State) : Count := s.arg1.setWidth 10

/-- `fd = ARG1[7:0]` (R85), SET_EPFUNC only. -/
abbrev State.fdOperand (s : State) : Byte := s.arg1.setWidth 8

end Sys2Proof.Machine
end

