-- ==== Sys2Proof/Machine/PipeConfig.lean ====
section
/-! DEFINITION. CONFIGURE, STALL, UNSTALL, FLUSH and QUERY_STALL (40_pipe_config.md). -/

namespace Sys2Proof.Machine

/-- A pipe returned to idle: its transfer bookkeeping zeroed, `max`, `pp` and `tog` kept (10_state.md R53, D20). -/
def Pipe.toIdle (q : Pipe) : Pipe :=
  { q with buf := 0, size := 0, rem := 0, cnt := 0, zeroPkt := false, sendZeroPkt := false }

/-- A pipe returned to idle in its tables: with the transfer goes its hold (70_reset_and_hazards.md R254, log 21). -/
def Channel.idled (c : Channel) : Channel := { c with pipe := c.pipe.toIdle, held := false }

/-- What CONFIGURE does to a selected pipe: idle, `max` written, `tog` zeroed, `pp` kept (R110). -/
def Channel.configured (c : Channel) (max : Count) : Channel :=
  { c.idled with pipe := { c.pipe.toIdle with max := max, tog := false } }

/-- The value CONFIGURE writes to `EPCTL[ep]` (R110, R111): an enable bit only for a selected direction, HSHK always 1
and CONDIS always 0 on endpoint 0, CONDIS always 1 on every other. -/
def configuredEpctl (ep : Nat) (max : Count) (cfTx cfRx cfHshk : Bool) (v : Byte) : Byte :=
  let v := if cfRx then putBit v epctlRxen (max != 0) else v
  let v := if cfTx then putBit v epctlTxen (max != 0) else v
  let v := putBit v epctlHshk (decide (ep = 0) || cfHshk)
  putBit v epctlCondis (!decide (ep = 0))

/-- The body of R110 on the registers and pipes of endpoint `ep`. -/
def Endpoint.configured (x : Endpoint) (ep : Nat) (max : Count) (cfTx cfRx cfHshk : Bool) : Endpoint :=
  { x with
    rx := if cfRx then x.rx.configured max else x.rx
    tx := if cfTx then x.tx.configured max else x.tx
    epctl := configuredEpctl ep max cfTx cfRx cfHshk x.epctl }

/-- CONFIGURE (R110 to R112). -/
def execConfigure (ep : Nat) (cfTx cfRx cfHshk : Bool) (s : State) : Host.Outcome State Fault Refusal :=
  .next (s.inRange ep
    ((s.setEndpoint ep ((s.endpoint ep).configured ep s.maxOperand cfTx cfRx cfHshk)).ok 0))

/-- A descriptor armed to stall: the stall bit set and handed to the engine, if the block owns it (R115). -/
def Descriptor.armStall (b : Descriptor) : Descriptor :=
  if b.uown = .sw then { b with stall := true, uown := .hw } else b

/-- Bits 1:0 of a word: bit 0 for descriptor 0, bit 1 for descriptor 1 (R115, R125). -/
def pairMask (b0 b1 : Bool) : Word := putBit (putBit 0#32 0 b0) 1 b1

/-- STALL (R115, R116). -/
def execStall (ep : Nat) (dir : Dir) (s : State) : Host.Outcome State Fault Refusal :=
  let c := s.channel ep dir
  .next (s.inRange ep
    ((s.setChannel ep dir { c with bd0 := c.bd0.armStall, bd1 := c.bd1.armStall }).ok
      (pairMask (decide (c.bd0.uown = .sw)) (decide (c.bd1.uown = .sw)))))

/-- A descriptor force-cleared by UNSTALL, whoever owns it (R118). -/
def Descriptor.unstalled (b : Descriptor) : Descriptor := { b with uown := .sw, stall := false, tog := false }

/-- UNSTALL (R118). -/
def execUnstall (ep : Nat) (dir : Dir) (s : State) : Host.Outcome State Fault Refusal :=
  let c := s.channel ep dir
  .next (s.inRange ep
    ((s.setChannel ep dir { c with bd0 := c.bd0.unstalled, bd1 := c.bd1.unstalled }).ok 0))

/-- A descriptor reclaimed by FLUSH, whoever owns it (R121). -/
def Descriptor.flushed (b : Descriptor) : Descriptor := { b with uown := .sw, bc := 0 }

/-- FLUSH on one pipe: both descriptors reclaimed, the pipe idle, `pp` realigned with the engine's pointer (R121). -/
def Channel.flushed (c : Channel) : Channel :=
  { c.idled with bd0 := c.bd0.flushed, bd1 := c.bd1.flushed, pipe := { c.pipe.toIdle with pp := c.engPp } }

/-- FLUSH (R121, R122). -/
def execFlush (ep : Nat) (dir : Dir) (s : State) : Host.Outcome State Fault Refusal :=
  .next (s.inRange ep ((s.setChannel ep dir (s.channel ep dir).flushed).ok 0))

/-- QUERY_STALL (R125). -/
def execQueryStall (ep : Nat) (dir : Dir) (s : State) : Host.Outcome State Fault Refusal :=
  .next (s.inRange ep (s.ok (pairMask (s.bd ep dir false).stall (s.bd ep dir true).stall)))

end Sys2Proof.Machine
end

