-- ==== Sys2Proof/Machine/Transfer.lean ====
section
/-! DEFINITION. START, the packet scheduler and CompletePacket (41_transfer.md). -/

namespace Sys2Proof.Machine

/-- `HandOff` (R146): writes one packet into the descriptor at the pipe's ping-pong index and gives it to the engine. The
packet carries the pipe's toggle from before the inversion. The engine has read nothing of the new packet (log 7). -/
def Channel.handOff (c : Channel) (a : Nat) (n : Count) : Channel :=
  let i := c.pipe.pp
  let c := (c.setBd i { uown := .hw, stall := false, tog := c.pipe.tog, bc := n, addr := a, pid := .none }).setFetched i []
  { c with pipe := { c.pipe with tog := !c.pipe.tog, pp := !i } }

/-- What `QueueNext` returns: QUEUED with the pipe after it, NOTHING, or OWNFAIL (R145). -/
inductive QueueResult where
  | queued (c : Channel)
  | nothing
  | ownFail
deriving DecidableEq, Repr

/-- The descriptor the next hand-off uses is engine-owned. -/
def Channel.nextOwned (c : Channel) : Bool := decide ((c.bd c.pipe.pp).uown = .hw)

/-- The length of the next data packet: `min(rem, max)` (R145). -/
def Pipe.packetLength (q : Pipe) : Nat := min q.rem.toNat q.max.toNat

/-- `QueueNext` (R145): the next data packet if data remains, otherwise the pending zero-length packet, otherwise
nothing. -/
def Channel.queueNext (p : Params) (c : Channel) : QueueResult :=
  let q := c.pipe
  if 0 < q.rem.toNat then
    if c.nextOwned then .ownFail
    else
      let n := q.packetLength
      let rem := q.rem - BitVec.ofNat 16 n
      let send := q.sendZeroPkt || (rem == 0 && q.zeroPkt)
      .queued ({ c with pipe := { q with rem := rem, sendZeroPkt := send } }.handOff
        (addrAdd p q.buf (q.size - q.rem).toNat) (BitVec.ofNat 10 n))
  else if q.sendZeroPkt then
    if c.nextOwned then .ownFail
    else .queued ({ c with pipe := { q with sendZeroPkt := false } }.handOff (addrAdd p q.buf q.size.toNat) 0)
  else .nothing

/-- `QueueNext` where the caller has checked ownership (R140): the pipe after it, unchanged if nothing was queued. -/
def Channel.queueChecked (p : Params) (c : Channel) : Channel :=
  match c.queueNext p with
  | .queued c' => c'
  | .nothing => c
  | .ownFail => c

/-- A transfer wants a zero-length packet: its size is 0, or it asks for termination and its size is an exact multiple of
`max` (R142). -/
def wantsZlp (size : Size) (max : Count) (zlp : Bool) : Bool :=
  decide (size.toNat = 0) || (zlp && decide (size.toNat % max.toNat = 0))

/-- START queues two packets exactly when `size > max`, or `size == max` with zero-termination (R143). -/
def startsTwo (size : Size) (max : Count) (zlp : Bool) : Bool :=
  decide (max.toNat < size.toNat) || (decide (size.toNat = max.toNat) && zlp)

/-- The pipe START leaves before it queues anything (R140, R142). -/
def Pipe.started (q : Pipe) (buf : Nat) (size : Size) (force dts zlp : Bool) : Pipe :=
  { q with
    tog := if force then dts else q.tog
    buf := buf, size := size, rem := size, cnt := 0
    zeroPkt := wantsZlp size q.max zlp, sendZeroPkt := decide (size.toNat = 0) }

/-- A descriptor START would hand off is engine-owned (R141). -/
def Channel.startBlocked (c : Channel) (two : Bool) : Bool :=
  c.nextOwned || (two && decide ((c.bd (!c.pipe.pp)).uown = .hw))

/-- The body of R140 on one pipe: its checks in the rule's order, then the transfer's first one or two packets. -/
def Channel.start (p : Params) (c : Channel) (buf : Nat) (size : Size) (force dts zlp : Bool) : Except FailCode Channel :=
  let two := startsTwo size c.pipe.max zlp
  if c.pipe.max.toNat = 0 then .error .unconfigured
  else if c.pipe.buf ≠ 0 then .error .busy
  else if buf = 0 then .error .nullbuf
  else if c.startBlocked two then .error .ownership
  else
    let c1 := { c with pipe := c.pipe.started buf size force dts zlp }.queueChecked p
    .ok (if two then c1.queueChecked p else c1)

/-- The effect of a START on the state, without its range check: E_OWNERSHIP also records an ownership violation
(R140, R141). -/
def State.startOn (s : State) (ep : Nat) (dir : Dir) (force dts zlp : Bool) : State :=
  match (s.channel ep dir).start s.params s.bufOperand s.sizeOperand force dts zlp with
  | .ok c => (s.setChannel ep dir c).ok 0
  | .error .ownership => s.ownershipViolation.fail .ownership
  | .error code => s.fail code

/-- START (R140 to R147). -/
def execStart (ep : Nat) (dir : Dir) (force dts zlp : Bool) (s : State) : Host.Outcome State Fault Refusal :=
  .next (s.inRange ep (s.startOn ep dir force dts zlp))

/-- What CompletePacket returns (R150). -/
inductive PacketOutcome where
  | done (bytes : Size)
  | goesOn
  | ownFail
  | stray
deriving DecidableEq, Repr

/-- A transfer is done when its completed packet is short, or when the bytes moved equal the size and no zero-length packet
is wanted (R151). -/
def Pipe.isDone (q : Pipe) (actual : Count) : Bool :=
  decide (actual.toNat < q.max.toNat) || (q.cnt == q.size && !q.zeroPkt)

/-- A packet is due (R152). -/
def Pipe.packetDue (q : Pipe) : Bool := decide (0 < q.rem.toNat) || q.sendZeroPkt

/-- `CompletePacket` on one pipe, for the packet the engine returned in descriptor `i` (R150). The caller records the
ownership violation of OWNFAIL. OWNFAIL holds the transfer: "Nothing re-tries the hand-off" (70_reset_and_hazards.md R254), and it
"never ends until FLUSH" (93_implementation_defined.md U22), so a later completion of the held transfer is counted and does no
more (DEDUCED, log 21). -/
def Channel.completePacket (p : Params) (c : Channel) (i : Bool) : Channel × PacketOutcome :=
  if c.pipe.buf = 0 then (c, .stray)
  else
    let actual := (c.bd i).bc
    let q := { c.pipe with cnt := c.pipe.cnt + actual.setWidth 16 }
    let c1 := { c with pipe := q }
    if c.held then (c1, .goesOn)
    else if q.isDone actual then ({ c with pipe := q.toIdle }, .done q.cnt)
    else if q.packetDue then
      match c1.queueNext p with
      | .queued c2 => (c2, .goesOn)
      | .nothing => (c1, .goesOn)
      | .ownFail => ({ c1 with held := true }, .ownFail)
    else (c1, .goesOn)

end Sys2Proof.Machine
end

