-- ==== Sys2Proof/Machine/Services.lean ====
section
/-! DEFINITION. DISPATCH with its service steps, SET_EPFUNC and READ_ERR (42_dispatch.md). A service takes the state and
answers the state after it with the events it emits, in order. -/

namespace Sys2Proof.Machine

/-- A service that forwards a class: clears its bit and emits one event (R173, R184). -/
def forward (c : StatusClass) (k : EventKind) (s : State) : State × List Event :=
  if s.pending c then (s.clear c, [{ kind := k }]) else (s, [])

/-- The event of a completed transfer: EP0_COMPLETE for endpoint 0, XFER_COMPLETE with the function of `EPFUNC` for any
other (R177). -/
def State.completionEvent (s : State) (r : Completion) (bytes : Size) : Event :=
  if r.ep = 0 then { kind := .ep0Complete, ep := 0, dir := r.dir, pp := r.pp, value := bytes }
  else { kind := .xferComplete, ep := r.ep, dir := r.dir, pp := r.pp, fd := s.epfunc r.ep, value := bytes }

/-- `SetupPath` (R176): the endpoint-0 receive pipe returns to idle and SETUP_RECEIVED reports where the packet landed. -/
def State.setupPath (s : State) (d : Dir) (i : Bool) : State × List Event :=
  let c := s.channel 0 d
  let b := c.bd i
  (s.setChannel 0 d c.idled,
    [{ kind := .setupReceived, ep := 0, dir := d, pp := i, value := b.bc.setWidth 16, addr := b.addr }])

/-- The completion path of R174 for record `r`: CompletePacket, then the event of its outcome (R177 to R179). -/
def State.completionPath (s : State) (r : Completion) : State × List Event :=
  let (c, o) := (s.channel r.ep r.dir).completePacket s.params r.pp
  let s1 := s.setChannel r.ep r.dir c
  match o with
  | .done bytes => (s1, [s.completionEvent r bytes])
  | .goesOn => (s1, [])
  | .ownFail => (s1.ownershipViolation, [])
  | .stray => (s1, [])

/-- `TokenService` (R174 to R179): services the head record of `CQ`, if there is one. -/
def tokenService (s : State) : State × List Event :=
  match s.cq with
  | [] => (s, [])
  | r :: rest =>
    let s1 := { s with cq := rest }
    let b := s1.bd r.ep r.dir r.pp
    if b.uown = .hw then (s1.ownershipViolation, [])
    else if r.ep = 0 ∧ b.pid = .setup then s1.setupPath r.dir r.pp
    else s1.completionPath r

/-- The Pipe Engine and the function map at their power-on values, the engine's pointers zeroed and `CQ` emptied
(R180, R181). -/
def State.reinitialised (s : State) : State :=
  { s with eps := (List.range s.numEp).map Endpoint.powerOn, cq := [] }

/-- `ConfigureBody(ep 0, max EP0_MAX_PACKET, TX, RX, HSHK)` (R180). -/
def State.configureEp0 (s : State) : State :=
  s.setEndpoint 0 ((s.endpoint 0).configured 0 s.params.ep0MaxPacket true true true)

/-- `StartBody(ep 0, RX, SETUP_BUF_ADDR, 8)` (R180). It cannot fail for parameters in their ranges; for others the pipe is
left as it is (log 20). -/
def State.armSetup (s : State) : State :=
  match (s.channel 0 .rx).start s.params s.params.setupBufAddr (BitVec.ofNat 16 Config.setupLen) false false false with
  | .ok c => s.setChannel 0 .rx c
  | .error _ => s

/-- `BusResetService` (R180 to R182). -/
def busResetService (s : State) : State × List Event :=
  if s.pending .reset then
    ((s.clear .reset).reinitialised.configureEp0.armSetup, [{ kind := .busReset }])
  else (s, [])

/-- `ErrorService` (R183): `ERRPEND` is ORed into `ERRSTAT[4:0]` and zeroed, and BUS_ERROR carries the bitmap. -/
def errorService (s : State) : State × List Event :=
  if s.pending .error then
    let e := s.errstat ||| s.errpend.setWidth 8
    ({ s.clear .error with errstat := e, errpend := 0 }, [{ kind := .busError, value := e.setWidth 16 }])
  else (s, [])

/-- The services in the order of R172: TICK, DETACH, SOF, TOKEN, RESET, ERROR, IDLE, RESUME, STALL. -/
def services : List (State → State × List Event) :=
  [ forward .tick .tick,
    forward .detach .detach,
    forward .sof .sof,
    tokenService,
    busResetService,
    errorService,
    forward .idle .suspend,
    forward .resume .resume,
    forward .stall .stall ]

/-- Runs services one after another, each seeing the state the earlier ones left, and lists their events in order
(R171, R172). -/
def runServices : List (State → State × List Event) → State → State × List Event
  | [], s => (s, [])
  | f :: fs, s =>
    let (s1, e1) := f s
    let (s2, e2) := runServices fs s1
    (s2, e1 ++ e2)

/-- DISPATCH (R170 to R185): every pending class once; the events are appended to `EVOUT`, and `RDATA` is their number. -/
def execDispatch (s : State) : Host.Outcome State Fault Refusal :=
  let (s1, evs) := runServices services s
  .next ({ s1 with evout := s1.evout ++ evs }.ok (BitVec.ofNat 32 evs.length))

/-- `EPFUNC` may hold `fd`: an index of the function map, or NONE (10_state.md R46). -/
def fdLegal (fd : Byte) : Bool := decide (fd.toNat < Config.fdCount) || fd == Config.fdNone

/-- SET_EPFUNC (R190). -/
def execSetEpfunc (ep : Nat) (s : State) : Host.Outcome State Fault Refusal :=
  .next (s.inRange ep
    (if fdLegal s.fdOperand then (s.setEndpoint ep { s.endpoint ep with epfunc := s.fdOperand }).ok 0
     else s.fail .range))

/-- READ_ERR (R191). -/
def execReadErr (s : State) : Host.Outcome State Fault Refusal :=
  .next ({ s with errstat := 0 }.ok (s.errstat.setWidth 32))

end Sys2Proof.Machine
end

