-- ==== Sys2Proof/Machine/Dispatch.lean ====
section
/-! DEFINITION. The dispatch of a decoded command to its meaning, one arm per row of the decode table (30_encoding.md R98). -/

namespace Sys2Proof.Machine

/-- Executes one command (00_scope.md R13). -/
def exec (i : Instr) (s : State) : Host.Outcome State Fault Refusal :=
  match i with
  | .configure ep cfTx cfRx cfHshk => Sys2Proof.Machine.execConfigure ep cfTx cfRx cfHshk s
  | .start ep dir force dts zlp => Sys2Proof.Machine.execStart ep dir force dts zlp s
  | .stall ep dir => Sys2Proof.Machine.execStall ep dir s
  | .unstall ep dir => Sys2Proof.Machine.execUnstall ep dir s
  | .flush ep dir => Sys2Proof.Machine.execFlush ep dir s
  | .queryStall ep dir => Sys2Proof.Machine.execQueryStall ep dir s
  | .setEpfunc ep => Sys2Proof.Machine.execSetEpfunc ep s
  | .readErr => Sys2Proof.Machine.execReadErr s
  | .dispatch => Sys2Proof.Machine.execDispatch s

end Sys2Proof.Machine
end

