-- ==== Sys2Proof/Machine/UpperLayer.lean ====
section
/-! DEFINITION. What the upper layer does to the block: reads and writes of the register interface (20_memory.md R64 to
R67), taking events (10_state.md R52), and its accesses to buffer memory (20_memory.md R60, R75). -/

namespace Sys2Proof.Machine

/-- The size of the register interface: `0x40 + 4*NUM_EP` bytes (R66). -/
def State.mapBytes (s : State) : Nat := 0x40 + 4 * s.numEp

/-- Executes the word written to `CMD` (30_encoding.md R80, R99). -/
def issue (w : Word) (s : State) : Host.Outcome State Fault Refusal :=
  match decode w with
  | .ok i => exec i s
  | .error _ => .next s.illegal

/-- `ARG0` after a write of `v` to it when it held `a`: the low `ADDR_BITS` bits of `v` (R64). Above 32 bits the low word is `v` and
the spec is silent on the rest: it is free, but a write of the word `ARG0` ends in already changes nothing, so that a repeated
write is idempotent (R67; log 6). -/
def arg0Written (p : Params) (a : Nat) (v : Word) : Nat :=
  if p.addrBits ≤ 32 then v.toNat % 2 ^ p.addrBits
  else if a % 2 ^ 32 = v.toNat then a
  else v.toNat + 2 ^ 32 * (Config.freeArg0High a v % 2 ^ (p.addrBits - 32))

/-- `ARG0` as it reads, zero-extended (R64). Above 32 bits the spec is silent and the word is a free function of `ARG0`, so that a
repeated read is idempotent (R67; log 6). -/
def arg0Read (p : Params) (a : Nat) : Word := if p.addrBits ≤ 32 then BitVec.ofNat 32 a else Config.freeArg0Read a

/-- A write of `v` to `ARG0` (R67: it only stores the value). -/
def State.writeArg0 (s : State) (v : Word) : State := { s with arg0 := arg0Written s.params s.arg0 v }

/-- A write of `v` to `ARG1`: the low 16 bits (R64). -/
def State.writeArg1 (s : State) (v : Word) : State := { s with arg1 := v.setWidth 16 }

/-- What a read of each register returns (R66): `CMD` and the reserved offsets read 0. -/
def State.registerRead (s : State) (offset : Nat) : Word :=
  if offset = 0x04 then arg0Read s.params s.arg0
  else if offset = 0x08 then s.arg1.setWidth 32
  else if offset = 0x0C then s.result.setWidth 32
  else if offset = 0x10 then s.rdata
  else if offset = 0x14 then s.statusRead.setWidth 32
  else if 0x40 ≤ offset then (s.epctl ((offset - 0x40) / 4)).setWidth 32
  else 0

/-- Runs a register access, or refuses one that is not an aligned 32-bit word (R64) or lies beyond the map (U31). -/
def State.access (s : State) (offset : Nat) (width : AccessWidth) (body : Host.Outcome State Fault Refusal) :
    Host.Outcome State Fault Refusal :=
  if width ≠ .word ∨ offset % 4 ≠ 0 then .refused .registerAccessShape
  else if s.mapBytes ≤ offset then .refused .registerBeyondMap
  else body

/-- A register write (R66, R67): `CMD` issues a command, `ARG0` and `ARG1` store, every other offset ignores it. -/
def stepRegWrite (offset : Nat) (width : AccessWidth) (v : Word) (s : State) : Host.Outcome State Fault Refusal :=
  s.access offset width
    (if offset = 0x00 then issue v s
     else if offset = 0x04 then .next (s.writeArg0 v)
     else if offset = 0x08 then .next (s.writeArg1 v)
     else .next s)

/-- A register read (R66, R67): no side effect; the word goes to the upper layer (`busData`, log 11). -/
def stepRegRead (offset : Nat) (width : AccessWidth) (s : State) : Host.Outcome State Fault Refusal :=
  s.access offset width
    (.next { s with busData := s.registerRead offset })

/-- The upper layer takes the head of `EVOUT` (R52). -/
def stepTakeEvent (s : State) : Host.Outcome State Fault Refusal :=
  .next { s with taken := s.evout.head?, evout := s.evout.tail }

/-- The upper layer writes a byte of buffer memory (R60). -/
def stepBufWrite (a : Nat) (v : Byte) (s : State) : Host.Outcome State Fault Refusal :=
  if 2 ^ s.params.addrBits ≤ a then .fault .bufferAddressOutside
  else .next { s with mem := Memory.write s.mem a v }

/-- The upper layer reads a byte of buffer memory: under an engine-owned receive descriptor it is a free value
(70_reset_and_hazards.md R252). -/
def stepBufRead (a : Nat) (s : State) : Host.Outcome State Fault Refusal :=
  if 2 ^ s.params.addrBits ≤ a then .fault .bufferAddressOutside
  else .next { s with bufData := s.readByte a s.freeCtr, freeCtr := s.freeCtr + 1 }

end Sys2Proof.Machine
end

