-- ==== Sys2Proof/Machine/Agents.lean ====
section
/-! DEFINITION. One step of whichever agent acts next (60_exceptions.md R200). -/

namespace Sys2Proof.Machine

/-- The atomic step of the agent an input names (20_memory.md R65, R70). -/
def runInput (x : Input) (s : State) : Host.Outcome State Fault Refusal :=
  match x with
  | .regWrite offset width v => stepRegWrite offset width v s
  | .regRead offset width => stepRegRead offset width s
  | .takeEvent => stepTakeEvent s
  | .bufWrite a v => stepBufWrite a v s
  | .bufRead a => stepBufRead a s
  | .inToken ep acked => stepIn ep acked s
  | .outPacket ep tog data => stepOut ep tog data s
  | .setup packet => stepSetup packet s
  | .txFetch ep pp k => stepTxFetch ep pp k s
  | .tick => .next (s.raise .tick)
  | .sessionLost => .next (s.raise .detach)
  | .startOfFrame => .next (s.raise .sof)
  | .busReset => .next (s.raise .reset)
  | .transportError m => stepTransportError m s
  | .busIdle => .next (s.raise .idle)
  | .resumeSignal => .next (s.raise .resume)

/-- Takes the first input and lets its agent act; with no input nothing moves (60_exceptions.md R200, R224). -/
def runNext (s : State) : Host.Outcome State Fault Refusal :=
  match s.inputs with
  | [] => .next s
  | x :: rest => runInput x { s with inputs := rest }

end Sys2Proof.Machine
end

