-- ==== Sys2Proof/Machine/Step.lean ====
section
/-! DEFINITION. The step of the machine, and how a command is placed to run next. -/

namespace Sys2Proof.Machine

/-- One step: the next input's agent acts (60_exceptions.md R200; log 2). -/
def step (s : State) : Host.Outcome State Fault Refusal := runNext s

/-- The state in which the very next step executes the command word `w`: a write of it to `CMD` comes first among the inputs
(log 3). Every command is one 32-bit word (30_encoding.md R95), so `nbits` does not matter. -/
def State.withFetchWord (s : State) (_nbits w : Nat) : State := s.issueFirst (BitVec.ofNat 32 w)

end Sys2Proof.Machine
end

