-- ==== Sys2Proof/Machine/Assembler.lean ====
section
/-! DEFINITION. The assembler lines and pseudo-instructions of 30_encoding.md R96 and R97, as the register writes the upper
layer makes. -/

namespace Sys2Proof.Machine

/-- A line of R96: it sets the argument registers it names and then writes `CMD`. -/
inductive AsmLine where
  /-- `CONFIGURE ep, max[, TX][, RX][, HSHK]`. -/
  | configure (ep max : Nat) (tx rx hshk : Bool)
  /-- `START ep, TX|RX, buf, size[, DATA0|DATA1][, ZLP]`; `data` is absent, DATA0 or DATA1. -/
  | start (ep : Nat) (dir : Dir) (buf size : Nat) (data : Option Bool) (zlp : Bool)
  /-- `STALL ep, TX|RX`. -/
  | stall (ep : Nat) (dir : Dir)
  /-- `UNSTALL ep, TX|RX`. -/
  | unstall (ep : Nat) (dir : Dir)
  /-- `FLUSH ep, TX|RX`. -/
  | flush (ep : Nat) (dir : Dir)
  /-- `QUERY_STALL ep, TX|RX`. -/
  | queryStall (ep : Nat) (dir : Dir)
  /-- `SET_EPFUNC ep, fd|NONE`. -/
  | setEpfunc (ep : Nat) (fd : Option Nat)
  /-- `READ_ERR`. -/
  | readErr
  /-- `DISPATCH`. -/
  | dispatch
deriving DecidableEq, Repr

/-- A word write to a register offset (20_memory.md R66). -/
def writeReg (offset : Nat) (v : Word) : Input := .regWrite offset .word v

/-- The write of a command to `CMD`. -/
def writeCmd (i : Instr) : Input := writeReg 0x00 (encode i)

/-- The write of a number to `ARG0`. -/
def writeArg0 (n : Nat) : Input := writeReg 0x04 (BitVec.ofNat 32 n)

/-- The write of a number to `ARG1`. -/
def writeArg1 (n : Nat) : Input := writeReg 0x08 (BitVec.ofNat 32 n)

/-- The register writes of a line (R96): DATA0 gives force = 1 and dts = 0, DATA1 force = 1 and dts = 1, neither force = 0
and dts = 0; `NONE` is 0xFF. -/
def AsmLine.writes : AsmLine → List Input
  | .configure ep max tx rx hshk => [writeArg1 max, writeCmd (.configure ep tx rx hshk)]
  | .start ep dir buf size data zlp =>
      [writeArg0 buf, writeArg1 size, writeCmd (.start ep dir data.isSome (data.getD false) zlp)]
  | .stall ep dir => [writeCmd (.stall ep dir)]
  | .unstall ep dir => [writeCmd (.unstall ep dir)]
  | .flush ep dir => [writeCmd (.flush ep dir)]
  | .queryStall ep dir => [writeCmd (.queryStall ep dir)]
  | .setEpfunc ep fd => [writeArg1 (fd.getD 0xFF), writeCmd (.setEpfunc ep)]
  | .readErr => [writeCmd .readErr]
  | .dispatch => [writeCmd .dispatch]

/-- The pseudo-instructions of R97. -/
inductive Pseudo where
  | armSetup (buf : Nat)
  | sendZlp (ep buf : Nat)
  | recvStatus (buf : Nat)
  | sendStatus (buf : Nat)
  | stallEp0
  | deconfigure (ep : Nat)
  | abortEp0
deriving DecidableEq, Repr

/-- Their expansions (R97). -/
def Pseudo.lines : Pseudo → List AsmLine
  | .armSetup buf => [.start 0 .rx buf 8 none false]
  | .sendZlp ep buf => [.start ep .tx buf 0 none false]
  | .recvStatus buf => [.start 0 .rx buf 0 (some true) false]
  | .sendStatus buf => [.start 0 .tx buf 0 (some true) false]
  | .stallEp0 => [.stall 0 .rx, .stall 0 .tx]
  | .deconfigure ep => [.configure ep 0 true true false]
  | .abortEp0 => [.flush 0 .tx, .flush 0 .rx, .unstall 0 .tx, .unstall 0 .rx]

/-- The register writes of a pseudo-instruction. -/
def Pseudo.writes (q : Pseudo) : List Input := q.lines.flatMap AsmLine.writes

end Sys2Proof.Machine
end

