-- ==== Sys2Proof/Safety.lean ====
section
/-! DEFINITION. The vocabulary of the claims: what a step leaves unchanged, the invariants of 10_state.md R53 to R55 and of
the registers, and the upper layer's duties of 60_exceptions.md R230. -/

namespace Sys2Proof.Machine

/-! ### Frames -/

/-- Only the endpoint tables, `RESULT` and `RDATA` may differ. -/
def keepsAllButTables (s t : State) : Prop := t = { s with eps := t.eps, result := t.result, rdata := t.rdata }

/-- The number of endpoints, `EPCTL`, `EPFUNC` and everything of every pipe other than (`ep`, `dir`) are unchanged. -/
def keepsOtherPipes (s t : State) (ep : Nat) (dir : Dir) : Prop :=
  t.numEp = s.numEp ∧ (∀ e d, e ≠ ep ∨ d ≠ dir → t.channel e d = s.channel e d) ∧
    ∀ e, t.epctl e = s.epctl e ∧ t.epfunc e = s.epfunc e

/-- Every byte of buffer memory reads as before. -/
def keepsMemory (s t : State) : Prop := ∀ a, Memory.byteAt t.mem a = Memory.byteAt s.mem a

/-- A transaction of the host or an early read by the engine. -/
def Input.isEngine : Input → Bool
  | .inToken _ _ => true
  | .outPacket _ _ _ => true
  | .setup _ => true
  | .txFetch _ _ _ => true
  | .regWrite _ _ _ => false
  | .regRead _ _ => false
  | .takeEvent => false
  | .bufWrite _ _ => false
  | .bufRead _ => false
  | .tick => false
  | .sessionLost => false
  | .startOfFrame => false
  | .busReset => false
  | .transportError _ => false
  | .busIdle => false
  | .resumeSignal => false

/-! ### Invariants -/

/-- Every open parameter lies in the range 00_scope.md R8 gives it, `NUM_EP` among them. -/
structure State.ParametersInRange (s : State) : Prop where
  params : s.params.wf = true
  numEpPositive : 1 ≤ s.numEp
  numEpBounded : s.numEp ≤ Config.maxNumEp

/-- What R53 says of a pipe, with the widths of R35 and the two facts the scheduler keeps: a due zero-length packet is wanted,
and only after all data is handed off. -/
structure Pipe.Consistent (p : Params) (q : Pipe) : Prop where
  idle : q.buf = 0 → q.size = 0 ∧ q.rem = 0 ∧ q.cnt = 0 ∧ q.zeroPkt = false ∧ q.sendZeroPkt = false
  unconfigured : q.max = 0 → q.buf = 0
  remaining : q.rem.toNat ≤ q.size.toNat
  bufWidth : q.buf < 2 ^ p.addrBits
  due : q.sendZeroPkt = true → q.zeroPkt = true ∧ q.rem = 0

/-- What R54 says of a descriptor the scheduler handed off, with the width of R32. -/
structure Descriptor.Consistent (p : Params) (b : Descriptor) : Prop where
  addrWidth : b.addr < 2 ^ p.addrBits
  handedOff : b.uown = .hw → b.stall = false → b.pid = .none

/-- The pipe file and the descriptor table are consistent (R53, R54), with the parameters in their ranges and `ARG0` in its
width; a held transfer is busy and has a packet due (70_reset_and_hazards.md R254, log 21). -/
structure State.TablesConsistent (s : State) : Prop where
  params : s.params.wf = true
  arg0Width : s.arg0 < 2 ^ s.params.addrBits
  pipes : ∀ e d, (s.pipe e d).Consistent s.params
  descriptors : ∀ e d i, (s.bd e d i).Consistent s.params
  holds : ∀ e d, s.held e d = true → (s.pipe e d).buf ≠ 0 ∧ (s.pipe e d).packetDue = true

/-- The reserved bits of `EPCTL`, `ERRSTAT` and `STATUS` are 0 (R44, R47, R48, U30), `TOKEN` is not stored, CONDIS is 0 exactly on
endpoint 0 (R44, R45), `EPFUNC` is legal (R46), and `RESULT` is one of the seven codes with `RDATA` 0 unless it is OK (R90). -/
structure State.RegistersLegal (s : State) : Prop where
  epctlReserved : ∀ e, s.epctl e &&& 0xE1 = 0
  condis : ∀ e, (s.epctl e).getLsbD epctlCondis = !decide (e = 0)
  epfunc : ∀ e, fdLegal (s.epfunc e) = true
  errstatReserved : s.errstat &&& 0x60 = 0
  statusReserved : s.status &&& 0xFE08 = 0
  resultCode : s.result.toNat ≤ 6
  rdataOnFailure : s.result ≠ 0 → s.rdata = 0

/-- Buffer memory is in its canonical form and holds only addresses that exist. -/
structure State.MemoryCanonical (s : State) : Prop where
  sorted : Memory.wf s.mem
  exist : ∀ c ∈ s.mem, c.1 < 2 ^ s.params.addrBits

/-- `CQ` never exceeds its capacity, and its records name endpoints the block has (R50). -/
structure State.QueueBounded (s : State) : Prop where
  capacity : s.cq.length ≤ s.params.statFifoDepth
  endpoints : ∀ r ∈ s.cq, r.ep < s.numEp

/-- No buffer the tables name reaches past the address space: every transfer and every descriptor lies within it, and so do
the 8 bytes at `SETUP_BUF_ADDR` the platform provides (70_reset_and_hazards.md R243). -/
structure State.BuffersFit (s : State) : Prop where
  setupBuffer : s.params.setupBufAddr + Config.setupLen ≤ 2 ^ s.params.addrBits
  remaining : ∀ e d, (s.pipe e d).rem.toNat ≤ (s.pipe e d).size.toNat
  transfers : ∀ e d, (s.pipe e d).buf + (s.pipe e d).size.toNat ≤ 2 ^ s.params.addrBits
  descriptors : ∀ e d i, (s.bd e d i).addr + (s.bd e d i).bc.toNat ≤ 2 ^ s.params.addrBits

/-! ### Events -/

/-- The turn of the service that raises an event of a kind, in the order of 42_dispatch.md R172 (the three token-complete
events share the turn of TOKEN). -/
def EventKind.turn : EventKind → Nat
  | .tick => 0
  | .detach => 1
  | .sof => 2
  | .setupReceived => 3
  | .ep0Complete => 3
  | .xferComplete => 3
  | .busReset => 4
  | .busError => 5
  | .suspend => 6
  | .resume => 7
  | .stall => 8

/-- No stored class is pending. -/
def State.noClassPending (s : State) : Prop := ∀ k, s.pending k = false

/-! ### Duties of the upper layer -/

/-- "Keep `ARG0 + ARG1` within the address space" (60_exceptions.md R230), for a START this input would issue. -/
def State.startFits (s : State) : Input → Bool
  | .regWrite offset _ v =>
      match decode v with
      | .ok (.start _ _ _ _ _) => decide (offset ≠ 0) || decide (s.arg0 + s.arg1.toNat ≤ 2 ^ s.params.addrBits)
      | .ok _ => true
      | .error _ => true
  | _ => true

/-- A pipe is idle and the block owns both its descriptors. -/
def State.quiet (s : State) (e : Nat) (d : Dir) : Bool :=
  decide ((s.pipe e d).buf = 0) && decide ((s.bd e d false).uown = .sw) && decide ((s.bd e d true).uown = .sw)

/-- The duties of R230 on one command that the state it is issued in shows: `ARG1 <= 1023` and no transfer in flight for
CONFIGURE; `ARG0 + ARG1` within the address space and no old completion record for START. The others (the toggle after UNSTALL,
the order of ARM_SETUP and STALL_EP0, ABORT_EP0 on SETUP_RECEIVED, FLUSH after a violation) are about several commands. -/
def State.commandKeepsDuties (s : State) : Instr → Bool
  | .configure ep cfTx cfRx _ =>
      decide (s.arg1.toNat ≤ 1023) && (!cfTx || s.quiet ep .tx) && (!cfRx || s.quiet ep .rx)
  | .start ep dir _ _ _ =>
      decide (s.arg0 + s.arg1.toNat ≤ 2 ^ s.params.addrBits) && !s.cq.any (fun r => r.ep == ep && r.dir == dir)
  | .stall _ _ => true
  | .unstall _ _ => true
  | .flush _ _ => true
  | .queryStall _ _ => true
  | .setEpfunc _ => true
  | .readErr => true
  | .dispatch => true

/-- The duties of R230 an input shows, the races on engine-owned buffers among them (20_memory.md R75). -/
def State.keepsDuties (s : State) : Input → Bool
  | .regWrite offset width v =>
      match decode v with
      | .ok i => decide (offset ≠ 0) || decide (width ≠ .word) || s.commandKeepsDuties i
      | .error _ => true
  | .bufWrite a _ => !s.underTx a && !s.underRx a
  | .bufRead a => !s.underRx a
  | _ => true

/-! ### Safe runs -/

/-- A step is safe when it neither faults nor refuses. -/
def State.stepsSafely (s : State) : Prop := ∃ t, step s = .next t

end Sys2Proof.Machine
end

