-- ==== Sys2Proof/Certificates/Slice0/Obligations.lean ====
section
/-! DEFINITION. What the provers are asked to prove of the model, rule by rule of spec/. A rule the spec marks as its own
decision is the spec's rule; a clause that rests on a choice of the model names its log entry. -/

open Sys2Proof Sys2Proof.Machine

/-! ### Encoding -/

/-- Decoding the encoding of any well-formed command gives it back, with every field at every value its bits admit
(30_encoding.md R82 to R85, R96, R98, R99). -/
def Obligations.DecodeOfEncode : Prop :=
  ∀ i : Instr, i.wellFormed = true → decode (encode i) = .ok i

/-- A legal word is the encoding of the one command it decodes to, and that command is well-formed: no bit of a legal word is
dropped (30_encoding.md R98, R99). -/
def Obligations.EncodeOfDecode : Prop :=
  ∀ (w : Word) (i : Instr), decode w = .ok i → encode i = w ∧ i.wellFormed = true

/-- R94: the illegal words are exactly those with a reserved opcode, a nonzero bits 23:16, or a reserved CFLAGS or XFLAGS bit of
their opcode set; writing one to `CMD` sets `RESULT` to E_ILLEGAL and `RDATA` to 0 and changes nothing else. -/
def Obligations.IllegalWordsOnlyReport : Prop :=
  ∀ w : Word,
    let op := (w >>> 24).toNat
    let reserved : Word :=
      if op = 1 then 0xF8F0 else if op = 2 then 0xFF00 else if op ≤ 6 then 0xFF70 else if op = 7 then 0xFFF0 else 0xFFFF
    ((∃ r, decode w = .error r) ↔
      (op = 0 ∨ 0x0A ≤ op ∨ w &&& 0x00FF0000 ≠ 0 ∨ w &&& reserved ≠ 0)) ∧
    ∀ (s : State) (rest : List Input) (r : IllegalWord), s.inputs = .regWrite 0x00 .word w :: rest → decode w = .error r →
      step s = .next { s with inputs := rest, result := 6, rdata := 0 }

/-- Words written out from the patterns of R98 decode to the commands they stand for. -/
def Obligations.SampleWordsDecode : Prop :=
  decode 0b00000001000000000000011100000010 = .ok (.configure 2 true true true) ∧
  decode 0b00000010000000000000000011100001 = .ok (.start 1 .tx true true false) ∧
  decode 0b00000010000000000000000000010000 = .ok (.start 0 .rx false false true) ∧
  decode 0b00000011000000000000000010000001 = .ok (.stall 1 .tx) ∧
  decode 0b00000100000000000000000000001111 = .ok (.unstall 15 .rx) ∧
  decode 0b00000101000000000000000010000000 = .ok (.flush 0 .tx) ∧
  decode 0b00000110000000000000000010000001 = .ok (.queryStall 1 .tx) ∧
  decode 0b00000111000000000000000000000010 = .ok (.setEpfunc 2) ∧
  decode 0b00001000000000000000000000000000 = .ok .readErr ∧
  decode 0b00001001000000000000000000000000 = .ok .dispatch

/-! ### Steps -/

/-- A step whose next input writes a word to `CMD` executes the command the word decodes to, on the state without that input
(30_encoding.md R80, R99; the list of inputs is the model's choice, log 2). -/
def Obligations.StepRunsDecodedInstruction : Prop :=
  ∀ (s : State) (w : Word) (i : Instr) (rest : List Input),
    s.inputs = .regWrite 0x00 .word w :: rest → decode w = .ok i → step s = exec i { s with inputs := rest }

/-- After `withFetchWord` the very next step executes the word placed, on the state it was placed in (log 3). -/
def Obligations.FetchWordRunsNext : Prop :=
  ∀ (s : State) (nbits w : Nat) (i : Instr), decode (BitVec.ofNat 32 w) = .ok i → step (s.withFetchWord nbits w) = exec i s

/-! ### Reset -/

/-- R240: the power-on value of every register, pipe, descriptor and queue, for any number of endpoints and any parameters; that no
transfer is held is the model's (log 21). -/
def Obligations.PowerOnValues : Prop :=
  ∀ (n : Nat) (p : Params),
    let s := State.powerOn n p
    s.numEp = n ∧ s.arg0 = 0 ∧ s.arg1 = 0 ∧ s.result = 0 ∧ s.rdata = 0 ∧ s.errstat = 0 ∧ s.statusRead = 0 ∧
    s.irq = false ∧ s.errpend = 0 ∧ s.cq = [] ∧ s.evout = [] ∧
    ∀ e, e < n → s.epctl e = (if e = 0 then 0x00 else 0x08) ∧ s.epfunc e = 0xFF ∧
      ∀ d, s.engPp e d = false ∧ s.held e d = false ∧
        s.pipe e d = ⟨0, 0, 0, 0, 0, false, false, false, false⟩ ∧
        ∀ i, s.bd e d i = ⟨.sw, false, false, 0, 0, .none⟩

/-- R240, its derived clause: at power-on no engine step is enabled, so no host transaction and no early read changes any
state. -/
def Obligations.PowerOnEnablesNoEngineStep : Prop :=
  ∀ (n : Nat) (p : Params) (x : Input), x.isEngine = true → runInput x (State.powerOn n p) = .next (State.powerOn n p)

/-- A DISPATCH with RESET pending leaves the tables R182 derives from R180, whatever else was pending: every descriptor and
pipe but those of endpoint 0 at power-on values, endpoint 0 configured both ways and armed for one setup packet, `CQ` empty; with
no completion record and no ERROR pending, `ERRSTAT` and `ERRPEND` are as before (R241). The parameters are in their ranges. That no
transfer stays held is the model's (log 21). -/
def Obligations.DispatchBusResetLeavesPowerUpTables : Prop :=
  ∀ s : State, s.params.wf = true → 1 ≤ s.numEp → s.pending .reset = true →
    ∃ t, exec .dispatch s = .next t ∧ t.numEp = s.numEp ∧ t.cq = [] ∧ t.pending .reset = false ∧
      t.params = s.params ∧ t.arg0 = s.arg0 ∧ t.arg1 = s.arg1 ∧
      (∀ e, e < s.numEp → t.epctl e = (if e = 0 then 0x16 else 0x08) ∧ t.epfunc e = 0xFF ∧ ∀ d, t.engPp e d = false ∧ t.held e d = false) ∧
      t.pipe 0 .rx = ⟨s.params.setupBufAddr, s.params.ep0MaxPacket, 8, 0, 0, true, true, false, false⟩ ∧
      t.pipe 0 .tx = ⟨0, s.params.ep0MaxPacket, 0, 0, 0, false, false, false, false⟩ ∧
      (∀ e d, 0 < e → e < s.numEp → t.pipe e d = ⟨0, 0, 0, 0, 0, false, false, false, false⟩) ∧
      t.bd 0 .rx false = ⟨.hw, false, false, 8, s.params.setupBufAddr, .none⟩ ∧
      (∀ e d i, e < s.numEp → (e ≠ 0 ∨ d ≠ .rx ∨ i ≠ false) → t.bd e d i = ⟨.sw, false, false, 0, 0, .none⟩) ∧
      (s.cq = [] → s.pending .error = false → t.errstat = s.errstat ∧ t.errpend = s.errpend)

/-! ### Commands on pipes -/

/-- R90, R91: every command that names an endpoint fails with E_RANGE when the block has no such endpoint, and changes nothing
but `RESULT` and `RDATA`. -/
def Obligations.AbsentEndpointFailsRange : Prop :=
  ∀ (i : Instr) (ep : Nat) (s : State), i.endpoint? = some ep → s.numEp ≤ ep →
    exec i s = .next { s with result := 1, rdata := 0 }

/-- R110, R112: CONFIGURE returns each selected pipe to idle with `max = ARG1[9:0]`, toggle 0 and its ping-pong index kept, and
leaves every other pipe, every descriptor and every engine pointer as it was. A hold goes with the transfer
(log 21). -/
def Obligations.ConfigureWritesSelectedPipes : Prop :=
  ∀ (s : State) (ep : Nat) (cfTx cfRx cfHshk : Bool), ep < s.numEp →
    ∃ t, exec (.configure ep cfTx cfRx cfHshk) s = .next t ∧ t.result = 0 ∧ t.rdata = 0 ∧
      (∀ d, (match d with | .rx => cfRx | .tx => cfTx) = true →
        t.pipe ep d = ⟨0, s.arg1.setWidth 10, 0, 0, 0, (s.pipe ep d).pp, false, false, false⟩ ∧ t.held ep d = false) ∧
      (∀ d, (match d with | .rx => cfRx | .tx => cfTx) = false → t.pipe ep d = s.pipe ep d ∧ t.held ep d = s.held ep d) ∧
      (∀ e d, e ≠ ep → t.channel e d = s.channel e d) ∧
      (∀ e d, t.engPp e d = s.engPp e d ∧ ∀ i, t.bd e d i = s.bd e d i ∧ (t.channel e d).fetched i = (s.channel e d).fetched i) ∧
      (∀ e, e ≠ ep → t.epctl e = s.epctl e) ∧ (∀ e, t.epfunc e = s.epfunc e) ∧
      t.numEp = s.numEp ∧ keepsAllButTables s t ∧ keepsMemory s t

/-- R111: the bits CONFIGURE writes in `EPCTL[ep]`: HSHK always 1 and CONDIS always 0 on endpoint 0, CONDIS always 1 on any other,
an enable bit only for a selected direction; the reserved bits are not written. -/
def Obligations.ConfigureWritesEndpointControl : Prop :=
  ∀ (s : State) (ep : Nat) (cfTx cfRx cfHshk : Bool), ep < s.numEp →
    ∃ t, exec (.configure ep cfTx cfRx cfHshk) s = .next t ∧
      (t.epctl ep).getLsbD 4 = (decide (ep = 0) || cfHshk) ∧
      (t.epctl ep).getLsbD 3 = !decide (ep = 0) ∧
      (t.epctl ep).getLsbD 1 = (if cfTx then decide (s.arg1.setWidth 10 ≠ 0#10) else (s.epctl ep).getLsbD 1) ∧
      (t.epctl ep).getLsbD 2 = (if cfRx then decide (s.arg1.setWidth 10 ≠ 0#10) else (s.epctl ep).getLsbD 2) ∧
      ∀ k, k = 0 ∨ 5 ≤ k → (t.epctl ep).getLsbD k = (s.epctl ep).getLsbD k

/-- R115, R116: STALL arms exactly the descriptors the block owns and returns their mask; it writes no engine-owned descriptor, no
pipe and nothing else. -/
def Obligations.StallArmsOwnedDescriptors : Prop :=
  ∀ (s : State) (ep : Nat) (dir : Dir), ep < s.numEp →
    ∃ t, exec (.stall ep dir) s = .next t ∧ t.result = 0 ∧
      (∀ i, (s.bd ep dir i).uown = .sw → t.bd ep dir i = { s.bd ep dir i with uown := .hw, stall := true }) ∧
      (∀ i, (s.bd ep dir i).uown = .hw → t.bd ep dir i = s.bd ep dir i) ∧
      t.rdata.toNat = (if (s.bd ep dir false).uown = .sw then 1 else 0) + (if (s.bd ep dir true).uown = .sw then 2 else 0) ∧
      t.channel ep dir = { s.channel ep dir with bd0 := t.bd ep dir false, bd1 := t.bd ep dir true } ∧
      keepsOtherPipes s t ep dir ∧ keepsAllButTables s t ∧ keepsMemory s t

/-- R118: UNSTALL takes both descriptors back, whoever owns them, with stall and toggle 0 and everything else of them kept; it
writes no pipe. -/
def Obligations.UnstallForcesBothDescriptors : Prop :=
  ∀ (s : State) (ep : Nat) (dir : Dir), ep < s.numEp →
    ∃ t, exec (.unstall ep dir) s = .next t ∧ t.result = 0 ∧ t.rdata = 0 ∧
      (∀ i, t.bd ep dir i = { s.bd ep dir i with uown := .sw, stall := false, tog := false }) ∧
      t.channel ep dir = { s.channel ep dir with bd0 := t.bd ep dir false, bd1 := t.bd ep dir true } ∧
      keepsOtherPipes s t ep dir ∧ keepsAllButTables s t ∧ keepsMemory s t

/-- R121: FLUSH takes both descriptors back with byte count 0 and everything else of them kept, idles the pipe, keeps its `max` and
toggle, and sets its ping-pong index to the engine's pointer, which it does not write. It ends a hold (R254, log 21). -/
def Obligations.FlushReclaimsAndRealigns : Prop :=
  ∀ (s : State) (ep : Nat) (dir : Dir), ep < s.numEp →
    ∃ t, exec (.flush ep dir) s = .next t ∧ t.result = 0 ∧ t.rdata = 0 ∧
      (∀ i, t.bd ep dir i = { s.bd ep dir i with uown := .sw, bc := 0 }) ∧
      t.pipe ep dir = ⟨0, (s.pipe ep dir).max, 0, 0, 0, s.engPp ep dir, (s.pipe ep dir).tog, false, false⟩ ∧
      t.engPp ep dir = s.engPp ep dir ∧ t.held ep dir = false ∧ (∀ i, (t.channel ep dir).fetched i = (s.channel ep dir).fetched i) ∧
      keepsOtherPipes s t ep dir ∧ keepsAllButTables s t ∧ keepsMemory s t

/-- R122 (a fact the spec derives): a second FLUSH of the same pipe right after the first changes no state. -/
def Obligations.FlushIsIdempotent : Prop :=
  ∀ (s t : State) (ep : Nat) (dir : Dir), exec (.flush ep dir) s = .next t → exec (.flush ep dir) t = .next t

/-- R125: QUERY_STALL returns the two stall bits, whoever owns the descriptors, and writes only `RESULT` and `RDATA`. -/
def Obligations.QueryStallReadsBothBits : Prop :=
  ∀ (s : State) (ep : Nat) (dir : Dir), ep < s.numEp →
    ∃ t, exec (.queryStall ep dir) s = .next t ∧ t = { s with result := 0, rdata := t.rdata } ∧
      t.rdata.toNat = (if (s.bd ep dir false).stall then 1 else 0) + (if (s.bd ep dir true).stall then 2 else 0)

/-! ### START -/

/-- R140, R141, R91: the failures of START in their order, each with the whole state after it; only E_OWNERSHIP writes more than the
result registers, and it writes `ERRSTAT.OWN` and `STATUS.ERROR`. -/
def Obligations.StartFailsInOrder : Prop :=
  ∀ (s : State) (ep : Nat) (dir : Dir) (force dts zlp : Bool), ep < s.numEp →
    let q := s.pipe ep dir
    let two := q.max.toNat < s.arg1.toNat ∨ (s.arg1.toNat = q.max.toNat ∧ zlp = true)
    (q.max = 0 → exec (.start ep dir force dts zlp) s = .next { s with result := 2, rdata := 0 }) ∧
    (q.max ≠ 0 → q.buf ≠ 0 → exec (.start ep dir force dts zlp) s = .next { s with result := 3, rdata := 0 }) ∧
    (q.max ≠ 0 → q.buf = 0 → s.arg0 = 0 → exec (.start ep dir force dts zlp) s = .next { s with result := 4, rdata := 0 }) ∧
    (q.max ≠ 0 → q.buf = 0 → s.arg0 ≠ 0 →
      ((s.bd ep dir q.pp).uown = .hw ∨ (two ∧ (s.bd ep dir (!q.pp)).uown = .hw)) →
      exec (.start ep dir force dts zlp) s =
        .next { s with result := 5, rdata := 0, errstat := s.errstat ||| 0x80, status := s.status ||| 0x20 })

/-- R142, R143, R145, R146: a START that has one packet hands it off in the pipe's current descriptor, carrying the (forced)
toggle, and leaves the other descriptor alone. -/
def Obligations.StartHandsOffOnePacket : Prop :=
  ∀ (s : State) (ep : Nat) (dir : Dir) (force dts zlp : Bool), ep < s.numEp →
    let q := s.pipe ep dir
    let t0 := if force then dts else q.tog
    q.max ≠ 0 → q.buf = 0 → s.arg0 ≠ 0 →
    (s.arg1.toNat < q.max.toNat ∨ (s.arg1.toNat = q.max.toNat ∧ zlp = false)) → (s.bd ep dir q.pp).uown = .sw →
    ∃ t, exec (.start ep dir force dts zlp) s = .next t ∧ t.result = 0 ∧ t.rdata = 0 ∧
      t.bd ep dir q.pp = ⟨.hw, false, t0, s.arg1.setWidth 10, s.arg0 % 2 ^ s.params.addrBits, .none⟩ ∧
      t.bd ep dir (!q.pp) = s.bd ep dir (!q.pp) ∧
      t.pipe ep dir = ⟨s.arg0, q.max, s.arg1, 0, 0, !q.pp, !t0, decide (s.arg1 = 0), false⟩ ∧
      t.engPp ep dir = s.engPp ep dir ∧ t.held ep dir = s.held ep dir ∧
      keepsOtherPipes s t ep dir ∧ keepsAllButTables s t ∧ keepsMemory s t

/-- R142, R143, R145, R146: a START that has two packets or more hands off two, the second with the other descriptor, the other
toggle and the address `buf + max`; the pipe then holds what is left. -/
def Obligations.StartHandsOffTwoPackets : Prop :=
  ∀ (s : State) (ep : Nat) (dir : Dir) (force dts zlp : Bool), ep < s.numEp →
    let q := s.pipe ep dir
    let t0 := if force then dts else q.tog
    let left := s.arg1.toNat - q.max.toNat
    q.max ≠ 0 → q.buf = 0 → s.arg0 ≠ 0 →
    (q.max.toNat < s.arg1.toNat ∨ (s.arg1.toNat = q.max.toNat ∧ zlp = true)) →
    (∀ i, (s.bd ep dir i).uown = .sw) →
    ∃ t, exec (.start ep dir force dts zlp) s = .next t ∧ t.result = 0 ∧ t.rdata = 0 ∧
      t.bd ep dir q.pp = ⟨.hw, false, t0, q.max, s.arg0 % 2 ^ s.params.addrBits, .none⟩ ∧
      t.bd ep dir (!q.pp) =
        ⟨.hw, false, !t0, BitVec.ofNat 10 (min left q.max.toNat), (s.arg0 + q.max.toNat) % 2 ^ s.params.addrBits, .none⟩ ∧
      t.pipe ep dir =
        ⟨s.arg0, q.max, s.arg1, BitVec.ofNat 16 (left - q.max.toNat), 0, q.pp, t0,
          zlp && decide (s.arg1.toNat % q.max.toNat = 0), zlp && decide (s.arg1.toNat = 2 * q.max.toNat)⟩ ∧
      t.engPp ep dir = s.engPp ep dir ∧ t.held ep dir = s.held ep dir ∧
      keepsOtherPipes s t ep dir ∧ keepsAllButTables s t ∧ keepsMemory s t

/-! ### SET_EPFUNC and READ_ERR -/

/-- R190: SET_EPFUNC writes `ARG1[7:0]` to the endpoint's entry when it is 0 to 31 or 0xFF, and fails with E_RANGE and no other
write when it is 32 to 254. -/
def Obligations.SetEpfuncWritesLegalIndexes : Prop :=
  ∀ (s : State) (ep : Nat), ep < s.numEp →
    let fd := s.arg1.setWidth 8
    ((fd.toNat ≤ 31 ∨ fd = 0xFF) →
      ∃ t, exec (.setEpfunc ep) s = .next t ∧ t.result = 0 ∧ t.rdata = 0 ∧ t.epfunc ep = fd ∧
        (∀ e, e ≠ ep → t.epfunc e = s.epfunc e) ∧ (∀ e, t.epctl e = s.epctl e) ∧
        (∀ e d, t.channel e d = s.channel e d) ∧ t.numEp = s.numEp ∧ keepsAllButTables s t ∧ keepsMemory s t) ∧
    (32 ≤ fd.toNat → fd.toNat ≤ 254 → exec (.setEpfunc ep) s = .next { s with result := 1, rdata := 0 })

/-- R191: READ_ERR returns `ERRSTAT` and clears it, and writes nothing else (not `ERRPEND`, not `STATUS.ERROR`); a second one
returns 0. -/
def Obligations.ReadErrReturnsAndClears : Prop :=
  decode 0x08000000 = .ok .readErr ∧
  ∀ s : State, ∃ t, exec .readErr s = .next t ∧
    t = { s with errstat := 0, result := 0, rdata := s.errstat.setWidth 32 } ∧
    exec .readErr t = .next { t with rdata := 0 }

/-! ### DISPATCH -/

/-- R170: a DISPATCH with nothing pending returns OK with `RDATA` 0 and changes nothing. -/
def Obligations.DispatchWithNothingPending : Prop :=
  ∀ s : State, s.noClassPending → s.cq = [] → exec .dispatch s = .next { s with result := 0, rdata := 0 }

/-- R171, R172: every DISPATCH completes; the events it appends are counted in `RDATA`, are at most nine, stand in the order of the
services, and hold one of each forwarded class that was pending and of no other. -/
def Obligations.DispatchAppendsEventsInOrder : Prop :=
  ∀ s : State, ∃ t evs, exec .dispatch s = .next t ∧ t.result = 0 ∧ t.evout = s.evout ++ evs ∧
    t.rdata = BitVec.ofNat 32 evs.length ∧ evs.length ≤ 9 ∧
    (evs.map (fun v => v.kind.turn)).Pairwise (· < ·) ∧
    ((∃ v ∈ evs, v.kind = .tick) ↔ s.pending .tick = true) ∧
    ((∃ v ∈ evs, v.kind = .detach) ↔ s.pending .detach = true) ∧
    ((∃ v ∈ evs, v.kind = .sof) ↔ s.pending .sof = true) ∧
    ((∃ v ∈ evs, v.kind = .busReset) ↔ s.pending .reset = true) ∧
    ((∃ v ∈ evs, v.kind = .suspend) ↔ s.pending .idle = true) ∧
    ((∃ v ∈ evs, v.kind = .resume) ↔ s.pending .resume = true) ∧
    ((∃ v ∈ evs, v.kind = .stall) ↔ s.pending .stall = true) ∧
    (s.pending .error = true → ∃ v ∈ evs, v.kind = .busError)

/-- R170, R172, R174, R180: after any DISPATCH no stored class is pending, exactly one completion record is gone (all of them if RESET
was pending), and the argument registers and buffer memory are as before. -/
def Obligations.DispatchServicesEveryClass : Prop :=
  ∀ s : State, ∃ t, exec .dispatch s = .next t ∧ t.noClassPending ∧
    t.cq = (if s.pending .reset then [] else s.cq.tail) ∧
    t = { s with eps := t.eps, errstat := t.errstat, errpend := t.errpend, status := t.status, cq := t.cq,
                 evout := t.evout, result := t.result, rdata := t.rdata } ∧
    t.numEp = s.numEp ∧ keepsMemory s t

/-- R178: a completion that finds its pipe idle raises no event and changes no state beyond removing its record. -/
def Obligations.StrayCompletionOnlyRemovesRecord : Prop :=
  ∀ (s : State) (r : Completion) (rest : List Completion), s.noClassPending → s.cq = r :: rest →
    (s.bd r.ep r.dir r.pp).uown = .sw → (r.ep ≠ 0 ∨ (s.bd r.ep r.dir r.pp).pid ≠ .setup) →
    (s.pipe r.ep r.dir).buf = 0 →
    exec .dispatch s = .next { s with cq := rest, result := 0, rdata := 0 }

/-- R150, R151, R177: a completed packet of a transfer that is not held (R254) that is short, or that fills the size of a transfer wanting no zero-length packet, ends the
transfer: the pipe is idle with `max`, `pp` and toggle kept, and one event carries the bytes moved. -/
def Obligations.DoneCompletionIdlesPipeAndReports : Prop :=
  ∀ (s : State) (r : Completion) (rest : List Completion), s.noClassPending → s.cq = r :: rest → r.ep < s.numEp →
    let q := s.pipe r.ep r.dir
    let b := s.bd r.ep r.dir r.pp
    let moved := q.cnt + b.bc.setWidth 16
    b.uown = .sw → (r.ep ≠ 0 ∨ b.pid ≠ .setup) → q.buf ≠ 0 → s.held r.ep r.dir = false →
    (b.bc.toNat < q.max.toNat ∨ (moved = q.size ∧ q.zeroPkt = false)) →
    ∃ t, exec .dispatch s = .next t ∧
      t = { s with eps := t.eps, cq := rest, result := 0, rdata := 1,
                   evout := s.evout ++ [if r.ep = 0 then ⟨.ep0Complete, 0, r.dir, r.pp, 0, moved, 0⟩
                                        else ⟨.xferComplete, r.ep, r.dir, r.pp, s.epfunc r.ep, moved, 0⟩] } ∧
      t.channel r.ep r.dir = { s.channel r.ep r.dir with pipe := ⟨0, q.max, 0, 0, 0, q.pp, q.tog, false, false⟩ } ∧
      keepsOtherPipes s t r.ep r.dir

/-- R150, R152, R145, R146: a completed packet that does not end the transfer, which is not held (R254), is counted and raises no event; if data is due, the next
data packet is handed off, otherwise the due zero-length packet, otherwise nothing. -/
def Obligations.ContinuingCompletionQueuesNextPacket : Prop :=
  ∀ (s : State) (r : Completion) (rest : List Completion), s.noClassPending → s.cq = r :: rest → r.ep < s.numEp →
    let q := s.pipe r.ep r.dir
    let b := s.bd r.ep r.dir r.pp
    let moved := q.cnt + b.bc.setWidth 16
    let n := min q.rem.toNat q.max.toNat
    b.uown = .sw → (r.ep ≠ 0 ∨ b.pid ≠ .setup) → q.buf ≠ 0 → s.held r.ep r.dir = false →
    ¬ (b.bc.toNat < q.max.toNat ∨ (moved = q.size ∧ q.zeroPkt = false)) → q.rem.toNat ≤ q.size.toNat →
    ((q.rem ≠ 0 ∨ q.sendZeroPkt = true) → (s.bd r.ep r.dir q.pp).uown = .sw) →
    ∃ t, exec .dispatch s = .next t ∧ t = { s with eps := t.eps, cq := rest, result := 0, rdata := 0 } ∧
      keepsOtherPipes s t r.ep r.dir ∧ t.engPp r.ep r.dir = s.engPp r.ep r.dir ∧ t.held r.ep r.dir = false ∧
      (q.rem ≠ 0 →
        t.bd r.ep r.dir q.pp =
          ⟨.hw, false, q.tog, BitVec.ofNat 10 n, (q.buf + (q.size.toNat - q.rem.toNat)) % 2 ^ s.params.addrBits, .none⟩ ∧
        t.bd r.ep r.dir (!q.pp) = s.bd r.ep r.dir (!q.pp) ∧
        t.pipe r.ep r.dir =
          ⟨q.buf, q.max, q.size, BitVec.ofNat 16 (q.rem.toNat - n), moved, !q.pp, !q.tog, q.zeroPkt,
            q.sendZeroPkt || (q.zeroPkt && decide (q.rem.toNat = n))⟩) ∧
      (q.rem = 0 → q.sendZeroPkt = true →
        t.bd r.ep r.dir q.pp = ⟨.hw, false, q.tog, 0, (q.buf + q.size.toNat) % 2 ^ s.params.addrBits, .none⟩ ∧
        t.bd r.ep r.dir (!q.pp) = s.bd r.ep r.dir (!q.pp) ∧
        t.pipe r.ep r.dir = ⟨q.buf, q.max, q.size, 0, moved, !q.pp, !q.tog, q.zeroPkt, false⟩) ∧
      (q.rem = 0 → q.sendZeroPkt = false →
        t.channel r.ep r.dir = { s.channel r.ep r.dir with pipe := { q with cnt := moved } })

/-- R153, R179, R183: a continuation whose descriptor the engine owns keeps the count it made and hands nothing off; the same
DISPATCH reports the ownership violation as BUS_ERROR, with the transport errors pending. R254: the transfer is then held. A later
packet of it that completes is counted, ends nothing, hands nothing off and raises no event, and through every step the pipe keeps
its hold and everything but its count, until FLUSH, CONFIGURE, a setup packet on endpoint 0 or a bus reset idles it. What a
completion does to a held transfer, and that these four end the hold, is the model's reading (log 21, DEDUCED). -/
def Obligations.HeldContinuationReportsBusError : Prop :=
  (∀ (s : State) (r : Completion) (rest : List Completion), s.cq = r :: rest → r.ep < s.numEp →
    let q := s.pipe r.ep r.dir
    let b := s.bd r.ep r.dir r.pp
    let moved := q.cnt + b.bc.setWidth 16
    let err := s.errstat ||| 0x80 ||| s.errpend.setWidth 8
    b.uown = .sw → (r.ep ≠ 0 ∨ b.pid ≠ .setup) → q.buf ≠ 0 →
    ((∀ k, k ≠ .error → s.pending k = false) → s.held r.ep r.dir = false →
      ¬ (b.bc.toNat < q.max.toNat ∨ (moved = q.size ∧ q.zeroPkt = false)) →
      (q.rem ≠ 0 ∨ q.sendZeroPkt = true) → (s.bd r.ep r.dir q.pp).uown = .hw →
      ∃ t, exec .dispatch s = .next t ∧
        t = { s with eps := t.eps, cq := rest, status := s.status &&& 0xFFDF, errstat := err, errpend := 0, result := 0, rdata := 1,
                     evout := s.evout ++ [⟨.busError, 0, .rx, false, 0, err.setWidth 16, 0⟩] } ∧
        t.channel r.ep r.dir = { s.channel r.ep r.dir with pipe := { q with cnt := moved }, held := true } ∧
        keepsOtherPipes s t r.ep r.dir) ∧
    (s.noClassPending → s.held r.ep r.dir = true →
      ∃ t, exec .dispatch s = .next t ∧ t = { s with eps := t.eps, cq := rest, result := 0, rdata := 0 } ∧
        t.channel r.ep r.dir = { s.channel r.ep r.dir with pipe := { q with cnt := moved } } ∧
        keepsOtherPipes s t r.ep r.dir)) ∧
  ∀ (s t : State) (e : Nat) (d : Dir), step s = .next t → s.held e d = true → (s.pipe e d).buf ≠ 0 →
    (t.held e d = true ∧ t.pipe e d = { s.pipe e d with cnt := (t.pipe e d).cnt } ∧
      ∀ i, (s.bd e d i).uown = .sw → (t.bd e d i).uown = .hw → (t.bd e d i).stall = true) ∨
    (t.held e d = false ∧ ∃ v rest, s.inputs = .regWrite 0x00 .word v :: rest ∧
      (decode v = .ok (.flush e d) ∨ (∃ cfTx cfRx cfHshk, decode v = .ok (.configure e cfTx cfRx cfHshk)) ∨
        (decode v = .ok .dispatch ∧ (s.pending .reset = true ∨
          (e = 0 ∧ ∃ i rest', s.cq = ⟨0, d, i⟩ :: rest' ∧ (s.bd 0 d i).pid = .setup)))))

/-- R175, R204, R183: a completion record whose descriptor the engine owns changes no descriptor, pipe or other table; the same
DISPATCH reports the ownership violation as BUS_ERROR. -/
def Obligations.StaleRecordReportsBusError : Prop :=
  ∀ (s : State) (r : Completion) (rest : List Completion), (∀ k, k ≠ .error → s.pending k = false) → s.cq = r :: rest →
    (s.bd r.ep r.dir r.pp).uown = .hw →
    let err := s.errstat ||| 0x80 ||| s.errpend.setWidth 8
    exec .dispatch s = .next
      { s with cq := rest, status := s.status &&& 0xFFDF, errstat := err, errpend := 0, result := 0, rdata := 1,
               evout := s.evout ++ [⟨.busError, 0, .rx, false, 0, err.setWidth 16, 0⟩] }

/-- R176: a setup packet returned on endpoint 0 idles its pipe with `max`, `pp` and toggle kept, adds to no count, and is reported
with its descriptor's index, byte count and address; no descriptor and no other pipe changes. A hold goes with
the transfer (log 21). -/
def Obligations.SetupPacketIdlesPipeAndReports : Prop :=
  ∀ (s : State) (d : Dir) (i : Bool) (rest : List Completion), s.noClassPending → s.cq = ⟨0, d, i⟩ :: rest → 0 < s.numEp →
    let q := s.pipe 0 d
    let b := s.bd 0 d i
    b.uown = .sw → b.pid = .setup →
    ∃ t, exec .dispatch s = .next t ∧
      t = { s with eps := t.eps, cq := rest, result := 0, rdata := 1,
                   evout := s.evout ++ [⟨.setupReceived, 0, d, i, 0, b.bc.setWidth 16, b.addr⟩] } ∧
      t.channel 0 d = { s.channel 0 d with pipe := ⟨0, q.max, 0, 0, 0, q.pp, q.tog, false, false⟩, held := false } ∧
      keepsOtherPipes s t 0 d

/-- R183: with ERROR pending, whatever else is, the error service ORs `ERRPEND` into `ERRSTAT[4:0]` and keeps `ERRSTAT.OWN`, zeroes
`ERRPEND`, clears `STATUS.ERROR`, reports the bitmap and changes nothing else. A DISPATCH serves it after the one completion and the
bus reset, which keeps `ERRSTAT` (R172, R180): it leaves ERROR not pending, `ERRPEND` 0 and `ERRSTAT` as that OR, with OWN added
exactly if its completion record is an ownership violation (R204): the record's descriptor is the engine's (R175), or its packet goes
on to one that is (R153) and the transfer is not held already. Its BUS_ERROR event carries that value. That a completion of a held
transfer adds no OWN is the model's reading of R153 and R254 (log 21, DEDUCED): the procedure of R150 alone holds nothing. With no
other class pending and no record the DISPATCH does the error service and nothing else. -/
def Obligations.ErrorServiceAccumulates : Prop :=
  ∀ s : State, s.pending .error = true →
    let err := s.errstat ||| s.errpend.setWidth 8
    let violation := ∃ r rest, s.cq = r :: rest ∧
      let q := s.pipe r.ep r.dir
      let b := s.bd r.ep r.dir r.pp
      (b.uown = .hw ∨
        ((r.ep ≠ 0 ∨ b.pid ≠ .setup) ∧ q.buf ≠ 0 ∧ s.held r.ep r.dir = false ∧
          ¬ (b.bc.toNat < q.max.toNat ∨ (q.cnt + b.bc.setWidth 16 = q.size ∧ q.zeroPkt = false)) ∧
          (q.rem ≠ 0 ∨ q.sendZeroPkt = true) ∧ (s.bd r.ep r.dir q.pp).uown = .hw))
    errorService s =
      ({ s with status := s.status &&& 0xFFDF, errstat := err, errpend := 0 }, [⟨.busError, 0, .rx, false, 0, err.setWidth 16, 0⟩]) ∧
    (∃ t evs, exec .dispatch s = .next t ∧ t.evout = s.evout ++ evs ∧ t.pending .error = false ∧ t.errpend = 0 ∧
      (violation → t.errstat = err ||| 0x80) ∧ (¬ violation → t.errstat = err) ∧
      ⟨.busError, 0, .rx, false, 0, t.errstat.setWidth 16, 0⟩ ∈ evs) ∧
    ((∀ k, k ≠ .error → s.pending k = false) → s.cq = [] →
      exec .dispatch s = .next
        { s with status := s.status &&& 0xFFDF, errstat := err, errpend := 0, result := 0, rdata := 1,
                 evout := s.evout ++ [⟨.busError, 0, .rx, false, 0, err.setWidth 16, 0⟩] })

/-- R173, R184: each forwarded class clears its own bit and raises one event of its kind with no fields, and changes nothing
else. -/
def Obligations.ForwardedClassRaisesItsEvent : Prop :=
  ∀ (s : State) (c : StatusClass) (k : EventKind) (n : Nat), s.cq = [] → (∀ c', s.pending c' = decide (c' = c)) →
    (c, k, n) ∈ [(StatusClass.tick, EventKind.tick, 0), (.detach, .detach, 1), (.sof, .sof, 2), (.idle, .suspend, 6),
      (.resume, .resume, 7), (.stall, .stall, 8)] →
    exec .dispatch s = .next
      { s with status := s.status &&& ~~~(1#16 <<< n), result := 0, rdata := 1,
               evout := s.evout ++ [⟨k, 0, .rx, false, 0, 0, 0⟩] }

/-! ### The engine and the host -/

/-- R220, IN: the engine completes an acknowledged packet: the descriptor returns with `pid` IN and its other fields kept, the
engine's pointer inverts, one record joins `CQ`, and nothing else of the block changes. The host has `bc` bytes with the
descriptor's toggle; a byte the engine had not read before and that lies under no engine-owned receive descriptor is the byte of
buffer memory (`sent` and the early reads are the model's, logs 7 and 11). That the engine completes on a buffer that ends
exactly with the address space is the model's reading of R68 (log 8, DEDUCED, unsafe there against the note on vector T11). That a
receive buffer that wraps leaves the low addresses defined is the model's choice (log 22). -/
def Obligations.InCompletionReturnsDescriptor : Prop :=
  ∀ (s : State) (e : Nat) (rest : List Input), s.inputs = .inToken e true :: rest → e < s.numEp →
    let i := s.engPp e .tx
    let b := s.bd e .tx i
    (s.epctl e).getLsbD 1 = true → (s.epctl e).getLsbD 4 = true → b.uown = .hw → b.stall = false →
    s.cq.length < s.params.statFifoDepth → b.addr + b.bc.toNat ≤ 2 ^ s.params.addrBits →
    ∃ t data, step s = .next t ∧
      t = { s with eps := t.eps, cq := s.cq ++ [⟨e, .tx, i⟩], inputs := rest, freeCtr := t.freeCtr,
                   sent := s.sent ++ [⟨e, b.tog, data⟩] } ∧
      t.bd e .tx i = { b with uown := .sw, pid := .inn } ∧ t.bd e .tx (!i) = s.bd e .tx (!i) ∧
      t.pipe e .tx = s.pipe e .tx ∧ t.engPp e .tx = !i ∧ t.held e .tx = s.held e .tx ∧ keepsOtherPipes s t e .tx ∧ keepsMemory s t ∧
      data.length = b.bc.toNat ∧
      ∀ k, k < b.bc.toNat → ((s.channel e .tx).fetched i).lookup k = none → s.underRx (b.addr + k) = false →
        data[k]? = some (Memory.byteAt s.mem (b.addr + k))

/-- R220, OUT: the engine stores the packet at the descriptor's address and returns the descriptor with the count and `pid` OUT; the
engine's pointer inverts, one record joins `CQ`, every byte outside the packet is as before, and nothing else changes.
The model's readings in this: the buffer's bytes beyond a short packet keep what they held (log 12, DEDUCED, unsafe), and the engine
completes on a buffer that ends exactly with the address space (R68, log 8, DEDUCED, unsafe there against the note on vector T11). -/
def Obligations.OutCompletionStoresPacket : Prop :=
  ∀ (s : State) (e : Nat) (tog : Bool) (data : List Byte) (rest : List Input), s.inputs = .outPacket e tog data :: rest →
    e < s.numEp → Memory.wf s.mem →
    let i := s.engPp e .rx
    let b := s.bd e .rx i
    (s.epctl e).getLsbD 2 = true → (s.epctl e).getLsbD 4 = true → b.uown = .hw → b.stall = false →
    s.cq.length < s.params.statFifoDepth → tog = b.tog → data.length ≤ b.bc.toNat →
    b.addr + b.bc.toNat ≤ 2 ^ s.params.addrBits →
    ∃ t, step s = .next t ∧
      t = { s with eps := t.eps, cq := s.cq ++ [⟨e, .rx, i⟩], inputs := rest, mem := t.mem } ∧
      t.bd e .rx i = { b with uown := .sw, pid := .out, bc := BitVec.ofNat 10 data.length } ∧
      t.bd e .rx (!i) = s.bd e .rx (!i) ∧ t.pipe e .rx = s.pipe e .rx ∧ t.engPp e .rx = !i ∧ t.held e .rx = s.held e .rx ∧ keepsOtherPipes s t e .rx ∧
      (∀ k v, data[k]? = some v → Memory.byteAt t.mem (b.addr + k) = v) ∧
      ∀ a, (a < b.addr ∨ b.addr + data.length ≤ a) → Memory.byteAt t.mem a = Memory.byteAt s.mem a

/-- R221, R89: the engine accepts a SETUP into the endpoint-0 receive descriptor it serves, whatever its stall bit and toggle: the
eight bytes land little-endian, the descriptor returns with count 8, `pid` SETUP and stall 0, the pointer inverts and one record
joins `CQ`; every other byte is as before, and nothing else changes. The model's readings in this: the buffer's
bytes beyond the eight keep what they held (log 12, DEDUCED, unsafe), and the engine accepts into a buffer that ends exactly with
the address space (R68, log 8, DEDUCED, unsafe there against the note on vector T11). -/
def Obligations.SetupIsStoredAndReturned : Prop :=
  ∀ (s : State) (q : SetupPacket) (rest : List Input), s.inputs = .setup q :: rest → 0 < s.numEp → Memory.wf s.mem →
    let i := s.engPp 0 .rx
    let b := s.bd 0 .rx i
    b.uown = .hw → 8 ≤ b.bc.toNat → (s.epctl 0).getLsbD 2 = true → (s.epctl 0).getLsbD 3 = false →
    (s.epctl 0).getLsbD 4 = true → s.cq.length < s.params.statFifoDepth → b.addr + b.bc.toNat ≤ 2 ^ s.params.addrBits →
    ∃ t, step s = .next t ∧
      t = { s with eps := t.eps, cq := s.cq ++ [⟨0, .rx, i⟩], inputs := rest, mem := t.mem } ∧
      t.bd 0 .rx i = { b with uown := .sw, stall := false, bc := 8, pid := .setup } ∧
      t.bd 0 .rx (!i) = s.bd 0 .rx (!i) ∧ t.pipe 0 .rx = s.pipe 0 .rx ∧ t.engPp 0 .rx = !i ∧ t.held 0 .rx = s.held 0 .rx ∧ keepsOtherPipes s t 0 .rx ∧
      Memory.byteAt t.mem b.addr = q.bmRequestType ∧ Memory.byteAt t.mem (b.addr + 1) = q.bRequest ∧
      (∀ k v, (k, v) ∈ [(2, q.wValue), (4, q.wIndex), (6, q.wLength)] →
        (Memory.byteAt t.mem (b.addr + k)).toNat + 256 * (Memory.byteAt t.mem (b.addr + (k + 1))).toNat = v.toNat) ∧
      ∀ a, (a < b.addr ∨ b.addr + 8 ≤ a) → Memory.byteAt t.mem a = Memory.byteAt s.mem a

/-- R222: while `CQ` has room, a stall-armed descriptor on an enabled direction answers every IN or OUT token with a STALL handshake,
which sets `STATUS.STALL` and changes nothing else. With `CQ` full the engine holds and the token is NAKed (R260), which
`UnservedTokensChangeNothing` states. -/
def Obligations.StallHandshakeOnlySetsStatus : Prop :=
  ∀ (s : State) (e : Nat) (d : Dir) (x : Input) (rest : List Input), s.inputs = x :: rest →
    ((d = .tx ∧ ∃ acked, x = .inToken e acked) ∨ (d = .rx ∧ ∃ tog data, x = .outPacket e tog data)) → e < s.numEp →
    (s.epctl e).getLsbD (match d with | .tx => 1 | .rx => 2) = true → (s.epctl e).getLsbD 4 = true →
    (s.bd e d (s.engPp e d)).uown = .hw → (s.bd e d (s.engPp e d)).stall = true →
    s.cq.length < s.params.statFifoDepth →
    step s = .next { s with inputs := rest, status := s.status ||| 0x100 }

/-- R220, R221, R260: a token the engine does not serve changes no state: the direction or the handshakes are disabled, the
descriptor is the block's, `CQ` is full, the host does not acknowledge (IN), the toggle differs or the packet is longer than the
count (OUT), or the descriptor cannot take a SETUP. A token to an absent endpoint is the
model's own case, and that a full `CQ` holds back the STALL handshake too is its reading of R260 against R222 (log 10, DEDUCED). -/
def Obligations.UnservedTokensChangeNothing : Prop :=
  ∀ (s : State) (e : Nat) (x : Input) (rest : List Input), s.inputs = x :: rest →
    let bi := s.bd e .tx (s.engPp e .tx)
    let bo := s.bd e .rx (s.engPp e .rx)
    let full := s.params.statFifoDepth ≤ s.cq.length
    ((∃ acked, x = .inToken e acked ∧
        (s.numEp ≤ e ∨ (s.epctl e).getLsbD 1 = false ∨ (s.epctl e).getLsbD 4 = false ∨ bi.uown = .sw ∨
          full ∨ (bi.stall = false ∧ acked = false))) ∨
      (∃ tog data, x = .outPacket e tog data ∧
        (s.numEp ≤ e ∨ (s.epctl e).getLsbD 2 = false ∨ (s.epctl e).getLsbD 4 = false ∨ bo.uown = .sw ∨
          full ∨ (bo.stall = false ∧ (tog ≠ bo.tog ∨ bo.bc.toNat < data.length)))) ∨
      (∃ q, x = .setup q ∧ e = 0 ∧
        (s.numEp ≤ e ∨ (s.epctl e).getLsbD 2 = false ∨ (s.epctl e).getLsbD 3 = true ∨ (s.epctl e).getLsbD 4 = false ∨
          bo.uown = .sw ∨ bo.bc.toNat < 8 ∨ full))) →
    step s = .next { s with inputs := rest }

/-- R68: an engine step that uses a buffer reaching past the address space is stuck: the completion of an acknowledged IN or of a
matching OUT, the acceptance of a SETUP, and an early read of a transmit byte. Which steps use the buffer, and that one ending with
the address space does not wrap, is the model's reading (log 8, DEDUCED); the early read is a step of the model's own (log 7). -/
def Obligations.WrappingBufferStopsEngine : Prop :=
  ∀ (s : State) (e : Nat) (d : Dir) (i : Bool) (x : Input) (rest : List Input), s.inputs = x :: rest → e < s.numEp →
    let b := s.bd e d i
    2 ^ s.params.addrBits < b.addr + b.bc.toNat → b.uown = .hw →
    ((∃ k, d = .tx ∧ x = .txFetch e i k ∧ b.stall = false ∧ k < b.bc.toNat) ∨
      (i = s.engPp e d ∧ (s.epctl e).getLsbD 4 = true ∧ s.cq.length < s.params.statFifoDepth ∧
        ((d = .tx ∧ x = .inToken e true ∧ (s.epctl e).getLsbD 1 = true ∧ b.stall = false) ∨
          (∃ data, d = .rx ∧ x = .outPacket e b.tog data ∧ (s.epctl e).getLsbD 2 = true ∧ b.stall = false ∧
            data.length ≤ b.bc.toNat) ∨
          (∃ q, d = .rx ∧ e = 0 ∧ x = .setup q ∧ (s.epctl e).getLsbD 2 = true ∧ (s.epctl e).getLsbD 3 = false ∧
            8 ≤ b.bc.toNat)))) →
    step s = .fault .engineBufferWraps

/-- R75, R252: a byte written into a transmit buffer under an engine-owned descriptor is sent as the new value if the engine reads
it at its completion, and as the old value if the engine had read it before the write: the model has both runs. (The early read is
a step of the model's own, log 7; that both run on a buffer that ends exactly with the address space is the model's reading of R68,
log 8, DEDUCED, unsafe there against the note on vector T11; that an engine-owned receive buffer that wraps leaves the low addresses
defined is the model's choice, log 22.) -/
def Obligations.TransmitRaceAdmitsOldAndNewByte : Prop :=
  ∀ (s : State) (e k : Nat) (v : Byte) (rest : List Input), e < s.numEp → Memory.wf s.mem →
    let i := s.engPp e .tx
    let b := s.bd e .tx i
    (s.epctl e).getLsbD 1 = true → (s.epctl e).getLsbD 4 = true → b.uown = .hw → b.stall = false →
    s.cq.length < s.params.statFifoDepth → b.addr + b.bc.toNat ≤ 2 ^ s.params.addrBits → k < b.bc.toNat →
    ((s.channel e .tx).fetched i).lookup k = none → s.underRx (b.addr + k) = false →
    (∃ t1 t2 data,
      step { s with inputs := .bufWrite (b.addr + k) v :: .inToken e true :: rest } = .next t1 ∧ step t1 = .next t2 ∧
      t2.sent = s.sent ++ [⟨e, b.tog, data⟩] ∧ data[k]? = some v) ∧
    ∃ t1 t2 t3 data,
      step { s with inputs := .txFetch e i k :: .bufWrite (b.addr + k) v :: .inToken e true :: rest } = .next t1 ∧
      step t1 = .next t2 ∧ step t2 = .next t3 ∧
      t3.sent = s.sent ++ [⟨e, b.tog, data⟩] ∧ data[k]? = some (Memory.byteAt s.mem (b.addr + k))

/-- R223, R206: the other environment steps set their bits and change nothing else. R223 has the transport-error step for a nonzero
draw only; that an input with the mask 0 is refused is the model's (log 9, DEDUCED). -/
def Obligations.EnvironmentStepsSetTheirBits : Prop :=
  ∀ (s : State) (x : Input) (rest : List Input), s.inputs = x :: rest →
    (∀ n, (x, n) ∈ [(Input.tick, 0), (.sessionLost, 1), (.startOfFrame, 2), (.busReset, 4), (.busIdle, 6), (.resumeSignal, 7)] →
      step s = .next { s with inputs := rest, status := s.status ||| (1#16 <<< n) }) ∧
    (∀ m, x = .transportError m → m ≠ 0 →
      step s = .next { s with inputs := rest, status := s.status ||| 0x20, errpend := s.errpend ||| m }) ∧
    (x = .transportError 0 → step s = .refused .emptyErrorReport)

/-! ### The register interface, events and buffer memory -/

/-- R66, R67: what a register reads as, zero-extended, at every offset of the map; reading changes no state of the block, and reading
again gives the same word (`busData` is the model's record of the word read, log 11; what `ARG0` reads as when `ADDR_BITS` is above
32 is free, log 6). -/
def Obligations.RegisterReadsFollowMap : Prop :=
  ∀ (s : State) (offset : Nat) (rest : List Input), s.inputs = .regRead offset .word :: rest →
    offset % 4 = 0 → offset < 0x40 + 4 * s.numEp →
    ∃ t, step s = .next t ∧ t = { s with inputs := rest, busData := t.busData } ∧
      (∀ rest', rest = .regRead offset .word :: rest' → step t = .next { t with inputs := rest' }) ∧
      (offset = 0x04 → s.params.addrBits ≤ 32 → t.busData = BitVec.ofNat 32 s.arg0) ∧
      (offset = 0x08 → t.busData.toNat = s.arg1.toNat) ∧
      (offset = 0x0C → t.busData.toNat = s.result.toNat) ∧
      (offset = 0x10 → t.busData = s.rdata) ∧
      (offset = 0x14 → ∀ n, t.busData.getLsbD n = if n = 3 then !s.cq.isEmpty else s.status.getLsbD n) ∧
      ((offset = 0 ∨ (0x18 ≤ offset ∧ offset ≤ 0x3C)) → t.busData = 0) ∧
      ∀ e, offset = 0x40 + 4 * e → t.busData.toNat = (s.epctl e).toNat

/-- R64, R66, R67: a write to `ARG0` or `ARG1` stores the low bits and nothing else; a write to any other offset of the map but
`CMD` is ignored; and the same write again changes nothing. Where `ARG0` is wider than 32 bits the word written is its low word and
the rest is free (log 6). -/
def Obligations.RegisterWritesFollowMap : Prop :=
  ∀ (s : State) (offset : Nat) (v : Word) (rest : List Input), s.inputs = .regWrite offset .word v :: rest →
    offset % 4 = 0 → offset < 0x40 + 4 * s.numEp → offset ≠ 0 →
    ∃ t, step s = .next t ∧
      t = { s with inputs := rest, arg0 := t.arg0, arg1 := (if offset = 0x08 then BitVec.ofNat 16 v.toNat else s.arg1) } ∧
      (∀ rest', rest = .regWrite offset .word v :: rest' → step t = .next { t with inputs := rest' }) ∧
      (offset ≠ 0x04 → t.arg0 = s.arg0) ∧
      (offset = 0x04 → s.params.addrBits ≤ 32 → t.arg0 = v.toNat % 2 ^ s.params.addrBits) ∧
      (offset = 0x04 → 32 ≤ s.params.addrBits → t.arg0 % 2 ^ 32 = v.toNat) ∧
      (s.arg0 < 2 ^ s.params.addrBits → t.arg0 < 2 ^ s.params.addrBits)

/-- R64 and the spec's U31: a register access that is not an aligned word, and an aligned word access beyond the map, are
refused. -/
def Obligations.OtherRegisterAccessesAreRefused : Prop :=
  ∀ (s : State) (x : Input) (rest : List Input) (offset : Nat) (width : AccessWidth), s.inputs = x :: rest →
    (x = .regRead offset width ∨ ∃ v, x = .regWrite offset width v) →
    ((width ≠ .word ∨ offset % 4 ≠ 0) → step s = .refused .registerAccessShape) ∧
    (width = .word → offset % 4 = 0 → 0x40 + 4 * s.numEp ≤ offset → step s = .refused .registerBeyondMap)

/-- R93: an event record as three words: the bits of each field of the first, and the other two as numbers. -/
def Obligations.EventWordsCarryFields : Prop :=
  ∀ v : Event, v.ep < 16 →
    v.word0.toNat = v.kind.code.toNat + 16 * v.ep + 256 * (if v.dir = .tx then 1 else 0) + 512 * (if v.pp then 1 else 0) +
      65536 * v.fd.toNat ∧
    v.word1.toNat = v.value.toNat ∧ v.word2 = v.addr

/-- R60, R63, R252: the upper layer writes one byte of buffer memory and reads it back; a byte under an engine-owned receive
descriptor is not said. That such a receive buffer, where it wraps, leaves the low addresses defined is the model's choice (log 22).
An address outside the address space does not exist (its fault is the model's, log 16). -/
def Obligations.UpperLayerAccessesBufferMemory : Prop :=
  ∀ (s : State) (x : Input) (rest : List Input) (a : Nat), s.inputs = x :: rest → Memory.wf s.mem →
    (∀ v, x = .bufWrite a v →
      (a < 2 ^ s.params.addrBits → ∃ t, step s = .next t ∧ t = { s with inputs := rest, mem := t.mem } ∧
        Memory.byteAt t.mem a = v ∧ ∀ a', a' ≠ a → Memory.byteAt t.mem a' = Memory.byteAt s.mem a') ∧
      (2 ^ s.params.addrBits ≤ a → step s = .fault .bufferAddressOutside)) ∧
    (x = .bufRead a →
      (a < 2 ^ s.params.addrBits → ∃ t, step s = .next t ∧
        t = { s with inputs := rest, bufData := t.bufData, freeCtr := t.freeCtr } ∧
        (s.underRx a = false → t.bufData = Memory.byteAt s.mem a)) ∧
      (2 ^ s.params.addrBits ≤ a → step s = .fault .bufferAddressOutside))

/-! ### Invariants -/

/-- Power-on meets every invariant below, for parameters in their ranges (R8) and a setup buffer that fits; so does the machine right
after reset. -/
def Obligations.ResetMeetsInvariants : Prop :=
  (∀ (n : Nat) (p : Params), p.wf = true → p.setupBufAddr + 8 ≤ 2 ^ p.addrBits →
    let s := State.powerOn n p
    s.TablesConsistent ∧ s.RegistersLegal ∧ s.MemoryCanonical ∧ s.QueueBounded ∧ s.BuffersFit ∧
      (1 ≤ n → n ≤ 16 → s.ParametersInRange)) ∧
  State.reset.TablesConsistent ∧ State.reset.RegistersLegal ∧ State.reset.MemoryCanonical ∧ State.reset.QueueBounded ∧
    State.reset.BuffersFit ∧ State.reset.ParametersInRange

/-- R53, R54 (facts the spec derives): every step of every agent keeps the pipe file and the descriptor table consistent: idle pipes
zeroed, unconfigured pipes idle, `rem` at most `size`, handed-off descriptors with `pid` NONE, and a held transfer (R254, log 21) busy with
a packet due. -/
def Obligations.StepKeepsTablesConsistent : Prop :=
  ∀ s t : State, s.TablesConsistent → step s = .next t → t.TablesConsistent

/-- R44, R46, R47, R48, R90: every step keeps the reserved bits of `EPCTL`, `ERRSTAT` and `STATUS` at 0, CONDIS on every endpoint but
0, `EPFUNC` legal, and `RESULT` one of the seven codes with `RDATA` 0 on a failure. -/
def Obligations.StepKeepsRegistersLegal : Prop :=
  ∀ s t : State, s.RegistersLegal → step s = .next t → t.RegistersLegal

/-- Every step keeps buffer memory in its canonical form and within the address space (R60, R68; the form is the model's, log 4). -/
def Obligations.StepKeepsMemoryCanonical : Prop :=
  ∀ s t : State, s.MemoryCanonical → step s = .next t → t.MemoryCanonical

/-- R50, R8: every step keeps `CQ` within its capacity, with records of endpoints the block has; no step changes the parameters or
the number of endpoints, so every parameter, `NUM_EP` (1 to 16) among them, stays in its range. -/
def Obligations.StepKeepsQueueBounded : Prop :=
  ∀ s t : State, step s = .next t →
    (s.QueueBounded → t.QueueBounded) ∧ t.params = s.params ∧ t.numEp = s.numEp ∧ (s.ParametersInRange → t.ParametersInRange)

/-- R68, R230: while every START keeps `ARG0 + ARG1` within the address space, no buffer in the tables ever wraps, and the engine is
never stuck on one. A buffer that ends exactly with the address space counts as fitting: that is the model's reading of R68 (log 8,
DEDUCED, unsafe at that boundary, where the note on vector T11 calls the engine's step stuck). -/
def Obligations.FittingTransfersNeverStickEngine : Prop :=
  ∀ s : State, s.TablesConsistent → s.BuffersFit → (∀ x, s.inputs.head? = some x → s.startFits x = true) →
    step s ≠ .fault .engineBufferWraps ∧ ∀ t, step s = .next t → t.BuffersFit

/-! ### Rules about the whole machine -/

/-- R203, R90: every command completes: it answers a next state, with one of the seven result codes and `RDATA` 0 unless the code is
OK; DISPATCH, READ_ERR and (on an endpoint that exists) CONFIGURE, STALL, UNSTALL, FLUSH and QUERY_STALL always answer OK. -/
def Obligations.EveryCommandCompletes : Prop :=
  ∀ (i : Instr) (s : State), ∃ t, exec i s = .next t ∧ t.result.toNat ≤ 6 ∧ (t.result ≠ 0 → t.rdata = 0) ∧
    (match i with
      | .configure ep _ _ _ => ep < s.numEp → t.result = 0
      | .start _ _ _ _ _ => True
      | .stall ep _ => ep < s.numEp → t.result = 0
      | .unstall ep _ => ep < s.numEp → t.result = 0
      | .flush ep _ => ep < s.numEp → t.result = 0
      | .queryStall ep _ => ep < s.numEp → t.result = 0
      | .setEpfunc _ => True
      | .readErr => t.result = 0
      | .dispatch => t.result = 0)

/-- R17, R55: no command but UNSTALL and FLUSH, and DISPATCH when it runs the bus-reset service, changes a descriptor the engine
owns. -/
def Obligations.CommandsKeepEngineOwnedDescriptors : Prop :=
  ∀ (i : Instr) (s t : State), (∀ ep d, i ≠ .unstall ep d ∧ i ≠ .flush ep d) → (i = .dispatch → s.pending .reset = false) →
    exec i s = .next t → ∀ e d k, (s.bd e d k).uown = .hw → t.bd e d k = s.bd e d k

/-- R61: no command writes buffer memory or depends on what it holds: with any other memory, the same command answers the same state
but for that memory. -/
def Obligations.CommandsNeverTouchBufferMemory : Prop :=
  ∀ (i : Instr) (s t : State) (m : List Host.Cell), exec i s = .next t →
    t.mem = s.mem ∧ exec i { s with mem := m } = .next { t with mem := m }

/-- R17, R20, R220 to R222: a host transaction or an early read changes only descriptors the engine owns; it writes no pipe,
endpoint-control, function-map, argument, result or error register, and raises no event. -/
def Obligations.EngineWritesOnlyItsDescriptors : Prop :=
  ∀ (s t : State) (x : Input) (rest : List Input), s.inputs = x :: rest → x.isEngine = true → step s = .next t →
    (∀ e d k, (s.bd e d k).uown = .sw → t.bd e d k = s.bd e d k) ∧
    (∀ e d, t.pipe e d = s.pipe e d ∧ t.held e d = s.held e d) ∧ (∀ e, t.epctl e = s.epctl e ∧ t.epfunc e = s.epfunc e) ∧
    t = { s with eps := t.eps, cq := t.cq, status := t.status, mem := t.mem, sent := t.sent, freeCtr := t.freeCtr,
                 inputs := rest } ∧
    ∀ k, k ≠ .stall → t.pending k = s.pending k

/-- R51: the engine's pointer of a pipe inverts when the engine completes a packet on that pipe, with the record that names the
descriptor used; the only other write is by the bus-reset service, which zeroes it. -/
def Obligations.EnginePointerMovesOnCompletionOnly : Prop :=
  ∀ (s t : State) (e : Nat) (d : Dir), step s = .next t →
    t.engPp e d = s.engPp e d ∨
    (t.engPp e d = (!s.engPp e d) ∧ t.cq = s.cq ++ [⟨e, d, s.engPp e d⟩] ∧
      ∃ x rest, s.inputs = x :: rest ∧ x.isEngine = true) ∨
    (t.engPp e d = false ∧ s.pending .reset = true ∧
      ∃ v rest, s.inputs = .regWrite 0x00 .word v :: rest ∧ decode v = .ok .dispatch)

/-- R52: DISPATCH appends to `EVOUT`, the upper layer takes its head, and no other step of any agent writes it. Taking an event always
succeeds: with `EVOUT` empty nothing is taken (`taken` is the model's record of the event taken, log 11). -/
def Obligations.EventOutputIsAppendedAndConsumed : Prop :=
  (∀ (s : State) (rest : List Input), s.inputs = .takeEvent :: rest →
    step s = .next { s with inputs := rest, taken := s.evout.head?, evout := s.evout.tail }) ∧
  ∀ (s t : State), step s = .next t →
    ((∀ rest, s.inputs ≠ .takeEvent :: rest) ∧ t.evout = s.evout) ∨
    (∃ rest, s.inputs = .takeEvent :: rest ∧ t.evout = s.evout.tail ∧ t.taken = s.evout.head?) ∨
    (∃ v rest evs, s.inputs = .regWrite 0x00 .word v :: rest ∧ decode v = .ok .dispatch ∧ t.evout = s.evout ++ evs)

/-- R207: the line is high exactly while some class is pending, TOKEN as derived; and a pending class stays pending through every
step but a DISPATCH. The reserved bits of `STATUS` are 0 (an invariant, above). -/
def Obligations.InterruptLineFollowsPendingClasses : Prop :=
  (∀ s : State, s.RegistersLegal → (s.irq = true ↔ ((∃ k, s.pending k = true) ∨ s.cq ≠ []))) ∧
  ∀ (s t : State), step s = .next t →
    (∀ v rest, s.inputs = .regWrite 0x00 .word v :: rest → decode v ≠ .ok .dispatch) →
    (∀ k, s.pending k = true → t.pending k = true) ∧ ∃ l, t.cq = s.cq ++ l

/-- R47: an error bit stays set through every step but a READ_ERR. -/
def Obligations.ErrorBitsStayUntilReadErr : Prop :=
  ∀ (s t : State), step s = .next t →
    (∀ v rest, s.inputs = .regWrite 0x00 .word v :: rest → decode v ≠ .ok .readErr) →
    ∀ n, s.errstat.getLsbD n = true → t.errstat.getLsbD n = true
end

