-- ==== Sys2Proof/Laws/Decode.lean ====
section
/-! SUPPORT. What the decoder and the encoder do: a legal word is the encoding of what it decodes to, and which words select
each row. -/

namespace Sys2Proof

/-! ### From a word to its fields and back -/

/-- A decoded word selects a row of the table and gives that row's instruction. -/
theorem decode_ok {w : Word} {i : Instr} (h : decode w = .ok i) : ∃ r ∈ rows, w &&& r.mask = r.bits ∧ i = r.fields w := by
  unfold decode at h
  split at h
  · rename_i r hr
    exact ⟨r, List.mem_of_find?_eq_some hr, by simpa [Row.selectedBy] using List.find?_some hr, by cases h; rfl⟩
  · cases h

theorem bitField_of_word (w : Word) (n : Nat) : bitField n (w.getLsbD n) = w &&& (1#32 <<< n) := by
  rw [← BitVec.twoPow_eq, BitVec.and_twoPow]
  unfold bitField
  rw [BitVec.twoPow_eq]

theorem epField_lt (w : Word) : epField w < 16 :=
  Nat.lt_of_le_of_lt (Nat.and_le_right (n := w.toNat) (m := 15)) (by decide)

theorem epBits_of_word (w : Word) : epBits (epField w) = w &&& 0xF#32 := by
  apply BitVec.eq_of_toNat_eq
  have h : w.toNat &&& 15 < 16 := epField_lt w
  change (w.toNat &&& 15) % 16 % 2 ^ 32 = w.toNat &&& 15
  omega

theorem dirBits_of_word (w : Word) : dirBits (dirField w) = w &&& 0x80#32 := by
  rw [show (0x80#32) = 1#32 <<< 7 by decide, ← bitField_of_word]
  unfold dirBits dirField
  cases w.getLsbD 7 <;> rfl

/-- The instruction of a row, encoded: the row's fixed bits and the word's own bits outside the mask. -/
theorem encode_of_row {r : Row} (hr : r ∈ rows) (w : Word) : encode (r.fields w) = r.bits ||| (w &&& ~~~r.mask) := by
  simp only [rows, List.mem_cons, List.not_mem_nil, or_false] at hr
  rcases hr with rfl | rfl | rfl | rfl | rfl | rfl | rfl | rfl | rfl <;>
    simp only [encode, bitField_of_word, epBits_of_word, dirBits_of_word, BitVec.or_assoc, ← BitVec.and_or_distrib_left] <;>
    simp

/-- The instruction of a row is well-formed: its fields come from the word's bits. -/
theorem wellFormed_of_row {r : Row} (hr : r ∈ rows) (w : Word) : (r.fields w).wellFormed = true := by
  have h : epFits (epField w) = true := by simpa [epFits] using epField_lt w
  simp only [rows, List.mem_cons, List.not_mem_nil, or_false] at hr
  rcases hr with rfl | rfl | rfl | rfl | rfl | rfl | rfl | rfl | rfl <;> simp [Instr.wellFormed, h]

/-! ### Which words select a row -/

/-- A word's bits under a split mask. -/
theorem and_or_eq_iff {w h l b : Word} (hb : b &&& l = 0#32) (hl : h &&& l = 0#32) :
    w &&& (h ||| l) = b ↔ w &&& h = b ∧ w &&& l = 0#32 := by
  rw [BitVec.and_or_distrib_left]
  constructor
  · intro e
    have e2 : w &&& l = 0#32 := by
      have this : (w &&& h ||| w &&& l) &&& l = b &&& l := by rw [e]
      rw [BitVec.and_or_distrib_right, hb, BitVec.and_assoc, hl, BitVec.and_assoc, BitVec.and_self] at this
      simpa using this
    exact ⟨by simpa [e2] using e, e2⟩
  · rintro ⟨e1, e2⟩
    simp [e1, e2]

/-- A word's opcode is its bits 31:24. -/
theorem opcode_eq_iff {w : Word} {c : Nat} (hc : c < 256) :
    w &&& 0xFF000000#32 = BitVec.ofNat 32 c <<< 24 ↔ (w >>> 24).toNat = c := by
  have hw : w &&& 0xFF000000#32 = (w >>> 24) <<< 24 := by
    apply BitVec.eq_of_getLsbD_eq
    intro k hk
    rw [BitVec.getLsbD_and, BitVec.getLsbD_shiftLeft, BitVec.getLsbD_ushiftRight,
      show (0xFF000000#32) = BitVec.allOnes 32 <<< 24 by decide, BitVec.getLsbD_shiftLeft, BitVec.getLsbD_allOnes]
    by_cases h : k < 24
    · simp only [h, decide_true, Bool.not_true, Bool.and_false, Bool.false_and]
    · simp only [h, hk, decide_true, decide_false, Bool.not_false, Bool.true_and, show k - 24 < 32 by omega,
        show 24 + (k - 24) = k by omega, Bool.and_true]
  have hlt : w.toNat < 2 ^ 32 := w.isLt
  rw [hw, ← BitVec.toNat_inj]
  simp only [BitVec.toNat_shiftLeft, BitVec.toNat_ushiftRight, BitVec.toNat_ofNat, Nat.shiftLeft_eq, Nat.shiftRight_eq_div_pow]
  omega

/-- A word selects the row of opcode `c` with reserved low bits `l` exactly when its opcode is `c` and its reserved bits are 0. -/
theorem selected_iff {w : Word} (c : Nat) (l m b : Word) (hc : c < 256) (hb : BitVec.ofNat 32 c <<< 24 = b)
    (hm : 0xFF000000#32 ||| (0x00FF0000#32 ||| l) = m) (hbl : b &&& (0x00FF0000#32 ||| l) = 0#32)
    (hl : 0xFF000000#32 &&& (0x00FF0000#32 ||| l) = 0#32) :
    w &&& m = b ↔ (w >>> 24).toNat = c ∧ w &&& 0x00FF0000#32 = 0#32 ∧ w &&& l = 0#32 := by
  rw [← hm, and_or_eq_iff hbl hl, ← hb, opcode_eq_iff hc, BitVec.and_or_distrib_left, BitVec.or_eq_zero_iff]

/-- A word is illegal exactly when it selects no row. -/
theorem decode_error_iff (w : Word) : (∃ r, decode w = .error r) ↔ ∀ r ∈ rows, ¬ (w &&& r.mask = r.bits) := by
  unfold decode
  constructor
  · rintro ⟨r, h⟩
    split at h
    · cases h
    · rename_i hn
      intro r hr
      simpa [Row.selectedBy] using List.find?_eq_none.mp hn r hr
  · intro h
    have hn : rows.find? (Row.selectedBy w) = none :=
      List.find?_eq_none.mpr fun r hr => by simpa [Row.selectedBy] using h r hr
    rw [hn]
    exact ⟨_, rfl⟩

end Sys2Proof
end

