-- ==== Sys2Proof/Laws/State.lean ====
section
/-! SUPPORT. One lemma per field per update of State: the updates the meanings use never need to be unfolded for a field
they leave alone, or for the one they write. -/

namespace Sys2Proof.Machine

/-! ### `setEndpoint` -/

@[simp] theorem State.setEndpoint_params (s : State) (e : Nat) (x : Endpoint) : (s.setEndpoint e x).params = s.params := rfl

@[simp] theorem State.setEndpoint_arg0 (s : State) (e : Nat) (x : Endpoint) : (s.setEndpoint e x).arg0 = s.arg0 := rfl

@[simp] theorem State.setEndpoint_arg1 (s : State) (e : Nat) (x : Endpoint) : (s.setEndpoint e x).arg1 = s.arg1 := rfl

@[simp] theorem State.setEndpoint_result (s : State) (e : Nat) (x : Endpoint) : (s.setEndpoint e x).result = s.result := rfl

@[simp] theorem State.setEndpoint_rdata (s : State) (e : Nat) (x : Endpoint) : (s.setEndpoint e x).rdata = s.rdata := rfl

@[simp] theorem State.setEndpoint_errstat (s : State) (e : Nat) (x : Endpoint) : (s.setEndpoint e x).errstat = s.errstat := rfl

@[simp] theorem State.setEndpoint_status (s : State) (e : Nat) (x : Endpoint) : (s.setEndpoint e x).status = s.status := rfl

@[simp] theorem State.setEndpoint_errpend (s : State) (e : Nat) (x : Endpoint) : (s.setEndpoint e x).errpend = s.errpend := rfl

@[simp] theorem State.setEndpoint_cq (s : State) (e : Nat) (x : Endpoint) : (s.setEndpoint e x).cq = s.cq := rfl

@[simp] theorem State.setEndpoint_evout (s : State) (e : Nat) (x : Endpoint) : (s.setEndpoint e x).evout = s.evout := rfl

@[simp] theorem State.setEndpoint_mem (s : State) (e : Nat) (x : Endpoint) : (s.setEndpoint e x).mem = s.mem := rfl

@[simp] theorem State.setEndpoint_inputs (s : State) (e : Nat) (x : Endpoint) : (s.setEndpoint e x).inputs = s.inputs := rfl

@[simp] theorem State.setEndpoint_freeCtr (s : State) (e : Nat) (x : Endpoint) : (s.setEndpoint e x).freeCtr = s.freeCtr := rfl

@[simp] theorem State.setEndpoint_busData (s : State) (e : Nat) (x : Endpoint) : (s.setEndpoint e x).busData = s.busData := rfl

@[simp] theorem State.setEndpoint_bufData (s : State) (e : Nat) (x : Endpoint) : (s.setEndpoint e x).bufData = s.bufData := rfl

@[simp] theorem State.setEndpoint_taken (s : State) (e : Nat) (x : Endpoint) : (s.setEndpoint e x).taken = s.taken := rfl

@[simp] theorem State.setEndpoint_sent (s : State) (e : Nat) (x : Endpoint) : (s.setEndpoint e x).sent = s.sent := rfl

/-! ### `setChannel` -/

@[simp] theorem State.setChannel_params (s : State) (e : Nat) (d : Dir) (c : Channel) : (s.setChannel e d c).params = s.params := rfl

@[simp] theorem State.setChannel_arg0 (s : State) (e : Nat) (d : Dir) (c : Channel) : (s.setChannel e d c).arg0 = s.arg0 := rfl

@[simp] theorem State.setChannel_arg1 (s : State) (e : Nat) (d : Dir) (c : Channel) : (s.setChannel e d c).arg1 = s.arg1 := rfl

@[simp] theorem State.setChannel_result (s : State) (e : Nat) (d : Dir) (c : Channel) : (s.setChannel e d c).result = s.result := rfl

@[simp] theorem State.setChannel_rdata (s : State) (e : Nat) (d : Dir) (c : Channel) : (s.setChannel e d c).rdata = s.rdata := rfl

@[simp] theorem State.setChannel_errstat (s : State) (e : Nat) (d : Dir) (c : Channel) : (s.setChannel e d c).errstat = s.errstat := rfl

@[simp] theorem State.setChannel_status (s : State) (e : Nat) (d : Dir) (c : Channel) : (s.setChannel e d c).status = s.status := rfl

@[simp] theorem State.setChannel_errpend (s : State) (e : Nat) (d : Dir) (c : Channel) : (s.setChannel e d c).errpend = s.errpend := rfl

@[simp] theorem State.setChannel_cq (s : State) (e : Nat) (d : Dir) (c : Channel) : (s.setChannel e d c).cq = s.cq := rfl

@[simp] theorem State.setChannel_evout (s : State) (e : Nat) (d : Dir) (c : Channel) : (s.setChannel e d c).evout = s.evout := rfl

@[simp] theorem State.setChannel_mem (s : State) (e : Nat) (d : Dir) (c : Channel) : (s.setChannel e d c).mem = s.mem := rfl

@[simp] theorem State.setChannel_inputs (s : State) (e : Nat) (d : Dir) (c : Channel) : (s.setChannel e d c).inputs = s.inputs := rfl

@[simp] theorem State.setChannel_freeCtr (s : State) (e : Nat) (d : Dir) (c : Channel) : (s.setChannel e d c).freeCtr = s.freeCtr := rfl

@[simp] theorem State.setChannel_busData (s : State) (e : Nat) (d : Dir) (c : Channel) : (s.setChannel e d c).busData = s.busData := rfl

@[simp] theorem State.setChannel_bufData (s : State) (e : Nat) (d : Dir) (c : Channel) : (s.setChannel e d c).bufData = s.bufData := rfl

@[simp] theorem State.setChannel_taken (s : State) (e : Nat) (d : Dir) (c : Channel) : (s.setChannel e d c).taken = s.taken := rfl

@[simp] theorem State.setChannel_sent (s : State) (e : Nat) (d : Dir) (c : Channel) : (s.setChannel e d c).sent = s.sent := rfl

/-! ### `ok` -/

@[simp] theorem State.ok_params (s : State) (v : Word) : (s.ok v).params = s.params := rfl

@[simp] theorem State.ok_arg0 (s : State) (v : Word) : (s.ok v).arg0 = s.arg0 := rfl

@[simp] theorem State.ok_arg1 (s : State) (v : Word) : (s.ok v).arg1 = s.arg1 := rfl

@[simp] theorem State.ok_result (s : State) (v : Word) : (s.ok v).result = 0 := rfl

@[simp] theorem State.ok_rdata (s : State) (v : Word) : (s.ok v).rdata = v := rfl

@[simp] theorem State.ok_eps (s : State) (v : Word) : (s.ok v).eps = s.eps := rfl

@[simp] theorem State.ok_errstat (s : State) (v : Word) : (s.ok v).errstat = s.errstat := rfl

@[simp] theorem State.ok_status (s : State) (v : Word) : (s.ok v).status = s.status := rfl

@[simp] theorem State.ok_errpend (s : State) (v : Word) : (s.ok v).errpend = s.errpend := rfl

@[simp] theorem State.ok_cq (s : State) (v : Word) : (s.ok v).cq = s.cq := rfl

@[simp] theorem State.ok_evout (s : State) (v : Word) : (s.ok v).evout = s.evout := rfl

@[simp] theorem State.ok_mem (s : State) (v : Word) : (s.ok v).mem = s.mem := rfl

@[simp] theorem State.ok_inputs (s : State) (v : Word) : (s.ok v).inputs = s.inputs := rfl

@[simp] theorem State.ok_freeCtr (s : State) (v : Word) : (s.ok v).freeCtr = s.freeCtr := rfl

@[simp] theorem State.ok_busData (s : State) (v : Word) : (s.ok v).busData = s.busData := rfl

@[simp] theorem State.ok_bufData (s : State) (v : Word) : (s.ok v).bufData = s.bufData := rfl

@[simp] theorem State.ok_taken (s : State) (v : Word) : (s.ok v).taken = s.taken := rfl

@[simp] theorem State.ok_sent (s : State) (v : Word) : (s.ok v).sent = s.sent := rfl

@[simp] theorem State.ok_numEp (s : State) (v : Word) :
    (s.ok v).numEp = s.numEp := rfl

@[simp] theorem State.ok_endpoint (s : State) (v : Word) (e : Nat) :
    (s.ok v).endpoint e = s.endpoint e := rfl

@[simp] theorem State.ok_channel (s : State) (v : Word) (e : Nat) (d : Dir) :
    (s.ok v).channel e d = s.channel e d := rfl

@[simp] theorem State.ok_pipe (s : State) (v : Word) (e : Nat) (d : Dir) :
    (s.ok v).pipe e d = s.pipe e d := rfl

@[simp] theorem State.ok_bd (s : State) (v : Word) (e : Nat) (d : Dir) (i : Bool) :
    (s.ok v).bd e d i = s.bd e d i := rfl

@[simp] theorem State.ok_engPp (s : State) (v : Word) (e : Nat) (d : Dir) :
    (s.ok v).engPp e d = s.engPp e d := rfl
@[simp] theorem State.ok_held (s : State) (v : Word) (e : Nat) (d : Dir) :
    (s.ok v).held e d = s.held e d := rfl

@[simp] theorem State.ok_epctl (s : State) (v : Word) (e : Nat) :
    (s.ok v).epctl e = s.epctl e := rfl

@[simp] theorem State.ok_epfunc (s : State) (v : Word) (e : Nat) :
    (s.ok v).epfunc e = s.epfunc e := rfl

/-! ### `fail` -/

@[simp] theorem State.fail_params (s : State) (c : FailCode) : (s.fail c).params = s.params := rfl

@[simp] theorem State.fail_arg0 (s : State) (c : FailCode) : (s.fail c).arg0 = s.arg0 := rfl

@[simp] theorem State.fail_arg1 (s : State) (c : FailCode) : (s.fail c).arg1 = s.arg1 := rfl

@[simp] theorem State.fail_result (s : State) (c : FailCode) : (s.fail c).result = c.toByte := rfl

@[simp] theorem State.fail_rdata (s : State) (c : FailCode) : (s.fail c).rdata = 0 := rfl

@[simp] theorem State.fail_eps (s : State) (c : FailCode) : (s.fail c).eps = s.eps := rfl

@[simp] theorem State.fail_errstat (s : State) (c : FailCode) : (s.fail c).errstat = s.errstat := rfl

@[simp] theorem State.fail_status (s : State) (c : FailCode) : (s.fail c).status = s.status := rfl

@[simp] theorem State.fail_errpend (s : State) (c : FailCode) : (s.fail c).errpend = s.errpend := rfl

@[simp] theorem State.fail_cq (s : State) (c : FailCode) : (s.fail c).cq = s.cq := rfl

@[simp] theorem State.fail_evout (s : State) (c : FailCode) : (s.fail c).evout = s.evout := rfl

@[simp] theorem State.fail_mem (s : State) (c : FailCode) : (s.fail c).mem = s.mem := rfl

@[simp] theorem State.fail_inputs (s : State) (c : FailCode) : (s.fail c).inputs = s.inputs := rfl

@[simp] theorem State.fail_freeCtr (s : State) (c : FailCode) : (s.fail c).freeCtr = s.freeCtr := rfl

@[simp] theorem State.fail_busData (s : State) (c : FailCode) : (s.fail c).busData = s.busData := rfl

@[simp] theorem State.fail_bufData (s : State) (c : FailCode) : (s.fail c).bufData = s.bufData := rfl

@[simp] theorem State.fail_taken (s : State) (c : FailCode) : (s.fail c).taken = s.taken := rfl

@[simp] theorem State.fail_sent (s : State) (c : FailCode) : (s.fail c).sent = s.sent := rfl

@[simp] theorem State.fail_numEp (s : State) (c : FailCode) :
    (s.fail c).numEp = s.numEp := rfl

@[simp] theorem State.fail_endpoint (s : State) (c : FailCode) (e : Nat) :
    (s.fail c).endpoint e = s.endpoint e := rfl

@[simp] theorem State.fail_channel (s : State) (c : FailCode) (e : Nat) (d : Dir) :
    (s.fail c).channel e d = s.channel e d := rfl

@[simp] theorem State.fail_pipe (s : State) (c : FailCode) (e : Nat) (d : Dir) :
    (s.fail c).pipe e d = s.pipe e d := rfl

@[simp] theorem State.fail_bd (s : State) (c : FailCode) (e : Nat) (d : Dir) (i : Bool) :
    (s.fail c).bd e d i = s.bd e d i := rfl

@[simp] theorem State.fail_engPp (s : State) (c : FailCode) (e : Nat) (d : Dir) :
    (s.fail c).engPp e d = s.engPp e d := rfl
@[simp] theorem State.fail_held (s : State) (c : FailCode) (e : Nat) (d : Dir) :
    (s.fail c).held e d = s.held e d := rfl

@[simp] theorem State.fail_epctl (s : State) (c : FailCode) (e : Nat) :
    (s.fail c).epctl e = s.epctl e := rfl

@[simp] theorem State.fail_epfunc (s : State) (c : FailCode) (e : Nat) :
    (s.fail c).epfunc e = s.epfunc e := rfl

/-! ### `raise` -/

@[simp] theorem State.raise_params (s : State) (c : StatusClass) : (s.raise c).params = s.params := rfl

@[simp] theorem State.raise_arg0 (s : State) (c : StatusClass) : (s.raise c).arg0 = s.arg0 := rfl

@[simp] theorem State.raise_arg1 (s : State) (c : StatusClass) : (s.raise c).arg1 = s.arg1 := rfl

@[simp] theorem State.raise_result (s : State) (c : StatusClass) : (s.raise c).result = s.result := rfl

@[simp] theorem State.raise_rdata (s : State) (c : StatusClass) : (s.raise c).rdata = s.rdata := rfl

@[simp] theorem State.raise_eps (s : State) (c : StatusClass) : (s.raise c).eps = s.eps := rfl

@[simp] theorem State.raise_errstat (s : State) (c : StatusClass) : (s.raise c).errstat = s.errstat := rfl

@[simp] theorem State.raise_status (s : State) (c : StatusClass) : (s.raise c).status = putBit s.status c.bit true := rfl

@[simp] theorem State.raise_errpend (s : State) (c : StatusClass) : (s.raise c).errpend = s.errpend := rfl

@[simp] theorem State.raise_cq (s : State) (c : StatusClass) : (s.raise c).cq = s.cq := rfl

@[simp] theorem State.raise_evout (s : State) (c : StatusClass) : (s.raise c).evout = s.evout := rfl

@[simp] theorem State.raise_mem (s : State) (c : StatusClass) : (s.raise c).mem = s.mem := rfl

@[simp] theorem State.raise_inputs (s : State) (c : StatusClass) : (s.raise c).inputs = s.inputs := rfl

@[simp] theorem State.raise_freeCtr (s : State) (c : StatusClass) : (s.raise c).freeCtr = s.freeCtr := rfl

@[simp] theorem State.raise_busData (s : State) (c : StatusClass) : (s.raise c).busData = s.busData := rfl

@[simp] theorem State.raise_bufData (s : State) (c : StatusClass) : (s.raise c).bufData = s.bufData := rfl

@[simp] theorem State.raise_taken (s : State) (c : StatusClass) : (s.raise c).taken = s.taken := rfl

@[simp] theorem State.raise_sent (s : State) (c : StatusClass) : (s.raise c).sent = s.sent := rfl

@[simp] theorem State.raise_numEp (s : State) (c : StatusClass) :
    (s.raise c).numEp = s.numEp := rfl

@[simp] theorem State.raise_endpoint (s : State) (c : StatusClass) (e : Nat) :
    (s.raise c).endpoint e = s.endpoint e := rfl

@[simp] theorem State.raise_channel (s : State) (c : StatusClass) (e : Nat) (d : Dir) :
    (s.raise c).channel e d = s.channel e d := rfl

@[simp] theorem State.raise_pipe (s : State) (c : StatusClass) (e : Nat) (d : Dir) :
    (s.raise c).pipe e d = s.pipe e d := rfl

@[simp] theorem State.raise_bd (s : State) (c : StatusClass) (e : Nat) (d : Dir) (i : Bool) :
    (s.raise c).bd e d i = s.bd e d i := rfl

@[simp] theorem State.raise_engPp (s : State) (c : StatusClass) (e : Nat) (d : Dir) :
    (s.raise c).engPp e d = s.engPp e d := rfl
@[simp] theorem State.raise_held (s : State) (c : StatusClass) (e : Nat) (d : Dir) :
    (s.raise c).held e d = s.held e d := rfl

@[simp] theorem State.raise_epctl (s : State) (c : StatusClass) (e : Nat) :
    (s.raise c).epctl e = s.epctl e := rfl

@[simp] theorem State.raise_epfunc (s : State) (c : StatusClass) (e : Nat) :
    (s.raise c).epfunc e = s.epfunc e := rfl

/-! ### `clear` -/

@[simp] theorem State.clear_params (s : State) (c : StatusClass) : (s.clear c).params = s.params := rfl

@[simp] theorem State.clear_arg0 (s : State) (c : StatusClass) : (s.clear c).arg0 = s.arg0 := rfl

@[simp] theorem State.clear_arg1 (s : State) (c : StatusClass) : (s.clear c).arg1 = s.arg1 := rfl

@[simp] theorem State.clear_result (s : State) (c : StatusClass) : (s.clear c).result = s.result := rfl

@[simp] theorem State.clear_rdata (s : State) (c : StatusClass) : (s.clear c).rdata = s.rdata := rfl

@[simp] theorem State.clear_eps (s : State) (c : StatusClass) : (s.clear c).eps = s.eps := rfl

@[simp] theorem State.clear_errstat (s : State) (c : StatusClass) : (s.clear c).errstat = s.errstat := rfl

@[simp] theorem State.clear_status (s : State) (c : StatusClass) : (s.clear c).status = putBit s.status c.bit false := rfl

@[simp] theorem State.clear_errpend (s : State) (c : StatusClass) : (s.clear c).errpend = s.errpend := rfl

@[simp] theorem State.clear_cq (s : State) (c : StatusClass) : (s.clear c).cq = s.cq := rfl

@[simp] theorem State.clear_evout (s : State) (c : StatusClass) : (s.clear c).evout = s.evout := rfl

@[simp] theorem State.clear_mem (s : State) (c : StatusClass) : (s.clear c).mem = s.mem := rfl

@[simp] theorem State.clear_inputs (s : State) (c : StatusClass) : (s.clear c).inputs = s.inputs := rfl

@[simp] theorem State.clear_freeCtr (s : State) (c : StatusClass) : (s.clear c).freeCtr = s.freeCtr := rfl

@[simp] theorem State.clear_busData (s : State) (c : StatusClass) : (s.clear c).busData = s.busData := rfl

@[simp] theorem State.clear_bufData (s : State) (c : StatusClass) : (s.clear c).bufData = s.bufData := rfl

@[simp] theorem State.clear_taken (s : State) (c : StatusClass) : (s.clear c).taken = s.taken := rfl

@[simp] theorem State.clear_sent (s : State) (c : StatusClass) : (s.clear c).sent = s.sent := rfl

@[simp] theorem State.clear_numEp (s : State) (c : StatusClass) :
    (s.clear c).numEp = s.numEp := rfl

@[simp] theorem State.clear_endpoint (s : State) (c : StatusClass) (e : Nat) :
    (s.clear c).endpoint e = s.endpoint e := rfl

@[simp] theorem State.clear_channel (s : State) (c : StatusClass) (e : Nat) (d : Dir) :
    (s.clear c).channel e d = s.channel e d := rfl

@[simp] theorem State.clear_pipe (s : State) (c : StatusClass) (e : Nat) (d : Dir) :
    (s.clear c).pipe e d = s.pipe e d := rfl

@[simp] theorem State.clear_bd (s : State) (c : StatusClass) (e : Nat) (d : Dir) (i : Bool) :
    (s.clear c).bd e d i = s.bd e d i := rfl

@[simp] theorem State.clear_engPp (s : State) (c : StatusClass) (e : Nat) (d : Dir) :
    (s.clear c).engPp e d = s.engPp e d := rfl
@[simp] theorem State.clear_held (s : State) (c : StatusClass) (e : Nat) (d : Dir) :
    (s.clear c).held e d = s.held e d := rfl

@[simp] theorem State.clear_epctl (s : State) (c : StatusClass) (e : Nat) :
    (s.clear c).epctl e = s.epctl e := rfl

@[simp] theorem State.clear_epfunc (s : State) (c : StatusClass) (e : Nat) :
    (s.clear c).epfunc e = s.epfunc e := rfl

/-! ### `ownershipViolation` -/

@[simp] theorem State.ownershipViolation_params (s : State) : (s.ownershipViolation).params = s.params := rfl

@[simp] theorem State.ownershipViolation_arg0 (s : State) : (s.ownershipViolation).arg0 = s.arg0 := rfl

@[simp] theorem State.ownershipViolation_arg1 (s : State) : (s.ownershipViolation).arg1 = s.arg1 := rfl

@[simp] theorem State.ownershipViolation_result (s : State) : (s.ownershipViolation).result = s.result := rfl

@[simp] theorem State.ownershipViolation_rdata (s : State) : (s.ownershipViolation).rdata = s.rdata := rfl

@[simp] theorem State.ownershipViolation_eps (s : State) : (s.ownershipViolation).eps = s.eps := rfl

@[simp] theorem State.ownershipViolation_errstat (s : State) : (s.ownershipViolation).errstat = putBit s.errstat errOwnBit true := rfl

@[simp] theorem State.ownershipViolation_status (s : State) : (s.ownershipViolation).status = putBit s.status StatusClass.error.bit true := rfl

@[simp] theorem State.ownershipViolation_errpend (s : State) : (s.ownershipViolation).errpend = s.errpend := rfl

@[simp] theorem State.ownershipViolation_cq (s : State) : (s.ownershipViolation).cq = s.cq := rfl

@[simp] theorem State.ownershipViolation_evout (s : State) : (s.ownershipViolation).evout = s.evout := rfl

@[simp] theorem State.ownershipViolation_mem (s : State) : (s.ownershipViolation).mem = s.mem := rfl

@[simp] theorem State.ownershipViolation_inputs (s : State) : (s.ownershipViolation).inputs = s.inputs := rfl

@[simp] theorem State.ownershipViolation_freeCtr (s : State) : (s.ownershipViolation).freeCtr = s.freeCtr := rfl

@[simp] theorem State.ownershipViolation_busData (s : State) : (s.ownershipViolation).busData = s.busData := rfl

@[simp] theorem State.ownershipViolation_bufData (s : State) : (s.ownershipViolation).bufData = s.bufData := rfl

@[simp] theorem State.ownershipViolation_taken (s : State) : (s.ownershipViolation).taken = s.taken := rfl

@[simp] theorem State.ownershipViolation_sent (s : State) : (s.ownershipViolation).sent = s.sent := rfl

@[simp] theorem State.ownershipViolation_numEp (s : State) :
    (s.ownershipViolation).numEp = s.numEp := rfl

@[simp] theorem State.ownershipViolation_endpoint (s : State) (e : Nat) :
    (s.ownershipViolation).endpoint e = s.endpoint e := rfl

@[simp] theorem State.ownershipViolation_channel (s : State) (e : Nat) (d : Dir) :
    (s.ownershipViolation).channel e d = s.channel e d := rfl

@[simp] theorem State.ownershipViolation_pipe (s : State) (e : Nat) (d : Dir) :
    (s.ownershipViolation).pipe e d = s.pipe e d := rfl

@[simp] theorem State.ownershipViolation_bd (s : State) (e : Nat) (d : Dir) (i : Bool) :
    (s.ownershipViolation).bd e d i = s.bd e d i := rfl

@[simp] theorem State.ownershipViolation_engPp (s : State) (e : Nat) (d : Dir) :
    (s.ownershipViolation).engPp e d = s.engPp e d := rfl
@[simp] theorem State.ownershipViolation_held (s : State) (e : Nat) (d : Dir) :
    (s.ownershipViolation).held e d = s.held e d := rfl

@[simp] theorem State.ownershipViolation_epctl (s : State) (e : Nat) :
    (s.ownershipViolation).epctl e = s.epctl e := rfl

@[simp] theorem State.ownershipViolation_epfunc (s : State) (e : Nat) :
    (s.ownershipViolation).epfunc e = s.epfunc e := rfl

end Sys2Proof.Machine
end

