-- ==== Sys2Proof/Laws/Ops.lean ====
section
/-! SUPPORT. What the accessors and the single-bit writes do: reading a table entry after writing one, and a register bit after
writing one. -/

namespace Sys2Proof.Machine

/-! ### Bits -/

/-- A bit of a register after one bit is written. -/
theorem putBit_getLsbD {w : Nat} (v : BitVec w) (n k : Nat) (b : Bool) (hn : n < w) :
    (putBit v n b).getLsbD k = if k = n then b else v.getLsbD k := by
  have hone : ∀ k, (1#w <<< n).getLsbD k = decide (k = n) := by
    intro k
    rw [← BitVec.twoPow_eq, BitVec.getLsbD_twoPow]
    by_cases hk : k = n
    · subst hk; simp [hn]
    · simp [hk, Ne.symm hk]
  unfold putBit
  cases b <;> by_cases hk : k = n
  · subst hk; simp [hone]
  · simp only [Bool.false_eq_true, if_false, hk, BitVec.getLsbD_and, BitVec.getLsbD_not, hone]
    simp only [decide_false, Bool.not_false, Bool.and_true]
    by_cases hkw : k < w
    · simp [hkw]
    · simp [hkw, BitVec.getLsbD_of_ge v k (by omega)]
  · subst hk; simp [hone]
  · simp [hone, hk]

/-- Masking a register with a mask that leaves bit `n` out does not see a write of bit `n`. -/
theorem putBit_and_of_bit_clear {w : Nat} (v m : BitVec w) (n : Nat) (b : Bool) (hn : n < w) (hm : m.getLsbD n = false) :
    putBit v n b &&& m = v &&& m := by
  apply BitVec.eq_of_getLsbD_eq
  intro k _
  rw [BitVec.getLsbD_and, BitVec.getLsbD_and, putBit_getLsbD v n k b hn]
  by_cases hk : k = n
  · subst hk; simp [hm]
  · simp [hk]

/-- A class is pending after another's bit is written exactly when it was before. -/
theorem pending_putBit (v : BitVec 16) (c k : StatusClass) (b : Bool) :
    (putBit v c.bit b).getLsbD k.bit = if k = c then b else v.getLsbD k.bit := by
  rw [putBit_getLsbD _ _ _ _ (by cases c <;> decide)]
  cases c <;> cases k <;> simp [StatusClass.bit]

@[simp] theorem State.raise_pending (s : State) (c k : StatusClass) :
    (s.raise c).pending k = (decide (k = c) || s.pending k) := by
  unfold State.pending State.raise
  rw [pending_putBit]
  by_cases h : k = c <;> simp [h]

@[simp] theorem State.clear_pending (s : State) (c k : StatusClass) :
    (s.clear c).pending k = (!decide (k = c) && s.pending k) := by
  unfold State.pending State.clear
  rw [pending_putBit]
  by_cases h : k = c <;> simp [h]

@[simp] theorem State.ownershipViolation_pending (s : State) (k : StatusClass) :
    s.ownershipViolation.pending k = (decide (k = .error) || s.pending k) :=
  State.raise_pending s .error k

/-! ### Directions and descriptors of an endpoint -/

@[simp] theorem Endpoint.setChannel_channel (x : Endpoint) (d k : Dir) (c : Channel) :
    (x.setChannel d c).channel k = if k = d then c else x.channel k := by
  cases d <;> cases k <;> rfl

@[simp] theorem Endpoint.setChannel_epctl (x : Endpoint) (d : Dir) (c : Channel) :
    (x.setChannel d c).epctl = x.epctl := by cases d <;> rfl

@[simp] theorem Endpoint.setChannel_epfunc (x : Endpoint) (d : Dir) (c : Channel) :
    (x.setChannel d c).epfunc = x.epfunc := by cases d <;> rfl

@[simp] theorem Channel.setBd_bd (c : Channel) (i k : Bool) (b : Descriptor) :
    (c.setBd i b).bd k = if k = i then b else c.bd k := by
  cases i <;> cases k <;> rfl

@[simp] theorem Channel.setBd_pipe (c : Channel) (i : Bool) (b : Descriptor) : (c.setBd i b).pipe = c.pipe := by
  cases i <;> rfl

@[simp] theorem Channel.setBd_engPp (c : Channel) (i : Bool) (b : Descriptor) : (c.setBd i b).engPp = c.engPp := by
  cases i <;> rfl
@[simp] theorem Channel.setBd_held (c : Channel) (i : Bool) (b : Descriptor) : (c.setBd i b).held = c.held := by
  cases i <;> rfl

@[simp] theorem Channel.setBd_fetched (c : Channel) (i k : Bool) (b : Descriptor) :
    (c.setBd i b).fetched k = c.fetched k := by
  cases i <;> cases k <;> rfl

@[simp] theorem Channel.setFetched_bd (c : Channel) (i k : Bool) (l : List (Nat × Byte)) :
    (c.setFetched i l).bd k = c.bd k := by
  cases i <;> cases k <;> rfl

@[simp] theorem Channel.setFetched_pipe (c : Channel) (i : Bool) (l : List (Nat × Byte)) :
    (c.setFetched i l).pipe = c.pipe := by
  cases i <;> rfl

@[simp] theorem Channel.setFetched_engPp (c : Channel) (i : Bool) (l : List (Nat × Byte)) :
    (c.setFetched i l).engPp = c.engPp := by
  cases i <;> rfl
@[simp] theorem Channel.setFetched_held (c : Channel) (i : Bool) (l : List (Nat × Byte)) :
    (c.setFetched i l).held = c.held := by
  cases i <;> rfl

@[simp] theorem Channel.setFetched_fetched (c : Channel) (i k : Bool) (l : List (Nat × Byte)) :
    (c.setFetched i l).fetched k = if k = i then l else c.fetched k := by
  cases i <;> cases k <;> rfl

@[simp] theorem Channel.withPipe_bd (c : Channel) (q : Pipe) (i : Bool) : ({ c with pipe := q } : Channel).bd i = c.bd i := by
  cases i <;> rfl

@[simp] theorem Channel.withPipe_fetched (c : Channel) (q : Pipe) (i : Bool) :
    ({ c with pipe := q } : Channel).fetched i = c.fetched i := by
  cases i <;> rfl

/-- Two pipes are equal when their parts are. -/
theorem Channel.ext_parts {c c' : Channel} (hp : c.pipe = c'.pipe) (hb : ∀ i, c.bd i = c'.bd i) (he : c.engPp = c'.engPp)
    (hh : c.held = c'.held) (hf : ∀ i, c.fetched i = c'.fetched i) : c = c' := by
  cases c; cases c'
  have b0 := hb false; have b1 := hb true; have f0 := hf false; have f1 := hf true
  simp only [Channel.bd, Channel.fetched, if_true, if_false, Bool.false_eq_true] at *
  subst hp b0 b1 he hh f0 f1
  rfl

/-! ### The endpoint table -/

@[simp] theorem State.setEndpoint_numEp (s : State) (e : Nat) (x : Endpoint) : (s.setEndpoint e x).numEp = s.numEp := by
  simp [State.numEp, State.setEndpoint]

@[simp] theorem State.setChannel_numEp (s : State) (e : Nat) (d : Dir) (c : Channel) :
    (s.setChannel e d c).numEp = s.numEp := by
  simp [State.setChannel]

/-- Reading an endpoint after one that exists is written. -/
theorem State.setEndpoint_endpoint (s : State) (e k : Nat) (x : Endpoint) (h : e < s.numEp) :
    (s.setEndpoint e x).endpoint k = if k = e then x else s.endpoint k := by
  unfold State.numEp at h
  simp only [State.endpoint, State.setEndpoint, List.getD_eq_getElem?_getD, List.getElem?_set]
  by_cases hk : k = e
  · subst hk; simp [h]
  · simp [hk, Ne.symm hk]

/-- Writing an endpoint that does not exist writes nothing. -/
theorem State.setEndpoint_of_absent (s : State) (e : Nat) (x : Endpoint) (h : s.numEp ≤ e) : s.setEndpoint e x = s := by
  unfold State.numEp at h
  simp [State.setEndpoint, List.set_eq_of_length_le h]

/-- Writing an endpoint back writes nothing. -/
@[simp] theorem State.setEndpoint_endpoint_self (s : State) (e : Nat) : s.setEndpoint e (s.endpoint e) = s := by
  by_cases h : e < s.numEp
  · unfold State.numEp at h
    simp [State.setEndpoint, State.endpoint, List.getD_eq_getElem?_getD, h]
  · exact State.setEndpoint_of_absent s e _ (by omega)

/-- Reading a pipe after one that exists is written. -/
theorem State.setChannel_channel (s : State) (e k : Nat) (d d' : Dir) (c : Channel) (h : e < s.numEp) :
    (s.setChannel e d c).channel k d' = if k = e ∧ d' = d then c else s.channel k d' := by
  unfold State.setChannel State.channel
  rw [State.setEndpoint_endpoint s e k _ h]
  by_cases hk : k = e
  · subst hk; by_cases hd : d' = d <;> simp [hd]
  · simp [hk]

/-- Reading the pipe just written. -/
theorem State.setChannel_channel_same (s : State) (e : Nat) (d : Dir) (c : Channel) (h : e < s.numEp) :
    (s.setChannel e d c).channel e d = c := by
  simp [State.setChannel_channel s e e d d c h]

/-- Writing a pipe back writes nothing. -/
@[simp] theorem State.setChannel_channel_self (s : State) (e : Nat) (d : Dir) : s.setChannel e d (s.channel e d) = s := by
  have h : (s.endpoint e).setChannel d (s.channel e d) = s.endpoint e := by
    cases d <;> simp [State.channel, Endpoint.channel, Endpoint.setChannel]
  rw [State.setChannel, h, State.setEndpoint_endpoint_self]

/-- A pipe write leaves `EPCTL` and `EPFUNC` alone. -/
@[simp] theorem State.setChannel_epctl (s : State) (e k : Nat) (d : Dir) (c : Channel) :
    (s.setChannel e d c).epctl k = s.epctl k := by
  by_cases h : e < s.numEp
  · unfold State.epctl State.setChannel
    rw [State.setEndpoint_endpoint s e k _ h]
    by_cases hk : k = e <;> simp [hk]
  · rw [State.setChannel, State.setEndpoint_of_absent s e _ (by omega)]

@[simp] theorem State.setChannel_epfunc (s : State) (e k : Nat) (d : Dir) (c : Channel) :
    (s.setChannel e d c).epfunc k = s.epfunc k := by
  by_cases h : e < s.numEp
  · unfold State.epfunc State.setChannel
    rw [State.setEndpoint_endpoint s e k _ h]
    by_cases hk : k = e <;> simp [hk]
  · rw [State.setChannel, State.setEndpoint_of_absent s e _ (by omega)]

/-- A pipe after a pipe write: the one written, or as before. No existence is assumed. -/
theorem State.setChannel_channel_cases (s : State) (e k : Nat) (d d' : Dir) (c : Channel) :
    (s.setChannel e d c).channel k d' = s.channel k d' ∨
      (k = e ∧ d' = d ∧ e < s.numEp ∧ (s.setChannel e d c).channel k d' = c) := by
  by_cases h : e < s.numEp
  · rw [State.setChannel_channel s e k d d' c h]
    by_cases hk : k = e ∧ d' = d
    · right; simp [hk, h]
    · left; simp [hk]
  · left; rw [State.setChannel, State.setEndpoint_of_absent s e _ (by omega)]

/-- A property of every pipe survives a write of a pipe that has it. -/
theorem State.setChannel_all {P : Nat → Dir → Channel → Prop} {s : State} {e : Nat} {d : Dir} {c : Channel}
    (hs : ∀ k d', P k d' (s.channel k d')) (hc : P e d c) (k : Nat) (d' : Dir) :
    P k d' ((s.setChannel e d c).channel k d') := by
  rcases State.setChannel_channel_cases s e k d d' c with h | ⟨rfl, rfl, _, h⟩ <;> rw [h]
  · exact hs k d'
  · exact hc

/-- A property of every endpoint survives a write of an endpoint that has it. -/
theorem State.setEndpoint_all {P : Nat → Endpoint → Prop} {s : State} {e : Nat} {x : Endpoint}
    (hs : ∀ k, P k (s.endpoint k)) (hx : P e x) (k : Nat) : P k ((s.setEndpoint e x).endpoint k) := by
  by_cases h : e < s.numEp
  · rw [State.setEndpoint_endpoint s e k x h]
    by_cases hk : k = e
    · subst hk; simpa using hx
    · simpa [hk] using hs k
  · rw [State.setEndpoint_of_absent s e x (by omega)]; exact hs k

/-- A table of power-on endpoints holds one at every index. -/
theorem endpoint_powerOn_table (n e : Nat) :
    ((List.range n).map Endpoint.powerOn).getD e (Endpoint.powerOn e) = Endpoint.powerOn e := by
  rw [List.getD_eq_getElem?_getD, List.getElem?_map]
  by_cases h : e < n
  · simp [h]
  · simp [List.getElem?_eq_none (by simpa using h : (List.range n).length ≤ e)]

@[simp] theorem State.powerOn_endpoint (n : Nat) (p : Params) (e : Nat) :
    (State.powerOn n p).endpoint e = Endpoint.powerOn e := endpoint_powerOn_table n e

@[simp] theorem State.powerOn_channel (n : Nat) (p : Params) (e : Nat) (d : Dir) :
    (State.powerOn n p).channel e d = Channel.powerOn := by
  unfold State.channel
  rw [State.powerOn_endpoint]
  cases d <;> rfl

/-! ### Ending a command -/

theorem State.inRange_of_lt {s : State} {ep : Nat} (body : State) (h : ep < s.numEp) : s.inRange ep body = body := by
  simp [State.inRange, h]

theorem State.inRange_of_le {s : State} {ep : Nat} (body : State) (h : s.numEp ≤ ep) :
    s.inRange ep body = s.fail .range := by
  simp [State.inRange, Nat.not_lt.mpr h]

end Sys2Proof.Machine
end

