-- ==== Sys2Proof/Laws/Frames.lean ====
section
/-! SUPPORT. The frames of a pipe write, for any state that shares the written tables. -/

namespace Sys2Proof.Machine

/-- The tables alone decide every pipe. -/
theorem State.channel_of_eps {s t : State} (h : t.eps = s.eps) (e : Nat) (d : Dir) : t.channel e d = s.channel e d := by
  unfold State.channel State.endpoint
  rw [h]

/-- A state with the tables of a pipe write has the written pipe there. -/
theorem channel_of_setChannel {s t : State} {ep : Nat} {dir : Dir} {c : Channel} (h : ep < s.numEp)
    (ht : t.eps = (s.setChannel ep dir c).eps) : t.channel ep dir = c := by
  rw [State.channel_of_eps ht, State.setChannel_channel_same _ _ _ _ h]

/-- A state with the tables of a pipe write keeps every other pipe and every endpoint register. -/
theorem keepsOtherPipes_of_setChannel {s t : State} {ep : Nat} {dir : Dir} {c : Channel} (h : ep < s.numEp)
    (ht : t.eps = (s.setChannel ep dir c).eps) : keepsOtherPipes s t ep dir := by
  refine ⟨?_, ?_, ?_⟩
  · rw [← State.setChannel_numEp s ep dir c]
    unfold State.numEp
    rw [ht]
  · intro e d hne
    rw [State.channel_of_eps ht, State.setChannel_channel _ _ _ _ _ _ h, if_neg (by tauto)]
  · intro e
    rw [← State.setChannel_epctl s ep e dir c, ← State.setChannel_epfunc s ep e dir c]
    unfold State.epctl State.epfunc State.endpoint
    rw [ht]
    exact ⟨rfl, rfl⟩

end Sys2Proof.Machine
end

