-- ==== Sys2Proof/Laws/Memory.lean ====
section
/-! SUPPORT. Buffer memory: reading after writing, and that every operation keeps the canonical form. -/

namespace Sys2Proof.Machine

/-- The byte last written stands; every other address is as before. -/
theorem Memory.lookup_write (m : List Host.Cell) (a k : Nat) (v : Byte) (hm : Memory.wf m) :
    Memory.lookup (Memory.write m a v) k = if k = a then some v else Memory.lookup m k := by
  induction m with
  | nil => by_cases h : k = a <;> simp [Memory.write, Memory.lookup, h]
  | cons c m ih =>
    obtain ⟨b, w⟩ := c
    obtain ⟨hb, hrest⟩ := List.pairwise_cons.mp hm
    unfold Memory.write
    by_cases h1 : a < b
    · by_cases h : k = a <;> simp [h1, Memory.lookup, h]
    · by_cases h2 : a = b
      · subst h2
        by_cases h : k = a <;> simp [Memory.lookup, h]
      · simp only [h1, h2, if_false, Memory.lookup, ih hrest]
        by_cases h : k = b
        · subst h; simp [Ne.symm h2]
        · simp [h]

/-- The cells of a memory after a write: the new one, or one of the old. -/
theorem Memory.mem_write {m : List Host.Cell} {a : Nat} {v : Byte} {c : Host.Cell} (h : c ∈ Memory.write m a v) :
    c = (a, v) ∨ c ∈ m := by
  induction m with
  | nil => simpa [Memory.write] using h
  | cons d m ih =>
    obtain ⟨b, w⟩ := d
    unfold Memory.write at h
    by_cases h1 : a < b
    · simpa [h1] using h
    · by_cases h2 : a = b
      · subst h2
        simp only [Nat.lt_irrefl, if_true, if_false] at h
        rcases List.mem_cons.mp h with h | h
        · exact .inl h
        · right; exact List.mem_cons_of_mem _ h
      · simp only [h1, h2, if_false] at h
        rcases List.mem_cons.mp h with h | h
        · right; simp [h]
        · rcases ih h with h | h
          · exact .inl h
          · exact .inr (List.mem_cons_of_mem _ h)

/-- A write keeps the canonical form. -/
theorem Memory.write_wf (m : List Host.Cell) (a : Nat) (v : Byte) (hm : Memory.wf m) : Memory.wf (Memory.write m a v) := by
  induction m with
  | nil => simp [Memory.write]
  | cons c m ih =>
    obtain ⟨b, w⟩ := c
    obtain ⟨hb, hrest⟩ := List.pairwise_cons.mp hm
    unfold Memory.write
    by_cases h1 : a < b
    · simp only [h1, if_true]
      refine List.pairwise_cons.mpr ⟨?_, hm⟩
      intro x hx
      rcases List.mem_cons.mp hx with rfl | hx
      · exact h1
      · exact Nat.lt_trans h1 (hb x hx)
    · by_cases h2 : a = b
      · subst h2
        simp only [Nat.lt_irrefl, if_true, if_false]
        exact List.pairwise_cons.mpr ⟨hb, hrest⟩
      · simp only [h1, h2, if_false]
        refine List.pairwise_cons.mpr ⟨?_, ih hrest⟩
        intro x hx
        rcases Memory.mem_write hx with rfl | hx
        · exact Nat.lt_of_le_of_ne (Nat.not_lt.mp h1) (Ne.symm h2)
        · exact hb x hx

/-- A run of writes keeps the canonical form. -/
theorem Memory.writeBytes_wf (vs : List Byte) (m : List Host.Cell) (a : Nat) (hm : Memory.wf m) :
    Memory.wf (Memory.writeBytes m a vs) := by
  induction vs generalizing m a with
  | nil => exact hm
  | cons v vs ih => exact ih _ _ (Memory.write_wf m a v hm)

/-- The cells of a memory after a run of writes from `a`: old ones, or within the run. -/
theorem Memory.mem_writeBytes {vs : List Byte} {m : List Host.Cell} {a : Nat} {c : Host.Cell}
    (h : c ∈ Memory.writeBytes m a vs) : c ∈ m ∨ (a ≤ c.1 ∧ c.1 < a + vs.length) := by
  induction vs generalizing m a with
  | nil => exact .inl h
  | cons v vs ih =>
    rcases ih h with h | ⟨h1, h2⟩
    · rcases Memory.mem_write h with rfl | h
      · right; simp
      · exact .inl h
    · right; simp only [List.length_cons]; omega

/-- Reading after a run of writes from `a`: the byte of the run, or the byte from before. -/
theorem Memory.lookup_writeBytes (vs : List Byte) (m : List Host.Cell) (a k : Nat) (hm : Memory.wf m) :
    Memory.lookup (Memory.writeBytes m a vs) k =
      if a ≤ k ∧ k < a + vs.length then vs[k - a]? else Memory.lookup m k := by
  induction vs generalizing m a with
  | nil => simp [Memory.writeBytes]
  | cons v vs ih =>
    rw [Memory.writeBytes, ih _ _ (Memory.write_wf m a v hm), Memory.lookup_write m a k v hm, List.length_cons]
    by_cases hk : k = a
    · subst hk; simp
    · rw [if_neg hk]
      by_cases h1 : a + 1 ≤ k ∧ k < a + 1 + vs.length
      · rw [if_pos h1, if_pos (by omega)]
        obtain ⟨j, rfl⟩ : ∃ j, k = a + 1 + j := ⟨k - (a + 1), by omega⟩
        simp [show a + 1 + j - a = j + 1 by omega]
      · rw [if_neg h1, if_neg (by omega)]

/-- A byte outside a run of writes reads as before. -/
theorem Memory.byteAt_writeBytes_outside (vs : List Byte) (m : List Host.Cell) (a k : Nat) (hm : Memory.wf m)
    (h : k < a ∨ a + vs.length ≤ k) : Memory.byteAt (Memory.writeBytes m a vs) k = Memory.byteAt m k := by
  unfold Memory.byteAt
  rw [Memory.lookup_writeBytes vs m a k hm, if_neg (by omega)]

end Sys2Proof.Machine
end

