-- ==== Sys2Proof/Laws/Engine.lean ====
section
/-! SUPPORT. When the engine completes a packet, accepts a SETUP or answers otherwise, and everything one of its steps can do. -/

namespace Sys2Proof.Machine

/-! ### Conditions -/

/-- A direction is enabled, in the bits of `EPCTL` (R220). -/
theorem State.dirEnabled_iff (s : State) (e : Nat) (d : Dir) :
    s.dirEnabled e d = true ↔
      e < s.numEp ∧ (s.epctl e).getLsbD (match d with | .tx => 1 | .rx => 2) = true ∧ (s.epctl e).getLsbD 4 = true := by
  unfold State.dirEnabled epctlTxen epctlRxen epctlHshk
  cases d <;> simp [and_assoc]

theorem State.cqFull_iff (s : State) : s.cqFull = true ↔ s.params.statFifoDepth ≤ s.cq.length := by
  simp [State.cqFull]

/-- When an acknowledged IN is a completion (R220). -/
theorem State.answerIn_complete_iff (s : State) (e : Nat) (acked : Bool) :
    s.answerIn e acked = .complete ↔
      s.dirEnabled e .tx = true ∧ (s.engineBd e .tx).uown = .hw ∧ (s.engineBd e .tx).stall = false ∧ s.cqFull = false ∧
        acked = true := by
  unfold State.answerIn
  cases h1 : s.dirEnabled e .tx <;> cases h2 : (s.engineBd e .tx).uown <;> cases h3 : (s.engineBd e .tx).stall <;>
    cases h4 : s.cqFull <;> cases acked <;> simp [h2, h3]

/-- When an OUT packet is a completion (R220). -/
theorem State.answerOut_complete_iff (s : State) (e : Nat) (tog : Bool) (n : Nat) :
    s.answerOut e tog n = .complete ↔
      s.dirEnabled e .rx = true ∧ (s.engineBd e .rx).uown = .hw ∧ (s.engineBd e .rx).stall = false ∧ s.cqFull = false ∧
        tog = (s.engineBd e .rx).tog ∧ n ≤ (s.engineBd e .rx).bc.toNat := by
  unfold State.answerOut
  by_cases h6 : n ≤ (s.engineBd e .rx).bc.toNat <;>
    cases h1 : s.dirEnabled e .rx <;> cases h2 : (s.engineBd e .rx).uown <;> cases h3 : (s.engineBd e .rx).stall <;>
    cases h4 : s.cqFull <;> by_cases h5 : tog = (s.engineBd e .rx).tog <;>
    simp [h2, h3, h5, h6, Nat.not_lt.mpr, Nat.lt_of_not_le]

/-- When a SETUP is accepted (R221). -/
theorem State.answerSetup_accept_iff (s : State) :
    s.answerSetup = .accept ↔
      s.dirEnabled 0 .rx = true ∧ (s.epctl 0).getLsbD 3 = false ∧ (s.engineBd 0 .rx).uown = .hw ∧
        8 ≤ (s.engineBd 0 .rx).bc.toNat ∧ s.cqFull = false := by
  unfold State.answerSetup epctlCondis
  simp [Config.setupLen, and_assoc]

/-- A stall-armed descriptor on an enabled direction answers STALL while `CQ` has room (R222, R260). -/
theorem State.answerIn_stall {s : State} {e : Nat} (acked : Bool) (h0 : s.cqFull = false) (h1 : s.dirEnabled e .tx = true)
    (h2 : (s.engineBd e .tx).uown = .hw) (h3 : (s.engineBd e .tx).stall = true) :
    s.answerIn e acked = .stallHandshake := by
  simp [State.answerIn, h0, h1, h2, h3]

theorem State.answerOut_stall {s : State} {e : Nat} (tog : Bool) (n : Nat) (h0 : s.cqFull = false) (h1 : s.dirEnabled e .rx = true)
    (h2 : (s.engineBd e .rx).uown = .hw) (h3 : (s.engineBd e .rx).stall = true) :
    s.answerOut e tog n = .stallHandshake := by
  simp [State.answerOut, h0, h1, h2, h3]

/-- Any other answer than a completion or a handshake leaves the state alone. -/
theorem State.afterAnswer_cases (s : State) (a : Answer) : s.afterAnswer a = s ∨ s.afterAnswer a = s.raise .stall := by
  cases a <;> simp [State.afterAnswer]

theorem State.afterAnswer_of_ne {s : State} {a : Answer} (h : a ≠ .stallHandshake) : s.afterAnswer a = s := by
  cases a <;> simp [State.afterAnswer] at h ⊢

/-! ### Returning a descriptor -/

/-- The pipe after the engine returns the descriptor it serves: that descriptor and the pointer change. -/
def Channel.returned (c : Channel) (f : Descriptor → Descriptor) : Channel :=
  { c.setBd c.engPp { f (c.bd c.engPp) with uown := .sw } with engPp := !c.engPp }

@[simp] theorem Channel.returned_pipe (c : Channel) (f : Descriptor → Descriptor) : (c.returned f).pipe = c.pipe := by
  simp [Channel.returned]

@[simp] theorem Channel.returned_engPp (c : Channel) (f : Descriptor → Descriptor) : (c.returned f).engPp = !c.engPp := rfl

@[simp] theorem Channel.returned_held (c : Channel) (f : Descriptor → Descriptor) : (c.returned f).held = c.held := by
  simp [Channel.returned]

@[simp] theorem Channel.returned_bd (c : Channel) (f : Descriptor → Descriptor) (i : Bool) :
    (c.returned f).bd i = if i = c.engPp then { f (c.bd c.engPp) with uown := .sw } else c.bd i := by
  unfold Channel.returned
  exact Channel.setBd_bd ..

theorem State.engineReturn_eq (s : State) (e : Nat) (d : Dir) (f : Descriptor → Descriptor) :
    s.engineReturn e d f =
      { s.setChannel e d ((s.channel e d).returned f) with cq := s.cq ++ [{ ep := e, dir := d, pp := s.engPp e d }] } := rfl

/-! ### What the host is sent -/

theorem State.txData_length (s : State) (e : Nat) (i : Bool) : (s.txData e i).length = (s.bd e .tx i).bc.toNat := by
  unfold State.txData
  rw [List.length_map, List.length_range]
  rfl

theorem State.txData_getElem? {s : State} {e k : Nat} {i : Bool} (hk : k < (s.bd e .tx i).bc.toNat) :
    (s.txData e i)[k]? = some (s.txByte e i k) := by
  unfold State.txData
  rw [List.getElem?_map, List.getElem?_range (show k < ((s.channel e .tx).bd i).bc.toNat from hk)]
  rfl

/-- A byte the engine has not read ahead, under no engine-owned receive descriptor, is sent as buffer memory holds it. -/
theorem State.txByte_of_unread {s : State} {e k : Nat} {i : Bool} (hf : ((s.channel e .tx).fetched i).lookup k = none)
    (hu : s.underRx ((s.bd e .tx i).addr + k) = false) :
    s.txByte e i k = Memory.byteAt s.mem ((s.bd e .tx i).addr + k) := by
  unfold State.txByte State.readByte
  simp only [hf, Option.getD_none]
  exact if_neg (by rw [show ((s.channel e .tx).bd i) = s.bd e .tx i from rfl, hu]; exact Bool.false_ne_true)

/-- A byte the engine has read ahead is sent as it was then. -/
theorem State.txByte_of_fetched {s : State} {e k : Nat} {i : Bool} {v : Byte}
    (hf : ((s.channel e .tx).fetched i).lookup k = some v) : s.txByte e i k = v := by
  unfold State.txByte
  simp only [hf, Option.getD_some]

/-! ### Everything an engine step can do -/

theorem onBuffer_next {p : Params} {b : Descriptor} {s t : State} (h : onBuffer p b s = .next t) :
    t = s ∧ b.addr + b.bc.toNat ≤ 2 ^ p.addrBits := by
  unfold onBuffer Descriptor.wraps at h
  by_cases hw : 2 ^ p.addrBits < b.addr + b.bc.toNat
  · simp [hw] at h
  · simp [hw] at h
    exact ⟨h.symm, by omega⟩

theorem onBuffer_of_fits {p : Params} {b : Descriptor} {s : State} (h : b.addr + b.bc.toNat ≤ 2 ^ p.addrBits) :
    onBuffer p b s = .next s := by
  unfold onBuffer Descriptor.wraps
  simp [Nat.not_lt.mpr h]

/-- A host transaction or an early read: no change, a STALL handshake, a completion, an accepted SETUP, or a byte read ahead. -/
theorem engineStep_cases {x : Input} {s t : State} (hx : x.isEngine = true) (h : runInput x s = .next t) :
    t = s ∨ t = s.raise .stall ∨
    (∃ e, e < s.numEp ∧ (s.engineBd e .tx).uown = .hw ∧ (s.engineBd e .tx).stall = false ∧
      s.cq.length < s.params.statFifoDepth ∧ t = s.completeIn e) ∨
    (∃ e data, e < s.numEp ∧ (s.engineBd e .rx).uown = .hw ∧ (s.engineBd e .rx).stall = false ∧
      s.cq.length < s.params.statFifoDepth ∧ data.length ≤ (s.engineBd e .rx).bc.toNat ∧
      (s.engineBd e .rx).addr + (s.engineBd e .rx).bc.toNat ≤ 2 ^ s.params.addrBits ∧ t = s.completeOut e data) ∨
    (∃ q, 0 < s.numEp ∧ (s.engineBd 0 .rx).uown = .hw ∧ s.cq.length < s.params.statFifoDepth ∧
      8 ≤ (s.engineBd 0 .rx).bc.toNat ∧
      (s.engineBd 0 .rx).addr + (s.engineBd 0 .rx).bc.toNat ≤ 2 ^ s.params.addrBits ∧ t = s.acceptSetup q) ∨
    (∃ e i l n, t = { s.setChannel e .tx ((s.channel e .tx).setFetched i l) with freeCtr := n }) := by
  have hfull : s.cqFull = false → s.cq.length < s.params.statFifoDepth := fun hf => by
    by_contra hc
    rw [(State.cqFull_iff s).mpr (by omega)] at hf
    cases hf
  have other : ∀ a, t = s.afterAnswer a → t = s ∨ t = s.raise .stall := fun a ha => by
    rcases State.afterAnswer_cases s a with h' | h' <;> rw [ha, h']
    · exact .inl rfl
    · exact .inr rfl
  cases x with
  | inToken e acked =>
    simp only [runInput, stepIn] at h
    by_cases ha : s.answerIn e acked = .complete
    · rw [if_pos ha] at h
      obtain ⟨h1, h2, h3, h4, -⟩ := (State.answerIn_complete_iff ..).mp ha
      exact .inr (.inr (.inl ⟨e, ((State.dirEnabled_iff ..).mp h1).1, h2, h3, hfull h4, (onBuffer_next h).1⟩))
    · rw [if_neg ha] at h
      rcases other _ (Host.Outcome.next.inj h).symm with h' | h'
      · exact .inl h'
      · exact .inr (.inl h')
  | outPacket e tog data =>
    simp only [runInput, stepOut] at h
    by_cases ha : s.answerOut e tog data.length = .complete
    · rw [if_pos ha] at h
      obtain ⟨h1, h2, h3, h4, -, h6⟩ := (State.answerOut_complete_iff ..).mp ha
      exact .inr (.inr (.inr (.inl ⟨e, data, ((State.dirEnabled_iff ..).mp h1).1, h2, h3, hfull h4, h6, (onBuffer_next h).2,
        (onBuffer_next h).1⟩)))
    · rw [if_neg ha] at h
      rcases other _ (Host.Outcome.next.inj h).symm with h' | h'
      · exact .inl h'
      · exact .inr (.inl h')
  | setup q =>
    simp only [runInput, stepSetup] at h
    by_cases ha : s.answerSetup = .accept
    · rw [if_pos ha] at h
      obtain ⟨h1, -, h3, h4, h5⟩ := (State.answerSetup_accept_iff s).mp ha
      exact .inr (.inr (.inr (.inr (.inl ⟨q, ((State.dirEnabled_iff ..).mp h1).1, h3, hfull h5, h4, (onBuffer_next h).2,
        (onBuffer_next h).1⟩))))
    · rw [if_neg ha] at h
      rcases other _ (Host.Outcome.next.inj h).symm with h' | h'
      · exact .inl h'
      · exact .inr (.inl h')
  | txFetch e i k =>
    simp only [runInput, stepTxFetch] at h
    by_cases ha : s.mayFetch e i k = true
    · rw [if_pos ha] at h
      exact .inr (.inr (.inr (.inr (.inr ⟨e, i, _, _, (onBuffer_next h).1⟩))))
    · rw [if_neg ha] at h
      exact .inl (Host.Outcome.next.inj h).symm
  | _ => cases hx

end Sys2Proof.Machine
end

