-- ==== Sys2Proof/Laws/PipeConfig.lean ====
section
/-! SUPPORT. What CONFIGURE, STALL, UNSTALL and FLUSH write, field by field. -/

namespace Sys2Proof.Machine

/-- Every bit of the value CONFIGURE writes to `EPCTL` (R110, R111). -/
theorem configuredEpctl_getLsbD (ep : Nat) (max : Count) (cfTx cfRx cfHshk : Bool) (v : Byte) (k : Nat) :
    (configuredEpctl ep max cfTx cfRx cfHshk v).getLsbD k =
      if k = 3 then !decide (ep = 0)
      else if k = 4 then decide (ep = 0) || cfHshk
      else if k = 1 then if cfTx then max != 0 else v.getLsbD 1
      else if k = 2 then if cfRx then max != 0 else v.getLsbD 2
      else v.getLsbD k := by
  unfold configuredEpctl epctlRxen epctlTxen epctlHshk epctlCondis
  by_cases h1 : k = 1 <;> by_cases h2 : k = 2 <;> cases cfTx <;> cases cfRx <;>
    simp (disch := decide) only [putBit_getLsbD, reduceIte, Bool.false_eq_true] <;> simp_all

/-- CONFIGURE leaves the reserved bits of `EPCTL` as they are. -/
theorem configuredEpctl_reserved (ep : Nat) (max : Count) (cfTx cfRx cfHshk : Bool) (v : Byte) :
    configuredEpctl ep max cfTx cfRx cfHshk v &&& 0xE1 = v &&& 0xE1 := by
  unfold configuredEpctl epctlRxen epctlTxen epctlHshk epctlCondis
  cases cfTx <;> cases cfRx <;> simp (disch := decide) only [putBit_and_of_bit_clear, reduceIte, Bool.false_eq_true]

@[simp] theorem Pipe.toIdle_buf (q : Pipe) : q.toIdle.buf = 0 := rfl
@[simp] theorem Pipe.toIdle_max (q : Pipe) : q.toIdle.max = q.max := rfl
@[simp] theorem Pipe.toIdle_size (q : Pipe) : q.toIdle.size = 0 := rfl
@[simp] theorem Pipe.toIdle_rem (q : Pipe) : q.toIdle.rem = 0 := rfl
@[simp] theorem Pipe.toIdle_cnt (q : Pipe) : q.toIdle.cnt = 0 := rfl
@[simp] theorem Pipe.toIdle_pp (q : Pipe) : q.toIdle.pp = q.pp := rfl
@[simp] theorem Pipe.toIdle_tog (q : Pipe) : q.toIdle.tog = q.tog := rfl
@[simp] theorem Pipe.toIdle_zeroPkt (q : Pipe) : q.toIdle.zeroPkt = false := rfl
@[simp] theorem Pipe.toIdle_sendZeroPkt (q : Pipe) : q.toIdle.sendZeroPkt = false := rfl

@[simp] theorem Channel.idled_pipe (c : Channel) : c.idled.pipe = c.pipe.toIdle := rfl
@[simp] theorem Channel.idled_engPp (c : Channel) : c.idled.engPp = c.engPp := rfl
@[simp] theorem Channel.idled_held (c : Channel) : c.idled.held = false := rfl
@[simp] theorem Channel.idled_bd (c : Channel) (i : Bool) : c.idled.bd i = c.bd i := by cases i <;> rfl

@[simp] theorem Channel.configured_bd (c : Channel) (max : Count) (i : Bool) : (c.configured max).bd i = c.bd i := by
  cases i <;> rfl
@[simp] theorem Channel.configured_engPp (c : Channel) (max : Count) : (c.configured max).engPp = c.engPp := rfl
@[simp] theorem Channel.configured_pipe (c : Channel) (max : Count) :
    (c.configured max).pipe = { c.pipe.toIdle with max := max, tog := false } := rfl

@[simp] theorem Channel.configured_held (c : Channel) (max : Count) : (c.configured max).held = false := rfl

@[simp] theorem Channel.flushed_bd (c : Channel) (i : Bool) : c.flushed.bd i = (c.bd i).flushed := by cases i <;> rfl
@[simp] theorem Channel.flushed_engPp (c : Channel) : c.flushed.engPp = c.engPp := rfl
@[simp] theorem Channel.flushed_held (c : Channel) : c.flushed.held = false := rfl
@[simp] theorem Channel.flushed_pipe (c : Channel) : c.flushed.pipe = { c.pipe.toIdle with pp := c.engPp } := rfl

/-- STALL leaves a descriptor the engine owns as it is. -/
theorem Descriptor.armStall_of_hw {b : Descriptor} (h : b.uown = .hw) : b.armStall = b := by simp [Descriptor.armStall, h]

/-- STALL arms a descriptor the block owns. -/
theorem Descriptor.armStall_of_sw {b : Descriptor} (h : b.uown = .sw) :
    b.armStall = { b with stall := true, uown := .hw } := by simp [Descriptor.armStall, h]

/-- CONFIGURE on an endpoint: each direction is as before or configured. -/
theorem Endpoint.configured_channel (x : Endpoint) (ep : Nat) (max : Count) (cfTx cfRx cfHshk : Bool) (d : Dir) :
    (x.configured ep max cfTx cfRx cfHshk).channel d = x.channel d ∨
      (x.configured ep max cfTx cfRx cfHshk).channel d = (x.channel d).configured max := by
  cases d <;> cases cfTx <;> cases cfRx <;> simp [Endpoint.configured, Endpoint.channel]

end Sys2Proof.Machine
end

