-- ==== Sys2Proof/Laws/Transfer.lean ====
section
/-! SUPPORT. What the packet scheduler, START and CompletePacket do to a pipe: everything they can answer, said once, and the
properties of a pipe they keep. -/

namespace Sys2Proof.Machine

/-! ### The hand-off -/

@[simp] theorem Channel.handOff_pipe (c : Channel) (a : Nat) (n : Count) :
    (c.handOff a n).pipe = { c.pipe with tog := !c.pipe.tog, pp := !c.pipe.pp } := by
  simp [Channel.handOff]

@[simp] theorem Channel.handOff_engPp (c : Channel) (a : Nat) (n : Count) : (c.handOff a n).engPp = c.engPp := by
  simp [Channel.handOff]

@[simp] theorem Channel.handOff_held (c : Channel) (a : Nat) (n : Count) : (c.handOff a n).held = c.held := by
  simp [Channel.handOff]

/-- A hand-off writes the descriptor at the ping-pong index and no other. -/
@[simp] theorem Channel.handOff_bd (c : Channel) (a : Nat) (n : Count) (i : Bool) :
    (c.handOff a n).bd i =
      if i = c.pipe.pp then { uown := .hw, stall := false, tog := c.pipe.tog, bc := n, addr := a, pid := .none } else c.bd i := by
  unfold Channel.handOff
  rw [Channel.withPipe_bd, Channel.setFetched_bd, Channel.setBd_bd]

/-- A hand-off forgets the bytes read for the descriptor it writes. -/
@[simp] theorem Channel.handOff_fetched (c : Channel) (a : Nat) (n : Count) (i : Bool) :
    (c.handOff a n).fetched i = if i = c.pipe.pp then [] else c.fetched i := by
  unfold Channel.handOff
  rw [Channel.withPipe_fetched, Channel.setFetched_fetched, Channel.setBd_fetched]

/-! ### The packet scheduler -/

theorem Channel.nextOwned_iff (c : Channel) : c.nextOwned = false ↔ (c.bd c.pipe.pp).uown = .sw := by
  unfold Channel.nextOwned
  cases (c.bd c.pipe.pp).uown <;> simp

/-- With data remaining, `QueueNext` hands off the next data packet (R145). -/
theorem Channel.queueNext_data (p : Params) {c : Channel} (hr : 0 < c.pipe.rem.toNat) (ho : c.nextOwned = false) :
    c.queueNext p = .queued ({ c with pipe := { c.pipe with
      rem := c.pipe.rem - BitVec.ofNat 16 c.pipe.packetLength,
      sendZeroPkt := c.pipe.sendZeroPkt ||
        (c.pipe.rem - BitVec.ofNat 16 c.pipe.packetLength == 0 && c.pipe.zeroPkt) } }.handOff
      (addrAdd p c.pipe.buf (c.pipe.size - c.pipe.rem).toNat) (BitVec.ofNat 10 c.pipe.packetLength)) := by
  unfold Channel.queueNext
  simp [hr, ho]

/-- With no data remaining and a zero-length packet pending, `QueueNext` hands that off (R145). -/
theorem Channel.queueNext_zlp (p : Params) {c : Channel} (hr : c.pipe.rem = 0) (hz : c.pipe.sendZeroPkt = true)
    (ho : c.nextOwned = false) :
    c.queueNext p = .queued ({ c with pipe := { c.pipe with sendZeroPkt := false } }.handOff
      (addrAdd p c.pipe.buf c.pipe.size.toNat) 0) := by
  unfold Channel.queueNext
  simp [hr, hz, ho]

/-- A packet due in a descriptor the engine owns is not queued (R145). -/
theorem Channel.queueNext_owned (p : Params) {c : Channel} (hd : c.pipe.packetDue = true) (ho : c.nextOwned = true) :
    c.queueNext p = .ownFail := by
  unfold Channel.queueNext
  by_cases hr : 0 < c.pipe.rem.toNat
  · simp [hr, ho]
  · have hz : c.pipe.sendZeroPkt = true := by simpa [Pipe.packetDue, hr] using hd
    simp [hr, ho, hz]

/-- The length of a data packet is at most what remains. -/
theorem Pipe.packetLength_le (q : Pipe) : q.packetLength ≤ q.rem.toNat := Nat.min_le_left _ _

theorem Pipe.packetLength_lt (q : Pipe) : q.packetLength < 1024 :=
  Nat.lt_of_le_of_lt (Nat.min_le_right _ _) q.max.isLt

/-- The bytes that remain after a data packet is handed off. -/
theorem Pipe.rem_after_packet (q : Pipe) :
    (q.rem - BitVec.ofNat 16 q.packetLength).toNat = q.rem.toNat - q.packetLength := by
  have h1 := q.packetLength_le
  have h2 := q.rem.isLt
  rw [BitVec.toNat_sub_of_le (by rw [BitVec.le_def, BitVec.toNat_ofNat]; omega), BitVec.toNat_ofNat]
  omega

/-- Everything a queued packet changes: one hand-off by a pipe that differs from the old one in `rem` and `send_0_pkt` only. -/
theorem Channel.queueNext_queued {p : Params} {c c' : Channel} (h : c.queueNext p = .queued c') :
    (c.bd c.pipe.pp).uown = .sw ∧ ∃ q a n, c' = { c with pipe := q }.handOff a n ∧
      q = { c.pipe with rem := q.rem, sendZeroPkt := q.sendZeroPkt } ∧
      ((0 < c.pipe.rem.toNat ∧ q.rem.toNat = c.pipe.rem.toNat - c.pipe.packetLength ∧
          q.sendZeroPkt = (c.pipe.sendZeroPkt || (q.rem == 0 && c.pipe.zeroPkt)) ∧
          a = addrAdd p c.pipe.buf (c.pipe.size - c.pipe.rem).toNat ∧ n = BitVec.ofNat 10 c.pipe.packetLength) ∨
        (c.pipe.rem = 0 ∧ c.pipe.sendZeroPkt = true ∧ q.rem = 0 ∧ q.sendZeroPkt = false ∧
          a = addrAdd p c.pipe.buf c.pipe.size.toNat ∧ n = 0)) := by
  rw [← Channel.nextOwned_iff]
  by_cases hr : 0 < c.pipe.rem.toNat
  · by_cases ho : c.nextOwned = true
    · rw [Channel.queueNext_owned p (by simp [Pipe.packetDue, hr]) ho] at h; cases h
    · have ho : c.nextOwned = false := by simpa using ho
      rw [Channel.queueNext_data p hr ho] at h
      cases h
      exact ⟨ho, _, _, _, rfl, rfl, .inl ⟨hr, c.pipe.rem_after_packet, rfl, rfl, rfl⟩⟩
  · have hr0 : c.pipe.rem = 0 := by
      apply BitVec.eq_of_toNat_eq
      simpa using hr
    by_cases hz : c.pipe.sendZeroPkt = true
    · by_cases ho : c.nextOwned = true
      · rw [Channel.queueNext_owned p (by simp [Pipe.packetDue, hz]) ho] at h; cases h
      · have ho : c.nextOwned = false := by simpa using ho
        rw [Channel.queueNext_zlp p hr0 hz ho] at h
        cases h
        exact ⟨ho, _, _, _, rfl, rfl, .inr ⟨hr0, hz, hr0, rfl, rfl, rfl⟩⟩
    · unfold Channel.queueNext at h
      simp [hr0, hz] at h

/-- What one queued packet does that every rule about a pipe needs: it keeps the engine's pointer, the hold and the descriptors the
engine owns. -/
theorem Channel.queueNext_keeps {p : Params} {c c' : Channel} (h : c.queueNext p = .queued c') :
    c'.engPp = c.engPp ∧ c'.held = c.held ∧ ∀ i, (c.bd i).uown = .hw → c'.bd i = c.bd i := by
  obtain ⟨hsw, q, a, n, rfl, hq, -⟩ := Channel.queueNext_queued h
  refine ⟨by simp, by simp, fun i hi => ?_⟩
  have hpp : q.pp = c.pipe.pp := by rw [hq]
  rw [Channel.handOff_bd]
  by_cases e : i = c.pipe.pp
  · subst e; rw [hsw] at hi; cases hi
  · simp [hpp, e]

/-- The pipe and descriptors after a data packet is queued (R145, R146). -/
theorem Channel.queueChecked_data (p : Params) {c : Channel} (hr : c.pipe.rem ≠ 0) (hle : c.pipe.rem.toNat ≤ c.pipe.size.toNat)
    (ho : (c.bd c.pipe.pp).uown = .sw) :
    let n := c.pipe.packetLength
    (c.queueChecked p).pipe = ⟨c.pipe.buf, c.pipe.max, c.pipe.size, BitVec.ofNat 16 (c.pipe.rem.toNat - n), c.pipe.cnt,
        !c.pipe.pp, !c.pipe.tog, c.pipe.zeroPkt, c.pipe.sendZeroPkt || (c.pipe.zeroPkt && decide (c.pipe.rem.toNat = n))⟩ ∧
      (c.queueChecked p).bd c.pipe.pp = ⟨.hw, false, c.pipe.tog, BitVec.ofNat 10 n,
        (c.pipe.buf + (c.pipe.size.toNat - c.pipe.rem.toNat)) % 2 ^ p.addrBits, .none⟩ ∧
      (c.queueChecked p).bd (!c.pipe.pp) = c.bd (!c.pipe.pp) ∧ (c.queueChecked p).engPp = c.engPp := by
  intro n
  have hr' : 0 < c.pipe.rem.toNat := Nat.pos_of_ne_zero fun h => hr (BitVec.eq_of_toNat_eq (by simpa using h))
  have hrem : c.pipe.rem - BitVec.ofNat 16 n = BitVec.ofNat 16 (c.pipe.rem.toNat - n) := by
    apply BitVec.eq_of_toNat_eq
    rw [c.pipe.rem_after_packet, BitVec.toNat_ofNat, Nat.mod_eq_of_lt (Nat.lt_of_le_of_lt (Nat.sub_le _ _) c.pipe.rem.isLt)]
  have hz : (BitVec.ofNat 16 (c.pipe.rem.toNat - n) == 0) = decide (c.pipe.rem.toNat = n) := by
    have h1 : n ≤ c.pipe.rem.toNat := c.pipe.packetLength_le
    have h2 := c.pipe.rem.isLt
    rw [beq_eq_decide]
    apply decide_eq_decide.mpr
    rw [← BitVec.toNat_inj, BitVec.toNat_ofNat, Nat.mod_eq_of_lt (by omega)]
    show c.pipe.rem.toNat - n = 0 ↔ _
    omega
  unfold Channel.queueChecked
  rw [Channel.queueNext_data p hr' ((Channel.nextOwned_iff c).mpr ho)]
  simp only [Channel.handOff_pipe, Channel.handOff_bd, Channel.handOff_engPp, if_true]
  rw [show c.pipe.packetLength = n from rfl, hrem, hz, Bool.and_comm (decide _)]
  refine ⟨rfl, ?_, ?_, trivial⟩
  · rw [BitVec.toNat_sub_of_le (by rw [BitVec.le_def]; exact hle)]; rfl
  · rw [if_neg (by cases c.pipe.pp <;> simp), Channel.withPipe_bd]

/-- The pipe and descriptors after the zero-length packet is queued (R145, R146). -/
theorem Channel.queueChecked_zlp (p : Params) {c : Channel} (hr : c.pipe.rem = 0) (hz : c.pipe.sendZeroPkt = true)
    (ho : (c.bd c.pipe.pp).uown = .sw) :
    (c.queueChecked p).pipe = ⟨c.pipe.buf, c.pipe.max, c.pipe.size, 0, c.pipe.cnt, !c.pipe.pp, !c.pipe.tog, c.pipe.zeroPkt, false⟩ ∧
      (c.queueChecked p).bd c.pipe.pp = ⟨.hw, false, c.pipe.tog, 0, (c.pipe.buf + c.pipe.size.toNat) % 2 ^ p.addrBits, .none⟩ ∧
      (c.queueChecked p).bd (!c.pipe.pp) = c.bd (!c.pipe.pp) ∧ (c.queueChecked p).engPp = c.engPp := by
  unfold Channel.queueChecked
  rw [Channel.queueNext_zlp p hr hz ((Channel.nextOwned_iff c).mpr ho)]
  simp only [Channel.handOff_pipe, Channel.handOff_bd, Channel.handOff_engPp, if_true]
  refine ⟨by rw [hr], rfl, ?_, trivial⟩
  rw [if_neg (by cases c.pipe.pp <;> simp), Channel.withPipe_bd]

/-! ### Properties the scheduler keeps -/

/-- A pipe and its descriptors are consistent (R53, R54), and a held transfer is busy with a packet due (R254). -/
structure Channel.Consistent (p : Params) (c : Channel) : Prop where
  pipe : c.pipe.Consistent p
  bds : ∀ i, (c.bd i).Consistent p
  hold : c.held = true → c.pipe.buf ≠ 0 ∧ c.pipe.packetDue = true

/-- A pipe and its descriptors name no buffer that reaches past the address space. -/
structure Channel.Fits (p : Params) (c : Channel) : Prop where
  remaining : c.pipe.rem.toNat ≤ c.pipe.size.toNat
  transfer : c.pipe.buf + c.pipe.size.toNat ≤ 2 ^ p.addrBits
  bds : ∀ i, (c.bd i).addr + (c.bd i).bc.toNat ≤ 2 ^ p.addrBits

theorem addrAdd_lt (p : Params) (a k : Nat) : addrAdd p a k < 2 ^ p.addrBits := Nat.mod_lt _ (Nat.two_pow_pos _)

/-- Queueing a packet of a busy pipe whose transfer is not held keeps it consistent. -/
theorem Channel.queueNext_consistent {p : Params} {c c' : Channel} (hb : c.pipe.buf ≠ 0) (hh : c.held = false) (hc : c.Consistent p)
    (h : c.queueNext p = .queued c') : c'.Consistent p := by
  obtain ⟨-, q, a, n, rfl, hq, hn⟩ := Channel.queueNext_queued h
  have hbuf : q.buf = c.pipe.buf := by rw [hq]
  have hmax : q.max = c.pipe.max := by rw [hq]
  have hsize : q.size = c.pipe.size := by rw [hq]
  have hzero : q.zeroPkt = c.pipe.zeroPkt := by rw [hq]
  have ha : a < 2 ^ p.addrBits := by rcases hn with ⟨-, -, -, rfl, -⟩ | ⟨-, -, -, -, rfl, -⟩ <;> exact addrAdd_lt ..
  constructor
  · rw [Channel.handOff_pipe]
    refine ⟨fun h0 => absurd (hbuf ▸ h0) hb, fun h0 => ?_, ?_, ?_, ?_⟩
    · exact absurd (hc.pipe.unconfigured (hmax ▸ h0)) hb
    · show q.rem.toNat ≤ q.size.toNat
      have hr := hc.pipe.remaining
      rw [hsize]
      rcases hn with ⟨-, h1, -⟩ | ⟨-, -, h1, -⟩
      · omega
      · simp [h1]
    · show q.buf < _
      rw [hbuf]; exact hc.pipe.bufWidth
    · intro hs
      show q.zeroPkt = true ∧ q.rem = 0
      have hs : q.sendZeroPkt = true := hs
      rw [hzero]
      rcases hn with ⟨h0, -, h1, -⟩ | ⟨-, -, -, h1, -⟩
      · rw [h1] at hs
        rcases Bool.or_eq_true _ _ ▸ hs with h2 | h2
        · have := (hc.pipe.due h2).2
          rw [this] at h0
          exact absurd h0 (by decide)
        · simpa [and_comm] using h2
      · rw [h1] at hs; cases hs
  · intro i
    rw [Channel.handOff_bd]
    split
    · exact ⟨ha, fun _ _ => rfl⟩
    · exact hc.bds i
  · intro h1
    rw [Channel.handOff_held] at h1
    rw [show ({ c with pipe := q } : Channel).held = c.held from rfl, hh] at h1
    cases h1

/-- Queueing a packet keeps every buffer within the address space. -/
theorem Channel.queueNext_fits {p : Params} {c c' : Channel} (hc : c.Fits p) (h : c.queueNext p = .queued c') :
    c'.Fits p := by
  obtain ⟨-, q, a, n, rfl, hq, hn⟩ := Channel.queueNext_queued h
  have hbuf : q.buf = c.pipe.buf := by rw [hq]
  have hsize : q.size = c.pipe.size := by rw [hq]
  have hrem := hc.remaining
  have hfit := hc.transfer
  have hlen := c.pipe.packetLength_le
  constructor
  · rw [Channel.handOff_pipe]
    show q.rem.toNat ≤ q.size.toNat
    rw [hsize]
    rcases hn with ⟨-, h1, -⟩ | ⟨-, -, h1, -⟩
    · omega
    · simp [h1]
  · rw [Channel.handOff_pipe]
    show q.buf + q.size.toNat ≤ _
    rw [hbuf, hsize]; exact hfit
  · intro i
    rw [Channel.handOff_bd]
    split
    · show a + n.toNat ≤ _
      rcases hn with ⟨h0, -, -, rfl, rfl⟩ | ⟨-, -, -, -, rfl, rfl⟩
      · have h2 := c.pipe.packetLength_lt
        rw [BitVec.toNat_ofNat, BitVec.toNat_sub_of_le (by rw [BitVec.le_def]; exact hrem)]
        unfold addrAdd
        rw [Nat.mod_eq_of_lt (by omega), Nat.mod_eq_of_lt (by omega)]
        omega
      · have := addrAdd_lt p c.pipe.buf c.pipe.size.toNat
        simp only [BitVec.toNat_ofNat, Nat.zero_mod, BitVec.ofNat_eq_ofNat]; omega
    · exact hc.bds i

/-- What `QueueNext` leaves where its caller checked ownership, for any property that one queued packet keeps. -/
theorem Channel.queueChecked_of {P : Channel → Prop} {p : Params} {c : Channel} (hc : P c)
    (hq : ∀ c', c.queueNext p = .queued c' → P c') : P (c.queueChecked p) := by
  unfold Channel.queueChecked
  split
  · exact hq _ ‹_›
  · exact hc
  · exact hc

/-! ### START -/

theorem startsTwo_iff (size : Size) (max : Count) (zlp : Bool) :
    startsTwo size max zlp = true ↔ (max.toNat < size.toNat ∨ (size.toNat = max.toNat ∧ zlp = true)) := by
  simp [startsTwo]

/-- START on an idle, configured pipe whose descriptors are free (R140): its packets are queued. -/
theorem Channel.start_ok {p : Params} {c : Channel} {buf : Nat} {size : Size} {force dts zlp : Bool} (hm : c.pipe.max ≠ 0)
    (hb : c.pipe.buf = 0) (ha : buf ≠ 0) (ho : (c.bd c.pipe.pp).uown = .sw)
    (ho' : startsTwo size c.pipe.max zlp = true → (c.bd (!c.pipe.pp)).uown = .sw) :
    c.start p buf size force dts zlp = .ok (if startsTwo size c.pipe.max zlp
        then ({ c with pipe := c.pipe.started buf size force dts zlp }.queueChecked p).queueChecked p
        else { c with pipe := c.pipe.started buf size force dts zlp }.queueChecked p) := by
  unfold Channel.start
  simp only
  have hm' : ¬ c.pipe.max.toNat = 0 := fun h => hm (BitVec.eq_of_toNat_eq (by simpa using h))
  have hbl : c.startBlocked (startsTwo size c.pipe.max zlp) = false := by
    unfold Channel.startBlocked
    rw [(Channel.nextOwned_iff c).mpr ho]
    by_cases h : startsTwo size c.pipe.max zlp = true
    · simp [ho' h]
    · simp [h]
  rw [if_neg hm', if_neg (by simpa using hb), if_neg ha, if_neg (by simp [hbl])]

/-- Everything START can answer on a pipe (R140): a failure in its order, or one or two queued packets. -/
theorem Channel.start_cases {p : Params} {c : Channel} {buf : Nat} {size : Size} {force dts zlp : Bool} {c' : Channel}
    (h : c.start p buf size force dts zlp = .ok c') :
    c.pipe.max.toNat ≠ 0 ∧ c.pipe.buf = 0 ∧ buf ≠ 0 ∧ c.startBlocked (startsTwo size c.pipe.max zlp) = false ∧
      c' = if startsTwo size c.pipe.max zlp
        then ({ c with pipe := c.pipe.started buf size force dts zlp }.queueChecked p).queueChecked p
        else { c with pipe := c.pipe.started buf size force dts zlp }.queueChecked p := by
  unfold Channel.start at h
  simp only at h
  split at h
  · cases h
  split at h
  · cases h
  split at h
  · cases h
  split at h
  · cases h
  rename_i h1 h2 h3 h4
  cases h
  exact ⟨h1, by simpa using h2, h3, by simpa using h4, rfl⟩

/-- A property of a pipe that setting up a transfer establishes and one queued packet keeps holds after START. -/
theorem Channel.start_of {P : Channel → Prop} {p : Params} {c : Channel} {buf : Nat} {size : Size} {force dts zlp : Bool}
    {c' : Channel} (h : c.start p buf size force dts zlp = .ok c')
    (h0 : P { c with pipe := c.pipe.started buf size force dts zlp })
    (hq : ∀ c1 c2 : Channel, P c1 → c1.queueNext p = .queued c2 → P c2) : P c' := by
  obtain ⟨-, -, -, -, rfl⟩ := Channel.start_cases h
  have h1 := Channel.queueChecked_of (p := p) h0 (fun c2 h2 => hq _ c2 h0 h2)
  split
  · exact Channel.queueChecked_of h1 (fun c2 h2 => hq _ c2 h1 h2)
  · exact h1

/-- One queued packet keeps the pipe's buffer. -/
theorem Channel.queueNext_buf {p : Params} {c c' : Channel} (h : c.queueNext p = .queued c') : c'.pipe.buf = c.pipe.buf := by
  obtain ⟨-, q, a, n, rfl, hq, -⟩ := Channel.queueNext_queued h
  rw [Channel.handOff_pipe]
  show q.buf = _
  rw [hq]

theorem Channel.start_keeps {p : Params} {c : Channel} {buf : Nat} {size : Size} {force dts zlp : Bool} {c' : Channel}
    (h : c.start p buf size force dts zlp = .ok c') :
    c'.engPp = c.engPp ∧ c'.held = c.held ∧ ∀ i, (c.bd i).uown = .hw → c'.bd i = c.bd i := by
  refine Channel.start_of
    (P := fun c' => c'.engPp = c.engPp ∧ c'.held = c.held ∧ ∀ i, (c.bd i).uown = .hw → c'.bd i = c.bd i) h
    ⟨rfl, rfl, fun i _ => Channel.withPipe_bd ..⟩ ?_
  rintro c1 c2 ⟨h1, h2, h3⟩ hq
  have hk := Channel.queueNext_keeps hq
  refine ⟨hk.1.trans h1, hk.2.1.trans h2, fun i hi => ?_⟩
  rw [hk.2.2 i (by rw [h3 i hi]; exact hi), h3 i hi]

/-- START keeps a pipe consistent, given a buffer address in its width. -/
theorem Channel.start_consistent {p : Params} {c : Channel} {buf : Nat} {size : Size} {force dts zlp : Bool} {c' : Channel}
    (h : c.start p buf size force dts zlp = .ok c') (hc : c.Consistent p) (hbuf : buf < 2 ^ p.addrBits) : c'.Consistent p := by
  obtain ⟨hmax, hidle, hb, -, -⟩ := Channel.start_cases h
  have hh : c.held = false := by
    rw [← Bool.not_eq_true]
    exact fun h1 => (hc.hold h1).1 hidle
  refine (Channel.start_of (P := fun c' => c'.pipe.buf ≠ 0 ∧ c'.held = false ∧ c'.Consistent p) h
    ⟨hb, hh, ?_, fun i => ?_, fun h1 => ?_⟩ ?_).2.2
  · refine ⟨fun h0 => absurd h0 hb, fun h0 => ?_, Nat.le_refl _, hbuf, fun h0 => ?_⟩
    · exact absurd (congrArg BitVec.toNat h0) hmax
    · have h0 : size.toNat = 0 := by simpa [Pipe.started] using h0
      exact ⟨by simp [Pipe.started, wantsZlp, h0], BitVec.eq_of_toNat_eq (by simpa [Pipe.started] using h0)⟩
  · rw [Channel.withPipe_bd]; exact hc.bds i
  · rw [show ({ c with pipe := c.pipe.started buf size force dts zlp } : Channel).held = c.held from rfl, hh] at h1
    cases h1
  · rintro c1 c2 ⟨h1, h2, h3⟩ hq
    exact ⟨by rw [Channel.queueNext_buf hq]; exact h1, (Channel.queueNext_keeps hq).2.1.trans h2,
      Channel.queueNext_consistent h1 h2 h3 hq⟩

/-- START keeps every buffer within the address space, given a transfer that lies within it. -/
theorem Channel.start_fits {p : Params} {c : Channel} {buf : Nat} {size : Size} {force dts zlp : Bool} {c' : Channel}
    (h : c.start p buf size force dts zlp = .ok c') (hc : c.Fits p) (hbuf : buf + size.toNat ≤ 2 ^ p.addrBits) :
    c'.Fits p := by
  refine Channel.start_of (P := fun c' => c'.Fits p) h ⟨Nat.le_refl _, hbuf, fun i => ?_⟩
    fun c1 c2 h1 hq => Channel.queueNext_fits h1 hq
  rw [Channel.withPipe_bd]; exact hc.bds i

/-! ### CompletePacket -/

theorem Pipe.isDone_iff (q : Pipe) (n : Count) :
    q.isDone n = true ↔ (n.toNat < q.max.toNat ∨ (q.cnt = q.size ∧ q.zeroPkt = false)) := by
  simp [Pipe.isDone]

theorem Pipe.packetDue_iff (q : Pipe) : q.packetDue = true ↔ (q.rem ≠ 0 ∨ q.sendZeroPkt = true) := by
  unfold Pipe.packetDue
  rw [Bool.or_eq_true, decide_eq_true_eq, Nat.pos_iff_ne_zero, Ne, Ne, ← BitVec.toNat_inj]
  rfl

/-- A completion that does not end its transfer queues what is due (R150, R152). -/
theorem Channel.completePacket_goesOn {p : Params} {c : Channel} {i : Bool} (hb : c.pipe.buf ≠ 0) (hh : c.held = false) {q : Pipe}
    (hq : q = { c.pipe with cnt := c.pipe.cnt + (c.bd i).bc.setWidth 16 }) (hd : q.isDone (c.bd i).bc = false)
    (ho : q.packetDue = true → (c.bd c.pipe.pp).uown = .sw) :
    c.completePacket p i = (if q.packetDue then ({ c with pipe := q } : Channel).queueChecked p else { c with pipe := q },
      .goesOn) := by
  subst hq
  unfold Channel.completePacket
  rw [if_neg hb]
  simp only
  rw [if_neg (by rw [hh]; decide), if_neg (by rw [hd]; decide)]
  by_cases hp : Pipe.packetDue { c.pipe with cnt := c.pipe.cnt + (c.bd i).bc.setWidth 16 } = true
  · rw [if_pos hp, if_pos hp]
    have hno := (Channel.nextOwned_iff
      { c with pipe := { c.pipe with cnt := c.pipe.cnt + (c.bd i).bc.setWidth 16 } }).mpr (by rw [Channel.withPipe_bd]; exact ho hp)
    unfold Channel.queueChecked
    by_cases hr : c.pipe.rem = 0
    · have hz : c.pipe.sendZeroPkt = true := by
        rcases (Pipe.packetDue_iff _).mp hp with h | h
        · exact absurd hr h
        · exact h
      rw [Channel.queueNext_zlp p (c := { c with pipe := { c.pipe with cnt := c.pipe.cnt + (c.bd i).bc.setWidth 16 } }) hr hz hno]
    · have hr' : 0 < c.pipe.rem.toNat := Nat.pos_of_ne_zero fun h => hr (BitVec.eq_of_toNat_eq (by simpa using h))
      rw [Channel.queueNext_data p (c := { c with pipe := { c.pipe with cnt := c.pipe.cnt + (c.bd i).bc.setWidth 16 } }) hr' hno]
  · rw [if_neg hp, if_neg hp]

/-- A continuation whose descriptor the engine owns (R153). -/
theorem Channel.completePacket_ownFail {p : Params} {c : Channel} {i : Bool} (hb : c.pipe.buf ≠ 0) (hh : c.held = false) {q : Pipe}
    (hq : q = { c.pipe with cnt := c.pipe.cnt + (c.bd i).bc.setWidth 16 }) (hd : q.isDone (c.bd i).bc = false)
    (hp : q.packetDue = true) (ho : (c.bd c.pipe.pp).uown = .hw) :
    c.completePacket p i = ({ c with pipe := q, held := true }, .ownFail) := by
  subst hq
  unfold Channel.completePacket
  rw [if_neg hb]
  simp only
  rw [if_neg (by rw [hh]; decide), if_neg (by rw [hd]; decide), if_pos hp, Channel.queueNext_owned p
    (c := { c with pipe := { c.pipe with cnt := c.pipe.cnt + (c.bd i).bc.setWidth 16 } }) hp]
  unfold Channel.nextOwned
  rw [Channel.withPipe_bd]
  exact decide_eq_true ho

/-- A completion that ends its transfer (R151). -/
theorem Channel.completePacket_done {p : Params} {c : Channel} {i : Bool} (hb : c.pipe.buf ≠ 0) (hh : c.held = false) {q : Pipe}
    (hq : q = { c.pipe with cnt := c.pipe.cnt + (c.bd i).bc.setWidth 16 }) (hd : q.isDone (c.bd i).bc = true) :
    c.completePacket p i = ({ c with pipe := q.toIdle }, .done q.cnt) := by
  subst hq
  unfold Channel.completePacket
  rw [if_neg hb]
  simp only
  rw [if_neg (by rw [hh]; decide), if_pos hd]

/-- A completion of a held transfer is counted, and nothing else (R254, U22). -/
theorem Channel.completePacket_held {p : Params} {c : Channel} {i : Bool} (hb : c.pipe.buf ≠ 0) (hh : c.held = true) :
    c.completePacket p i = ({ c with pipe := { c.pipe with cnt := c.pipe.cnt + (c.bd i).bc.setWidth 16 } }, .goesOn) := by
  unfold Channel.completePacket
  rw [if_neg hb]
  exact if_pos hh

/-- A completion that finds its pipe idle (R154). -/
theorem Channel.completePacket_stray {p : Params} {c : Channel} {i : Bool} (hb : c.pipe.buf = 0) :
    c.completePacket p i = (c, .stray) := by
  unfold Channel.completePacket
  rw [if_pos hb]

/-- Everything CompletePacket can answer (R150). -/
theorem Channel.completePacket_cases (p : Params) (c : Channel) (i : Bool) :
    let q := { c.pipe with cnt := c.pipe.cnt + (c.bd i).bc.setWidth 16 }
    (c.pipe.buf = 0 ∧ c.completePacket p i = (c, .stray)) ∨
    (c.pipe.buf ≠ 0 ∧ c.held = true ∧ c.completePacket p i = ({ c with pipe := q }, .goesOn)) ∨
    (c.pipe.buf ≠ 0 ∧ c.held = false ∧ q.isDone (c.bd i).bc = true ∧
      c.completePacket p i = ({ c with pipe := q.toIdle }, .done q.cnt)) ∨
    (c.pipe.buf ≠ 0 ∧ c.held = false ∧ q.isDone (c.bd i).bc = false ∧
      ((∃ c', ({ c with pipe := q } : Channel).queueNext p = .queued c' ∧ c.completePacket p i = (c', .goesOn)) ∨
        c.completePacket p i = ({ c with pipe := q }, .goesOn) ∨
        (q.packetDue = true ∧ c.completePacket p i = ({ c with pipe := q, held := true }, .ownFail)))) := by
  intro q
  unfold Channel.completePacket
  by_cases hb : c.pipe.buf = 0
  · left; simp [hb]
  right
  by_cases hh : c.held = true
  · left; exact ⟨hb, hh, by simp only [hb, if_false]; rw [if_pos hh]⟩
  have hh' : c.held = false := by simpa using hh
  right
  by_cases hd : q.isDone (c.bd i).bc = true
  · left; exact ⟨hb, hh', hd, by simp only [hb, if_false]; rw [if_neg hh, if_pos hd]⟩
  right
  refine ⟨hb, hh', by simpa using hd, ?_⟩
  simp only [hb, if_false]
  rw [if_neg hh, if_neg hd]
  by_cases hp : q.packetDue = true
  · rw [if_pos hp]
    split
    · exact .inl ⟨_, ‹_›, rfl⟩
    · exact .inr (.inl rfl)
    · exact .inr (.inr ⟨hp, rfl⟩)
  · rw [if_neg hp]; exact .inr (.inl rfl)

/-- A property of a pipe that counting a packet, returning to idle, holding the transfer and queueing one packet of a transfer that
is not held keep holds after CompletePacket. -/
theorem Channel.completePacket_of {P : Channel → Prop} {p : Params} {c : Channel} {i : Bool} (h0 : P c)
    (hcnt : ∀ n, c.pipe.buf ≠ 0 → P { c with pipe := { c.pipe with cnt := n } })
    (hidle : c.held = false → P { c with pipe := c.pipe.toIdle })
    (hhold : ∀ n, c.pipe.buf ≠ 0 → c.pipe.packetDue = true → P { c with pipe := { c.pipe with cnt := n }, held := true })
    (hq : ∀ n c', c.pipe.buf ≠ 0 → c.held = false → ({ c with pipe := { c.pipe with cnt := n } } : Channel).queueNext p = .queued c' → P c') :
    P (c.completePacket p i).1 := by
  rcases Channel.completePacket_cases p c i with ⟨-, h⟩ | ⟨hb, -, h⟩ | ⟨-, hh, -, h⟩ | ⟨hb, hh, -, ⟨c', hc, h⟩ | h | ⟨hd, h⟩⟩ <;> rw [h]
  · exact h0
  · exact hcnt _ hb
  · exact hidle hh
  · exact hq _ c' hb hh hc
  · exact hcnt _ hb
  · exact hhold _ hb hd

theorem Channel.completePacket_keeps (p : Params) (c : Channel) (i : Bool) :
    (c.completePacket p i).1.engPp = c.engPp ∧
      ∀ k, (c.bd k).uown = .hw → (c.completePacket p i).1.bd k = c.bd k := by
  refine Channel.completePacket_of (P := fun c' => c'.engPp = c.engPp ∧ ∀ k, (c.bd k).uown = .hw → c'.bd k = c.bd k)
    ⟨rfl, fun _ _ => rfl⟩ (fun _ _ => ⟨rfl, fun _ _ => Channel.withPipe_bd ..⟩)
    (fun _ => ⟨rfl, fun _ _ => Channel.withPipe_bd ..⟩)
    (fun _ _ _ => ⟨rfl, fun k _ => by cases k <;> rfl⟩) (fun n c' _ _ hq => ?_)
  have hk := Channel.queueNext_keeps hq
  exact ⟨hk.1, fun k hk' => by rw [hk.2.2 k (by rwa [Channel.withPipe_bd]), Channel.withPipe_bd]⟩

/-- A pipe's `cnt` is no part of its consistency while it is busy. -/
theorem Pipe.Consistent.withCnt {p : Params} {q : Pipe} (h : q.Consistent p) (n : Size) (hb : q.buf ≠ 0) :
    Pipe.Consistent p { q with cnt := n } :=
  ⟨fun h0 => absurd h0 hb, h.unconfigured, h.remaining, h.bufWidth, h.due⟩

/-- An idle pipe is consistent. -/
theorem Pipe.toIdle_consistent (p : Params) (q : Pipe) : q.toIdle.Consistent p :=
  ⟨fun _ => ⟨rfl, rfl, rfl, rfl, rfl⟩, fun _ => rfl, Nat.le_refl _, Nat.two_pow_pos _, fun h => by cases h⟩

theorem Channel.completePacket_consistent {p : Params} {c : Channel} (i : Bool) (hc : c.Consistent p) :
    (c.completePacket p i).1.Consistent p := by
  have hbd : ∀ (q : Pipe) (h : Bool) k, Descriptor.Consistent p (Channel.bd { c with pipe := q, held := h } k) := fun q h k => by
    cases k
    · exact hc.bds false
    · exact hc.bds true
  refine Channel.completePacket_of (P := fun c' => c'.Consistent p) hc
    (fun n hb => ⟨hc.pipe.withCnt n hb, hbd _ _, hc.hold⟩)
    (fun hh => ⟨Pipe.toIdle_consistent p _, hbd _ _, fun h => absurd (hh.symm.trans h) (by decide)⟩)
    (fun n hb hd => ⟨hc.pipe.withCnt n hb, hbd _ _, fun _ => ⟨hb, hd⟩⟩) (fun n c' hb hh hq => ?_)
  exact Channel.queueNext_consistent (c := { c with pipe := { c.pipe with cnt := n } }) hb hh
    ⟨hc.pipe.withCnt n hb, hbd _ _, hc.hold⟩ hq

theorem Channel.completePacket_fits {p : Params} {c : Channel} (i : Bool) (hc : c.Fits p) :
    (c.completePacket p i).1.Fits p := by
  have hcnt : ∀ n h, ({ c with pipe := { c.pipe with cnt := n }, held := h } : Channel).Fits p := fun n h =>
    ⟨hc.remaining, hc.transfer, fun k => by cases k; exacts [hc.bds false, hc.bds true]⟩
  refine Channel.completePacket_of (P := fun c' => c'.Fits p) hc (fun n _ => hcnt n _)
    (fun _ => ⟨Nat.le_refl _, by simp, fun k => ?_⟩) (fun n _ _ => hcnt n _)
    (fun n c' _ _ hq => Channel.queueNext_fits (hcnt n _) hq)
  rw [Channel.withPipe_bd]; exact hc.bds k

end Sys2Proof.Machine
end

