-- ==== Sys2Proof/Laws/Services.lean ====
section
/-! SUPPORT. What each service of DISPATCH does, said once, and what a chain of services keeps. -/

namespace Sys2Proof.Machine

/-! ### Forwarded classes and the error service -/

theorem forward_of_pending {c : StatusClass} (k : EventKind) {s : State} (h : s.pending c = true) :
    forward c k s = (s.clear c, [{ kind := k }]) := by simp [forward, h]

theorem forward_of_quiet {c : StatusClass} (k : EventKind) {s : State} (h : s.pending c = false) :
    forward c k s = (s, []) := by simp [forward, h]

/-- A forwarding service clears its own class and no other. -/
@[simp] theorem forward_pending (c : StatusClass) (k : EventKind) (s : State) (c' : StatusClass) :
    (forward c k s).1.pending c' = (!decide (c' = c) && s.pending c') := by
  unfold forward
  by_cases h : s.pending c = true
  · simp [h]
  · by_cases hc : c' = c <;> simp_all

theorem forward_state (c : StatusClass) (k : EventKind) (s : State) :
    (forward c k s).1 = s ∨ (forward c k s).1 = s.clear c := by
  unfold forward
  by_cases h : s.pending c = true <;> simp [h]

/-- The events of a forwarding service. -/
theorem forward_events (c : StatusClass) (k : EventKind) (s : State) :
    (forward c k s).2 = if s.pending c then [{ kind := k }] else [] := by
  unfold forward
  by_cases h : s.pending c = true <;> simp [h]

@[simp] theorem errorService_pending (s : State) (c : StatusClass) :
    (errorService s).1.pending c = (!decide (c = .error) && s.pending c) := by
  unfold errorService
  by_cases h : s.pending .error = true
  · simp only [h, if_true]
    exact State.clear_pending s .error c
  · by_cases hc : c = .error
    · simp_all
    · simp [hc, h]

theorem errorService_state (s : State) : (errorService s).1 = s ∨
    (errorService s).1 = { s.clear .error with errstat := s.errstat ||| s.errpend.setWidth 8, errpend := 0 } := by
  unfold errorService
  by_cases h : s.pending .error = true <;> simp [h]

/-! ### The token-complete service -/

/-- Everything the token-complete service can do (R174): nothing, an ownership violation, the setup path, or CompletePacket with the
event of its outcome. -/
theorem tokenService_cases (s : State) :
    (s.cq = [] ∧ tokenService s = (s, [])) ∨
    ∃ r rest, s.cq = r :: rest ∧
      (((s.bd r.ep r.dir r.pp).uown = .hw ∧ tokenService s = (State.ownershipViolation { s with cq := rest }, [])) ∨
        ((s.bd r.ep r.dir r.pp).uown = .sw ∧ r.ep = 0 ∧ (s.bd r.ep r.dir r.pp).pid = .setup ∧
          tokenService s = State.setupPath { s with cq := rest } r.dir r.pp) ∨
        ((s.bd r.ep r.dir r.pp).uown = .sw ∧ (r.ep ≠ 0 ∨ (s.bd r.ep r.dir r.pp).pid ≠ .setup) ∧
          tokenService s = State.completionPath { s with cq := rest } r)) := by
  unfold tokenService
  cases hq : s.cq with
  | nil => left; simp
  | cons r rest =>
    right
    refine ⟨r, rest, rfl, ?_⟩
    simp only
    have hb : State.bd { s with cq := rest } r.ep r.dir r.pp = s.bd r.ep r.dir r.pp := rfl
    rw [hb]
    by_cases h1 : (s.bd r.ep r.dir r.pp).uown = .hw
    · left; simp [h1]
    · have h1' : (s.bd r.ep r.dir r.pp).uown = .sw := by
        cases h : (s.bd r.ep r.dir r.pp).uown <;> simp_all
      right
      by_cases h2 : r.ep = 0 ∧ (s.bd r.ep r.dir r.pp).pid = .setup
      · left; exact ⟨h1', h2.1, h2.2, by rw [if_neg h1, if_pos h2]⟩
      · right; exact ⟨h1', by tauto, by rw [if_neg h1, if_neg h2]⟩

/-- The state after the completion path: the record's pipe after CompletePacket, with the ownership violation of OWNFAIL. -/
theorem State.completionPath_state (s : State) (r : Completion) :
    (s.completionPath r).1 = s.setChannel r.ep r.dir ((s.channel r.ep r.dir).completePacket s.params r.pp).1 ∨
    (s.completionPath r).1 =
      (s.setChannel r.ep r.dir ((s.channel r.ep r.dir).completePacket s.params r.pp).1).ownershipViolation := by
  unfold State.completionPath
  generalize (s.channel r.ep r.dir).completePacket s.params r.pp = co
  obtain ⟨c, o⟩ := co
  cases o <;> simp

/-- The events of the completion path. -/
theorem State.completionPath_events (s : State) (r : Completion) :
    (s.completionPath r).2 = [] ∨ ∃ b, (s.completionPath r).2 = [s.completionEvent r b] := by
  unfold State.completionPath
  generalize (s.channel r.ep r.dir).completePacket s.params r.pp = co
  obtain ⟨c, o⟩ := co
  cases o <;> simp

/-- The token-complete service changes at most the record's pipe, the record queue and the two bits of an ownership violation; it
idles a pipe without completing its packet for a setup packet on endpoint 0 only. -/
theorem tokenService_state (s : State) :
    ∃ e d c, (∃ i, c = s.channel e d ∨ c = ((s.channel e d).completePacket s.params i).1 ∨
        (c = (s.channel e d).idled ∧ e = 0 ∧ ∃ i rest, s.cq = ⟨0, d, i⟩ :: rest ∧ (s.bd 0 d i).pid = .setup)) ∧
      ((tokenService s).1 = { s.setChannel e d c with cq := s.cq.tail } ∨
        (tokenService s).1 = State.ownershipViolation { s.setChannel e d c with cq := s.cq.tail }) := by
  rcases tokenService_cases s with ⟨h, h'⟩ | ⟨r, rest, h, ⟨-, h'⟩ | ⟨-, h0, hp, h'⟩ | ⟨-, -, h'⟩⟩
  · refine ⟨0, .rx, s.channel 0 .rx, ⟨false, .inl rfl⟩, .inl ?_⟩
    rw [h', State.setChannel_channel_self, show s.cq.tail = s.cq by simp [h]]
  · refine ⟨0, .rx, s.channel 0 .rx, ⟨false, .inl rfl⟩, .inr ?_⟩
    rw [h', State.setChannel_channel_self, h]; rfl
  · obtain ⟨e, d, i⟩ := r
    obtain rfl : e = 0 := h0
    exact ⟨0, d, _, ⟨false, .inr (.inr ⟨rfl, rfl, i, rest, h, hp⟩)⟩, .inl (by rw [h', h]; rfl)⟩
  · refine ⟨r.ep, r.dir, _, ⟨r.pp, .inr (.inl rfl)⟩, ?_⟩
    rw [h', h]
    exact State.completionPath_state { s with cq := rest } r

@[simp] theorem tokenService_cq (s : State) : (tokenService s).1.cq = s.cq.tail := by
  obtain ⟨e, d, c, -, h | h⟩ := tokenService_state s
  · rw [h]
  · rw [h]; rfl

/-- The token-complete service raises no class but ERROR, and clears none. -/
theorem tokenService_pending (s : State) (c : StatusClass) :
    (tokenService s).1.pending c = s.pending c ∨ (c = .error ∧ (tokenService s).1.pending c = true) := by
  obtain ⟨e, d, x, -, h | h⟩ := tokenService_state s <;> rw [h]
  · exact .inl rfl
  · by_cases hc : c = .error
    · right; subst hc; simp
    · left; rw [State.ownershipViolation_pending]; simp [hc]; rfl

theorem tokenService_pending_of_ne (s : State) {c : StatusClass} (hc : c ≠ .error) :
    (tokenService s).1.pending c = s.pending c := by
  rcases tokenService_pending s c with h | ⟨h, -⟩
  · exact h
  · exact absurd h hc

/-- The token-complete service emits at most one event, and it is a token-complete event. -/
theorem tokenService_events (s : State) : (tokenService s).2.length ≤ 1 ∧ ∀ v ∈ (tokenService s).2, v.kind.turn = 3 := by
  have hc : ∀ (s : State) r b, (s.completionEvent r b).kind.turn = 3 := by
    intro s r b
    unfold State.completionEvent
    by_cases h : r.ep = 0 <;> simp [h, EventKind.turn]
  rcases tokenService_cases s with ⟨-, h'⟩ | ⟨r, rest, -, ⟨-, h'⟩ | ⟨-, -, -, h'⟩ | ⟨-, -, h'⟩⟩ <;> rw [h']
  · simp
  · simp
  · simp [State.setupPath, EventKind.turn]
  · rcases State.completionPath_events { s with cq := rest } r with h | ⟨b, h⟩ <;> rw [h] <;> simp [hc]

/-! ### The bus-reset service -/

@[simp] theorem State.armSetup_pending (s : State) (c : StatusClass) : s.armSetup.pending c = s.pending c := by
  unfold State.armSetup
  split <;> rfl

@[simp] theorem busResetService_pending (s : State) (c : StatusClass) :
    (busResetService s).1.pending c = (!decide (c = .reset) && s.pending c) := by
  unfold busResetService
  by_cases h : s.pending .reset = true
  · rw [if_pos h, State.armSetup_pending]
    exact State.clear_pending s .reset c
  · rw [if_neg h]
    by_cases hc : c = .reset
    · subst hc; simpa using h
    · simp [hc]

theorem State.reinitialised_endpoint (s : State) (e : Nat) : s.reinitialised.endpoint e = Endpoint.powerOn e :=
  endpoint_powerOn_table s.numEp e

@[simp] theorem State.reinitialised_numEp (s : State) : s.reinitialised.numEp = s.numEp := by
  simp [State.reinitialised, State.numEp]

@[simp] theorem State.configureEp0_numEp (s : State) : s.configureEp0.numEp = s.numEp := by
  simp [State.configureEp0]

@[simp] theorem State.armSetup_numEp (s : State) : s.armSetup.numEp = s.numEp := by
  unfold State.armSetup
  split <;> simp

/-- The state after the bus-reset service: only the tables, `CQ` and its own bit may differ. -/
theorem busResetService_state (s : State) :
    (s.pending .reset = false ∧ (busResetService s).1 = s) ∨
    (s.pending .reset = true ∧ (busResetService s).1 = (s.clear .reset).reinitialised.configureEp0.armSetup) := by
  unfold busResetService
  by_cases h : s.pending .reset = true <;> simp [h]

/-- Arming the setup buffer writes tables only. -/
theorem State.armSetup_frame (s : State) : s.armSetup = { s with eps := s.armSetup.eps } := by
  unfold State.armSetup
  split <;> rfl

/-- Arming the setup buffer: endpoint 0's receive pipe after START, or as before. -/
theorem State.armSetup_cases (s : State) :
    s.armSetup = s ∨ ∃ c, (s.channel 0 .rx).start s.params s.params.setupBufAddr (BitVec.ofNat 16 Config.setupLen)
      false false false = .ok c ∧ s.armSetup = s.setChannel 0 .rx c := by
  unfold State.armSetup
  split
  · exact .inr ⟨_, ‹_›, rfl⟩
  · exact .inl rfl

/-- Arming the setup buffer reads the tables and the parameters only. -/
theorem State.armSetup_eps_of {s t : State} (he : s.eps = t.eps) (hp : s.params = t.params) :
    s.armSetup.eps = t.armSetup.eps := by
  unfold State.armSetup
  rw [State.channel_of_eps he, hp]
  split
  · unfold State.setChannel State.setEndpoint State.endpoint
    rw [he]
  · exact he

/-- The receive pipe of endpoint 0 after the bus-reset service (R182). -/
def armedSetupPipe (p : Params) : Channel :=
  { Channel.powerOn with
    pipe := ⟨p.setupBufAddr, p.ep0MaxPacket, 8, 0, 0, true, true, false, false⟩
    bd0 := ⟨.hw, false, false, 8, p.setupBufAddr, .none⟩ }

/-- START of the setup packet on the freshly configured receive pipe of endpoint 0 succeeds (R180). -/
theorem start_setup {p : Params} (hw : p.wf = true) :
    (Channel.powerOn.configured p.ep0MaxPacket).start p p.setupBufAddr (BitVec.ofNat 16 Config.setupLen) false false false =
      .ok (armedSetupPipe p) := by
  obtain ⟨addrBits, statFifoDepth, ep0MaxPacket, setupBufAddr⟩ := p
  simp only [Params.wf, Bool.and_eq_true, decide_eq_true_eq, List.contains_iff_mem, List.mem_cons, List.not_mem_nil,
    or_false] at hw
  obtain ⟨⟨⟨-, hm⟩, h0⟩, hlt⟩ := hw
  have hne : setupBufAddr ≠ 0 := by omega
  have hmod : setupBufAddr % 2 ^ addrBits = setupBufAddr := Nat.mod_eq_of_lt hlt
  rcases hm with rfl | rfl | rfl | rfl <;>
    simp [Channel.start, Channel.configured, Channel.powerOn, Pipe.powerOn, Channel.idled, Pipe.toIdle, startsTwo, Config.setupLen, hne,
      Channel.startBlocked, Channel.nextOwned, Channel.bd, Descriptor.powerOn, Channel.queueChecked, Channel.queueNext,
      Pipe.started, wantsZlp, Pipe.packetLength, Channel.handOff, Channel.setBd, Channel.setFetched, addrAdd, hmod,
      armedSetupPipe]

/-- The tables after the bus-reset service (R182). -/
theorem busReset_endpoints {s : State} (hw : s.params.wf = true) (hn : 0 < s.numEp) (e : Nat) :
    s.reinitialised.configureEp0.armSetup.endpoint e =
      if e = 0 then
        { rx := armedSetupPipe s.params
          tx := { Channel.powerOn with pipe := { Pipe.powerOn with max := s.params.ep0MaxPacket } }
          epctl := 0x16, epfunc := 0xFF }
      else Endpoint.powerOn e := by
  have hn0 : 0 < s.reinitialised.numEp := by simpa using hn
  have h1 : ∀ k, s.reinitialised.configureEp0.endpoint k =
      if k = 0 then (Endpoint.powerOn 0).configured 0 s.params.ep0MaxPacket true true true else Endpoint.powerOn k := by
    intro k
    unfold State.configureEp0
    rw [State.setEndpoint_endpoint _ _ _ _ hn0, State.reinitialised_endpoint, State.reinitialised_endpoint]
    rfl
  have hc : s.reinitialised.configureEp0.channel 0 .rx = Channel.powerOn.configured s.params.ep0MaxPacket := by
    unfold State.channel
    rw [h1]
    rfl
  have hm : (s.params.ep0MaxPacket != 0) = true := by
    simp only [Params.wf, Bool.and_eq_true, List.contains_iff_mem, List.mem_cons, List.not_mem_nil, or_false] at hw
    rcases hw.1.1.2 with h | h | h | h <;> rw [h] <;> rfl
  have ha : s.reinitialised.configureEp0.armSetup =
      s.reinitialised.configureEp0.setChannel 0 .rx (armedSetupPipe s.params) := by
    have hs := start_setup hw
    unfold State.armSetup
    rw [hc]
    rw [show s.reinitialised.configureEp0.params = s.params from rfl, hs]
  rw [ha]
  unfold State.setChannel
  rw [State.setEndpoint_endpoint _ _ _ _ (by simpa using hn), h1, h1]
  by_cases he : e = 0
  · subst he
    simp only [if_true]
    unfold Endpoint.configured configuredEpctl
    rw [hm]
    rfl
  · simp [he]

/-! ### Chains of services -/

/-- Every service is one of these. -/
theorem mem_services {f : State → State × List Event} (h : f ∈ services) :
    (∃ c k, f = forward c k ∧ c ≠ .reset ∧ c ≠ .error) ∨ f = tokenService ∨ f = busResetService ∨ f = errorService := by
  simp only [services, List.mem_cons, List.not_mem_nil, or_false] at h
  rcases h with rfl | rfl | rfl | rfl | rfl | rfl | rfl | rfl | rfl
  · exact .inl ⟨_, _, rfl, by decide, by decide⟩
  · exact .inl ⟨_, _, rfl, by decide, by decide⟩
  · exact .inl ⟨_, _, rfl, by decide, by decide⟩
  · exact .inr (.inl rfl)
  · exact .inr (.inr (.inl rfl))
  · exact .inr (.inr (.inr rfl))
  · exact .inl ⟨_, _, rfl, by decide, by decide⟩
  · exact .inl ⟨_, _, rfl, by decide, by decide⟩
  · exact .inl ⟨_, _, rfl, by decide, by decide⟩

/-- A property every service of a chain keeps holds after the chain. -/
theorem runServices_of {P : State → Prop} (fs : List (State → State × List Event)) (h : ∀ f ∈ fs, ∀ s, P s → P (f s).1) (s : State)
    (hs : P s) : P (runServices fs s).1 := by
  induction fs generalizing s with
  | nil => exact hs
  | cons f fs ih =>
    exact ih (fun g hg => h g (List.mem_cons_of_mem _ hg)) _ (h f (List.mem_cons_self ..) _ hs)

/-- The events of a chain whose services each emit at most one event, of their own turn: in the order of the turns. -/
theorem runServices_turns (fs : List (State → State × List Event)) (n : Nat)
    (h : ∀ j (hj : j < fs.length) s, ((fs[j]) s).2.length ≤ 1 ∧ ∀ v ∈ ((fs[j]) s).2, v.kind.turn = n + j) (s : State) :
    (runServices fs s).2.length ≤ fs.length ∧ (∀ v ∈ (runServices fs s).2, n ≤ v.kind.turn) ∧
      ((runServices fs s).2.map fun v => v.kind.turn).Pairwise (· < ·) := by
  induction fs generalizing n s with
  | nil => simp [runServices]
  | cons f fs ih =>
    obtain ⟨h1, h2⟩ := h 0 (by simp) s
    obtain ⟨i1, i2, i3⟩ := ih (n + 1) (fun j hj s => by
      have := h (j + 1) (by simpa using hj) s
      refine ⟨this.1, fun v hv => ?_⟩
      rw [this.2 v hv]; omega) (f s).1
    have e : (runServices (f :: fs) s).2 = (f s).2 ++ (runServices fs (f s).1).2 := rfl
    rw [e]
    refine ⟨?_, ?_, ?_⟩
    · have h1 : (f s).2.length ≤ 1 := h1
      simp only [List.length_append, List.length_cons]; omega
    · intro v hv
      rcases List.mem_append.mp hv with hv | hv
      · have := h2 v hv; omega
      · have := i2 v hv; omega
    · rw [List.map_append, List.pairwise_append]
      refine ⟨?_, i3, ?_⟩
      · have h1 : (f s).2.length ≤ 1 := h1
        match hm : (f s).2, h1 with
        | [], _ => simp
        | [x], _ => simp
      · intro a ha b hb
        obtain ⟨v, hv, rfl⟩ := List.mem_map.mp ha
        obtain ⟨w, hw, rfl⟩ := List.mem_map.mp hb
        have h3 := h2 v hv
        have h4 := i2 w hw
        omega

/-- What no service writes. -/
def servicesKeep (s t : State) : Prop :=
  (∃ eps errstat errpend status cq,
    t = { s with eps := eps, errstat := errstat, errpend := errpend, status := status, cq := cq }) ∧ t.numEp = s.numEp

theorem service_keeps {f : State → State × List Event} (hf : f ∈ services) {s t : State} (h : servicesKeep s t) :
    servicesKeep s (f t).1 := by
  obtain ⟨⟨_, _, _, _, _, rfl⟩, hn⟩ := h
  rcases mem_services hf with ⟨c, k, rfl, -, -⟩ | rfl | rfl | rfl
  · rcases forward_state c k _ with h | h <;> rw [h]
    · exact ⟨⟨_, _, _, _, _, rfl⟩, hn⟩
    · exact ⟨⟨_, _, _, _, _, rfl⟩, hn⟩
  · obtain ⟨e, d, c, -, h | h⟩ := tokenService_state _ <;> rw [h]
    · exact ⟨⟨_, _, _, _, _, rfl⟩, (State.setChannel_numEp ..).trans hn⟩
    · exact ⟨⟨_, _, _, _, _, rfl⟩, (State.setChannel_numEp ..).trans hn⟩
  · rcases busResetService_state _ with ⟨-, h⟩ | ⟨-, h⟩ <;> rw [h]
    · exact ⟨⟨_, _, _, _, _, rfl⟩, hn⟩
    · rw [State.armSetup_frame]
      refine ⟨⟨_, _, _, _, _, rfl⟩, ?_⟩
      rw [← State.armSetup_frame, State.armSetup_numEp, State.configureEp0_numEp, State.reinitialised_numEp]
      exact hn
  · rcases errorService_state _ with h | h <;> rw [h]
    · exact ⟨⟨_, _, _, _, _, rfl⟩, hn⟩
    · exact ⟨⟨_, _, _, _, _, rfl⟩, hn⟩

/-- The frame of all services together. -/
theorem runServices_keeps (s : State) : servicesKeep s (runServices services s).1 :=
  runServices_of services (fun _ hf _ h => service_keeps hf h) s ⟨⟨_, _, _, _, _, rfl⟩, rfl⟩

/-- DISPATCH in terms of its services. -/
theorem exec_dispatch (s : State) : exec .dispatch s =
    .next (State.ok { (runServices services s).1 with
      evout := (runServices services s).1.evout ++ (runServices services s).2 }
      (BitVec.ofNat 32 (runServices services s).2.length)) := rfl

/-- The services when no class but ERROR is pending: the token-complete service, then the error service. -/
theorem runServices_token_error {s : State} (h : ∀ k, k ≠ .error → s.pending k = false) :
    runServices services s =
      ((errorService (tokenService s).1).1, (tokenService s).2 ++ (errorService (tokenService s).1).2) := by
  have ht : ∀ k, k ≠ StatusClass.error → (tokenService s).1.pending k = false := fun k hk => by
    rw [tokenService_pending_of_ne s hk, h k hk]
  have he : ∀ k, k ≠ StatusClass.error → (errorService (tokenService s).1).1.pending k = false := fun k hk => by
    rw [errorService_pending, ht k hk, Bool.and_false]
  have hb : ∀ t : State, t.pending .reset = false → busResetService t = (t, []) := fun t ht => by
    simp [busResetService, ht]
  simp only [services, runServices]
  rw [forward_of_quiet _ (h .tick (by decide)), forward_of_quiet _ (h .detach (by decide)),
    forward_of_quiet _ (h .sof (by decide))]
  simp only
  rw [hb _ (ht .reset (by decide))]
  simp only
  rw [forward_of_quiet _ (he .idle (by decide)), forward_of_quiet _ (he .resume (by decide)),
    forward_of_quiet _ (he .stall (by decide))]
  simp

/-- The event of the error service. -/
def busErrorEvent (err : Byte) : Event := { kind := .busError, value := err.setWidth 16 }

theorem errorService_of_quiet {s : State} (h : s.pending .error = false) : errorService s = (s, []) := by
  simp [errorService, h]

theorem errorService_of_pending {s : State} (h : s.pending .error = true) :
    errorService s =
      ({ s with status := s.status &&& 0xFFDF, errstat := s.errstat ||| s.errpend.setWidth 8, errpend := 0 },
        [busErrorEvent (s.errstat ||| s.errpend.setWidth 8)]) := by
  unfold errorService
  rw [if_pos h]
  rfl

/-- DISPATCH with no class pending but TOKEN, when the record's service leaves no error: the service's state and events. -/
theorem exec_dispatch_token {s t : State} {evs : List Event} (h : ∀ k, k ≠ .error → s.pending k = false)
    (ht : tokenService s = (t, evs)) (he : t.pending .error = false) :
    exec .dispatch s = .next (State.ok { t with evout := t.evout ++ evs } (BitVec.ofNat 32 evs.length)) := by
  rw [exec_dispatch, runServices_token_error h, ht]
  simp only
  rw [errorService_of_quiet he]
  simp only [List.append_nil]

/-- DISPATCH with no class pending but TOKEN and ERROR, when an error is pending after the record's service: BUS_ERROR follows. -/
theorem exec_dispatch_error {s t : State} {evs : List Event} (h : ∀ k, k ≠ .error → s.pending k = false)
    (ht : tokenService s = (t, evs)) (he : t.pending .error = true) :
    exec .dispatch s = .next (State.ok
      { t with status := t.status &&& 0xFFDF, errstat := t.errstat ||| t.errpend.setWidth 8, errpend := 0,
               evout := t.evout ++ (evs ++ [busErrorEvent (t.errstat ||| t.errpend.setWidth 8)]) }
      (BitVec.ofNat 32 (evs.length + 1))) := by
  rw [exec_dispatch, runServices_token_error h, ht]
  simp only
  rw [errorService_of_pending he]
  simp only [List.length_append, List.length_singleton]

theorem tokenService_of_empty {s : State} (h : s.cq = []) : tokenService s = (s, []) := by
  unfold tokenService
  rw [h]

theorem tokenService_of_hw {s : State} {r : Completion} {rest : List Completion} (h : s.cq = r :: rest)
    (ho : (s.bd r.ep r.dir r.pp).uown = .hw) :
    tokenService s = (State.ownershipViolation { s with cq := rest }, []) := by
  unfold tokenService
  rw [h]
  exact if_pos ho

theorem tokenService_of_setup {s : State} {r : Completion} {rest : List Completion} (h : s.cq = r :: rest)
    (ho : (s.bd r.ep r.dir r.pp).uown = .sw) (hs : r.ep = 0 ∧ (s.bd r.ep r.dir r.pp).pid = .setup) :
    tokenService s = State.setupPath { s with cq := rest } r.dir r.pp := by
  unfold tokenService
  rw [h]
  refine (if_neg (fun h' => ?_)).trans (if_pos hs)
  have h2 : (s.bd r.ep r.dir r.pp).uown = .hw := h'
  rw [ho] at h2; cases h2

theorem tokenService_of_data {s : State} {r : Completion} {rest : List Completion} (h : s.cq = r :: rest)
    (ho : (s.bd r.ep r.dir r.pp).uown = .sw) (hs : r.ep ≠ 0 ∨ (s.bd r.ep r.dir r.pp).pid ≠ .setup) {c : Channel}
    {o : PacketOutcome} (hc : (s.channel r.ep r.dir).completePacket s.params r.pp = (c, o)) :
    tokenService s =
      match o with
      | .done bytes => ({ s.setChannel r.ep r.dir c with cq := rest }, [s.completionEvent r bytes])
      | .goesOn => ({ s.setChannel r.ep r.dir c with cq := rest }, [])
      | .ownFail => (State.ownershipViolation { s.setChannel r.ep r.dir c with cq := rest }, [])
      | .stray => ({ s.setChannel r.ep r.dir c with cq := rest }, []) := by
  have h1 : tokenService s = State.completionPath { s with cq := rest } r := by
    unfold tokenService
    rw [h]
    refine (if_neg (fun h' => ?_)).trans (if_neg (fun h' => ?_))
    · have h2 : (s.bd r.ep r.dir r.pp).uown = .hw := h'
      rw [ho] at h2; cases h2
    · rcases hs with hs | hs
      · exact hs h'.1
      · exact hs h'.2
  have hc' : (State.channel { s with cq := rest } r.ep r.dir).completePacket s.params r.pp = (c, o) := hc
  rw [h1]
  unfold State.completionPath
  simp only [hc']
  cases o <;> rfl

/-- After the services no class is pending (R172). -/
theorem runServices_pending (s : State) (k : StatusClass) : (runServices services s).1.pending k = false := by
  simp only [services, runServices, forward_pending, errorService_pending, busResetService_pending]
  cases k <;> simp [tokenService_pending_of_ne]

theorem forward_eps (c : StatusClass) (k : EventKind) (s : State) : (forward c k s).1.eps = s.eps := by
  rcases forward_state c k s with h | h <;> rw [h]
  rfl

theorem forward_cq (c : StatusClass) (k : EventKind) (s : State) : (forward c k s).1.cq = s.cq := by
  rcases forward_state c k s with h | h <;> rw [h]
  rfl

theorem errorService_eps (s : State) : (errorService s).1.eps = s.eps := by
  rcases errorService_state s with h | h <;> rw [h]
  rfl

theorem errorService_cq (s : State) : (errorService s).1.cq = s.cq := by
  rcases errorService_state s with h | h <;> rw [h]
  rfl

/-- The state the services that precede TOKEN leave: only `STATUS` may differ. -/
theorem forwards_state (s : State) : ∃ v,
    (forward .sof .sof (forward .detach .detach (forward .tick .tick s).1).1).1 = { s with status := v } := by
  rcases forward_state .tick .tick s with h1 | h1 <;> rw [h1] <;>
    rcases forward_state .detach .detach _ with h2 | h2 <;> rw [h2] <;>
    rcases forward_state .sof .sof _ with h3 | h3 <;> rw [h3] <;> exact ⟨_, rfl⟩

/-- The tables and the queue after the services: as the token-complete service leaves them, or, if RESET was pending, as the
bus-reset service does (R180). -/
theorem runServices_tables (s : State) : ∃ v u, u = (tokenService { s with status := v }).1 ∧
    (runServices services s).1.cq = (if s.pending .reset then [] else s.cq.tail) ∧
    (runServices services s).1.eps =
      if s.pending .reset then u.reinitialised.configureEp0.armSetup.eps else u.eps := by
  obtain ⟨v, hv⟩ := forwards_state s
  refine ⟨v, _, rfl, ?_⟩
  simp only [services, runServices, forward_cq, errorService_cq, forward_eps, errorService_eps]
  have hp : (tokenService { s with status := v }).1.pending .reset = s.pending .reset := by
    rw [← hv, tokenService_pending_of_ne _ (by decide)]
    simp
  rw [hv]
  rcases busResetService_state (tokenService { s with status := v }).1 with ⟨h1, h2⟩ | ⟨h1, h2⟩
  · rw [hp] at h1
    rw [h2, tokenService_cq, h1]
    exact ⟨rfl, rfl⟩
  · rw [hp] at h1
    rw [h2, h1, if_pos rfl, if_pos rfl]
    refine ⟨by rw [State.armSetup_frame]; rfl, ?_⟩
    exact State.armSetup_eps_of rfl rfl

end Sys2Proof.Machine
end

