-- ==== Sys2Proof/Laws/Step.lean ====
section
/-! SUPPORT. A step as the action of the input it takes, and everything an input's agent and a command can do. -/

namespace Sys2Proof.Machine

/-- A step runs its first input on the state without it. -/
theorem step_of_input {s : State} {x : Input} {rest : List Input} (h : s.inputs = x :: rest) :
    step s = runInput x { s with inputs := rest } := by
  unfold step runNext
  rw [h]

/-- With no input nothing moves. -/
theorem step_of_no_input {s : State} (h : s.inputs = []) : step s = .next s := by
  unfold step runNext
  rw [h]

/-- A step does nothing, or runs an input. -/
theorem step_cases {s t : State} (h : step s = .next t) :
    (s.inputs = [] ∧ t = s) ∨ ∃ x rest, s.inputs = x :: rest ∧ runInput x { s with inputs := rest } = .next t := by
  cases hi : s.inputs with
  | nil => exact .inl ⟨rfl, (Host.Outcome.next.inj ((step_of_no_input hi).symm.trans h)).symm⟩
  | cons x rest => exact .inr ⟨x, rest, rfl, (step_of_input hi).symm.trans h⟩

/-! ### Commands -/

/-- Everything a command other than DISPATCH can do to the pipe it names. -/
def Channel.commanded (p : Params) (i : Instr) (s : State) (ep : Nat) (dir : Dir) (c c' : Channel) : Prop :=
  c' = { c with bd0 := c.bd0.armStall, bd1 := c.bd1.armStall } ∨
  (i = .unstall ep dir ∧ c' = { c with bd0 := c.bd0.unstalled, bd1 := c.bd1.unstalled }) ∨
  (i = .flush ep dir ∧ c' = c.flushed) ∨
  ∃ force dts zlp, i = .start ep dir force dts zlp ∧ c.start p s.bufOperand s.sizeOperand force dts zlp = .ok c'

/-- Everything a command can do. -/
theorem exec_cases (i : Instr) (s : State) : ∃ t, exec i s = .next t ∧
    ((∃ c, c ≠ .illegal ∧ t = s.fail c) ∨
     t = s.ownershipViolation.fail .ownership ∨
     (∃ v, t = s.ok v) ∨
     (∃ ep cfTx cfRx cfHshk, i = .configure ep cfTx cfRx cfHshk ∧ ep < s.numEp ∧
        t = (s.setEndpoint ep ((s.endpoint ep).configured ep s.maxOperand cfTx cfRx cfHshk)).ok 0) ∨
     (∃ ep, ep < s.numEp ∧ fdLegal s.fdOperand = true ∧
        t = (s.setEndpoint ep { s.endpoint ep with epfunc := s.fdOperand }).ok 0) ∨
     (∃ ep dir c v, ep < s.numEp ∧ (s.channel ep dir).commanded s.params i s ep dir c ∧ t = (s.setChannel ep dir c).ok v) ∨
     (i = .readErr ∧ t = State.ok { s with errstat := 0 } (s.errstat.setWidth 32)) ∨
     (i = .dispatch ∧ t = State.ok { (runServices services s).1 with
        evout := (runServices services s).1.evout ++ (runServices services s).2 }
        (BitVec.ofNat 32 (runServices services s).2.length))) := by
  have absent : ∀ (ep : Nat) (b : State), ¬ ep < s.numEp → s.inRange ep b = s.fail .range := fun ep b h =>
    State.inRange_of_le b (Nat.not_lt.mp h)
  cases i with
  | configure ep a b c =>
    refine ⟨_, rfl, ?_⟩
    by_cases h : ep < s.numEp
    · rw [State.inRange_of_lt _ h]; exact .inr (.inr (.inr (.inl ⟨ep, a, b, c, rfl, h, rfl⟩)))
    · rw [absent ep _ h]; exact .inl ⟨_, by decide, rfl⟩
  | start ep d f g z =>
    refine ⟨_, rfl, ?_⟩
    by_cases h : ep < s.numEp
    · rw [State.inRange_of_lt _ h]
      unfold State.startOn
      cases hs : (s.channel ep d).start s.params s.bufOperand s.sizeOperand f g z with
      | ok c =>
        exact .inr (.inr (.inr (.inr (.inr (.inl ⟨ep, d, c, 0, h,
          .inr (.inr (.inr ⟨f, g, z, rfl, hs⟩)), rfl⟩)))))
      | error code =>
        have hne : code ≠ .illegal := by
          rintro rfl
          unfold Channel.start at hs
          simp only at hs
          split at hs <;> first | cases hs | skip
          split at hs <;> first | cases hs | skip
          split at hs <;> first | cases hs | skip
          split at hs <;> cases hs
        cases code <;> first
          | exact .inr (.inl rfl)
          | exact .inl ⟨_, hne, rfl⟩
    · rw [absent ep _ h]; exact .inl ⟨_, by decide, rfl⟩
  | stall ep d =>
    refine ⟨_, rfl, ?_⟩
    by_cases h : ep < s.numEp
    · rw [State.inRange_of_lt _ h]
      exact .inr (.inr (.inr (.inr (.inr (.inl ⟨ep, d, _, _, h, .inl rfl, rfl⟩)))))
    · rw [absent ep _ h]; exact .inl ⟨_, by decide, rfl⟩
  | unstall ep d =>
    refine ⟨_, rfl, ?_⟩
    by_cases h : ep < s.numEp
    · rw [State.inRange_of_lt _ h]
      exact .inr (.inr (.inr (.inr (.inr (.inl ⟨ep, d, _, _, h, .inr (.inl ⟨rfl, rfl⟩), rfl⟩)))))
    · rw [absent ep _ h]; exact .inl ⟨_, by decide, rfl⟩
  | flush ep d =>
    refine ⟨_, rfl, ?_⟩
    by_cases h : ep < s.numEp
    · rw [State.inRange_of_lt _ h]
      exact .inr (.inr (.inr (.inr (.inr (.inl ⟨ep, d, _, _, h, .inr (.inr (.inl ⟨rfl, rfl⟩)), rfl⟩)))))
    · rw [absent ep _ h]; exact .inl ⟨_, by decide, rfl⟩
  | queryStall ep d =>
    refine ⟨_, rfl, ?_⟩
    by_cases h : ep < s.numEp
    · rw [State.inRange_of_lt _ h]; exact .inr (.inr (.inl ⟨_, rfl⟩))
    · rw [absent ep _ h]; exact .inl ⟨_, by decide, rfl⟩
  | setEpfunc ep =>
    refine ⟨_, rfl, ?_⟩
    by_cases h : ep < s.numEp
    · rw [State.inRange_of_lt _ h]
      by_cases hf : fdLegal s.fdOperand = true
      · rw [if_pos hf]; exact .inr (.inr (.inr (.inr (.inl ⟨ep, h, hf, rfl⟩))))
      · rw [if_neg hf]; exact .inl ⟨_, by decide, rfl⟩
    · rw [absent ep _ h]; exact .inl ⟨_, by decide, rfl⟩
  | readErr => exact ⟨_, rfl, .inr (.inr (.inr (.inr (.inr (.inr (.inl ⟨rfl, rfl⟩))))))⟩
  | dispatch => exact ⟨_, rfl, .inr (.inr (.inr (.inr (.inr (.inr (.inr ⟨rfl, rfl⟩))))))⟩

/-! ### Inputs -/

/-- Everything an input's agent can do; the engine's own steps are in `engineStep_cases`. -/
theorem runInput_cases {x : Input} {s t : State} (h : runInput x s = .next t) :
    x.isEngine = true ∨
    (∃ v i, x = .regWrite 0x00 .word v ∧ decode v = .ok i ∧ exec i s = .next t) ∨
    t = s.illegal ∨
    (∃ v, t = s.writeArg0 v) ∨
    (∃ v, t = s.writeArg1 v) ∨
    (∃ b d n, t = { s with busData := b, bufData := d, freeCtr := n }) ∨
    (x = .takeEvent ∧ t = { s with taken := s.evout.head?, evout := s.evout.tail }) ∨
    (∃ a v, a < 2 ^ s.params.addrBits ∧ t = { s with mem := Memory.write s.mem a v }) ∨
    ∃ c m, t = { s.raise c with errpend := m } := by
  have hraise : ∀ c, s.raise c = { s.raise c with errpend := s.errpend } := fun _ => rfl
  have hacc : ∀ {offset : Nat} {width : AccessWidth} {body : Host.Outcome State Fault Refusal},
      s.access offset width body = .next t → width = .word ∧ body = .next t := by
    intro offset width body h
    unfold State.access at h
    split at h
    · cases h
    · split at h
      · cases h
      · rename_i hw _
        exact ⟨by simpa using fun hc => hw (.inl hc), h⟩
  cases x with
  | regWrite offset width v =>
    replace h := hacc h
    obtain ⟨rfl, h⟩ := h
    split at h
    · rename_i h0
      unfold issue at h
      cases hd : decode v with
      | ok i => rw [hd] at h; exact .inr (.inl ⟨v, i, by rw [h0], hd, h⟩)
      | error r => rw [hd] at h; exact .inr (.inr (.inl (Host.Outcome.next.inj h).symm))
    · split at h
      · exact .inr (.inr (.inr (.inl ⟨v, (Host.Outcome.next.inj h).symm⟩)))
      · split at h
        · exact .inr (.inr (.inr (.inr (.inl ⟨v, (Host.Outcome.next.inj h).symm⟩))))
        · exact .inr (.inr (.inr (.inr (.inr (.inl ⟨_, _, _, (Host.Outcome.next.inj h).symm⟩)))))
  | regRead offset width =>
    replace h := (hacc h).2
    exact .inr (.inr (.inr (.inr (.inr (.inl ⟨_, _, _, (Host.Outcome.next.inj h).symm⟩)))))
  | takeEvent => exact .inr (.inr (.inr (.inr (.inr (.inr (.inl ⟨rfl, (Host.Outcome.next.inj h).symm⟩))))))
  | bufWrite a v =>
    simp only [runInput, stepBufWrite] at h
    split at h
    · cases h
    · exact .inr (.inr (.inr (.inr (.inr (.inr (.inr (.inl ⟨a, v, by omega, (Host.Outcome.next.inj h).symm⟩)))))))
  | bufRead a =>
    simp only [runInput, stepBufRead] at h
    split at h
    · cases h
    · exact .inr (.inr (.inr (.inr (.inr (.inl ⟨_, _, _, (Host.Outcome.next.inj h).symm⟩)))))
  | transportError m =>
    simp only [runInput, stepTransportError] at h
    split at h
    · cases h
    · exact .inr (.inr (.inr (.inr (.inr (.inr (.inr (.inr ⟨_, _, (Host.Outcome.next.inj h).symm⟩)))))))
  | inToken | outPacket | setup | txFetch => exact .inl rfl
  | tick | sessionLost | startOfFrame | busReset | busIdle | resumeSignal =>
    exact .inr (.inr (.inr (.inr (.inr (.inr (.inr (.inr ⟨_, _, (Host.Outcome.next.inj h).symm.trans (hraise _)⟩)))))))

end Sys2Proof.Machine
end

