-- ==== Sys2Proof/Laws/Keeps.lean ====
section
/-! SUPPORT. A property of one pipe that every action on a pipe keeps is kept by every step, for all pipes. -/

namespace Sys2Proof.Machine

/-- Every action on a pipe keeps `P`; a transfer starts only where `S` holds of its buffer and size. -/
structure Channel.Kept (p : Params) (S : Nat → Size → Prop) (P : Channel → Prop) : Prop where
  powerOn : P Channel.powerOn
  configured : ∀ c max, P c → P (c.configured max)
  stalled : ∀ c, P c → P { c with bd0 := c.bd0.armStall, bd1 := c.bd1.armStall }
  unstalled : ∀ c, P c → P { c with bd0 := c.bd0.unstalled, bd1 := c.bd1.unstalled }
  flushed : ∀ c, P c → P c.flushed
  idle : ∀ c, P c → P c.idled
  started : ∀ c c' buf size force dts zlp, P c → S buf size → c.start p buf size force dts zlp = .ok c' → P c'
  completed : ∀ c i, P c → P (c.completePacket p i).1
  returned : ∀ c f, P c → (∀ b : Descriptor, (f b).addr = b.addr) →
    (f (c.bd c.engPp)).bc.toNat ≤ (c.bd c.engPp).bc.toNat → P (c.returned f)
  fetched : ∀ c i l, P c → P (c.setFetched i l)

variable {p : Params} {S : Nat → Size → Prop} {P : Channel → Prop}

theorem tokenService_keeps_channels {s : State} (hk : Channel.Kept s.params S P) (hs : ∀ e d, P (s.channel e d)) (e : Nat)
    (d : Dir) : P ((tokenService s).1.channel e d) := by
  obtain ⟨e', d', c, ⟨i, hc⟩, h⟩ := tokenService_state s
  have hc' : P c := by
    rcases hc with rfl | rfl | ⟨rfl, -⟩
    · exact hs _ _
    · exact hk.completed _ _ (hs _ _)
    · exact hk.idle _ (hs _ _)
  have := State.setChannel_all (P := fun _ _ c => P c) (e := e') (d := d') hs hc' e d
  rcases h with h | h <;> rw [h] <;> exact this

theorem busReset_keeps_channels {s : State} (hk : Channel.Kept s.params S P)
    (hS : S s.params.setupBufAddr (BitVec.ofNat 16 Config.setupLen)) (e : Nat) (d : Dir) :
    P (s.reinitialised.configureEp0.armSetup.channel e d) := by
  have h1 : ∀ e d, P (s.reinitialised.channel e d) := fun e d => by
    unfold State.channel
    rw [State.reinitialised_endpoint]
    cases d <;> exact hk.powerOn
  have h2 : ∀ e d, P (s.reinitialised.configureEp0.channel e d) := fun e d => by
    refine State.setEndpoint_all (P := fun _ x => ∀ d, P (x.channel d)) (fun k d => h1 k d) (fun d => ?_) e d
    rcases Endpoint.configured_channel (s.reinitialised.endpoint 0) 0 s.params.ep0MaxPacket true true true d with h | h
    · exact h ▸ h1 0 d
    · exact h ▸ hk.configured _ _ (h1 0 d)
  rcases State.armSetup_cases s.reinitialised.configureEp0 with h | ⟨c, hc, h⟩ <;> rw [h]
  · exact h2 e d
  · exact State.setChannel_all (P := fun _ _ c => P c) h2 (hk.started _ _ _ _ _ _ _ (h2 0 .rx) hS hc) e d

theorem dispatch_keeps_channels {s : State} (hk : Channel.Kept s.params S P)
    (hS : S s.params.setupBufAddr (BitVec.ofNat 16 Config.setupLen)) (hs : ∀ e d, P (s.channel e d)) (e : Nat) (d : Dir) :
    P ((runServices services s).1.channel e d) := by
  refine (runServices_of (P := fun u => u.params = s.params ∧ ∀ e d, P (u.channel e d)) services ?_ s ⟨rfl, hs⟩).2 e d
  rintro f hf u ⟨hp, hu⟩
  have hpar : (f u).1.params = s.params := by
    obtain ⟨⟨_, _, _, _, _, h⟩, -⟩ := service_keeps hf (s := u) (t := u) ⟨⟨_, _, _, _, _, rfl⟩, rfl⟩
    rw [h]; exact hp
  refine ⟨hpar, ?_⟩
  rcases mem_services hf with ⟨c, k, rfl, -, -⟩ | rfl | rfl | rfl
  · intro e d; rw [State.channel_of_eps (forward_eps c k u)]; exact hu e d
  · exact tokenService_keeps_channels (S := S) (hp ▸ hk) hu
  · rcases busResetService_state u with ⟨-, h⟩ | ⟨-, h⟩ <;> rw [h]
    · exact hu
    · exact busReset_keeps_channels (s := u.clear .reset) (S := S) (hp ▸ hk) (hp ▸ hS)
  · intro e d; rw [State.channel_of_eps (errorService_eps u)]; exact hu e d

/-- Every command keeps `P` of every pipe. -/
theorem exec_keeps_channels {i : Instr} {s t : State} (hk : Channel.Kept s.params S P)
    (hS : S s.params.setupBufAddr (BitVec.ofNat 16 Config.setupLen))
    (hstart : ∀ ep d force dts zlp, i = .start ep d force dts zlp → S s.arg0 s.arg1)
    (hs : ∀ e d, P (s.channel e d)) (h : exec i s = .next t) (e : Nat) (d : Dir) : P (t.channel e d) := by
  obtain ⟨t', ht, hc⟩ := exec_cases i s
  obtain rfl := Host.Outcome.next.inj (ht.symm.trans h)
  rcases hc with ⟨c, -, rfl⟩ | rfl | ⟨v, rfl⟩ | ⟨ep, a, b, c, -, -, rfl⟩ | ⟨ep, -, -, rfl⟩ | ⟨ep, dir, c, v, -, hc, rfl⟩ |
    ⟨-, rfl⟩ | ⟨-, rfl⟩
  · exact hs e d
  · exact hs e d
  · exact hs e d
  · refine State.setEndpoint_all (P := fun _ x => ∀ d, P (x.channel d)) (fun k d => hs k d) (fun d => ?_) e d
    rcases Endpoint.configured_channel (s.endpoint ep) ep s.maxOperand a b c d with h | h
    · exact h ▸ hs ep d
    · exact h ▸ hk.configured _ _ (hs ep d)
  · refine State.setEndpoint_all (P := fun _ x => ∀ d, P (x.channel d)) (fun k d => hs k d) (fun d => ?_) e d
    cases d
    · exact hs ep .rx
    · exact hs ep .tx
  · refine State.setChannel_all (P := fun _ _ c => P c) hs ?_ e d
    rcases hc with rfl | ⟨-, rfl⟩ | ⟨-, rfl⟩ | ⟨f, g, z, rfl, hc⟩
    · exact hk.stalled _ (hs _ _)
    · exact hk.unstalled _ (hs _ _)
    · exact hk.flushed _ (hs _ _)
    · exact hk.started _ _ _ _ _ _ _ (hs _ _) (hstart _ _ _ _ _ rfl) hc
  · exact hs e d
  · exact dispatch_keeps_channels hk hS hs e d

/-- Returning a descriptor keeps `P` of every pipe. -/
theorem engineReturn_keeps_channels {s : State} (hk : Channel.Kept p S P) (hs : ∀ e d, P (s.channel e d)) (e : Nat) (d : Dir)
    (f : Descriptor → Descriptor) (ha : ∀ b : Descriptor, (f b).addr = b.addr)
    (hb : (f (s.engineBd e d)).bc.toNat ≤ (s.engineBd e d).bc.toNat) (e' : Nat) (d' : Dir) :
    P ((s.engineReturn e d f).channel e' d') := by
  rw [State.engineReturn_eq]
  exact State.setChannel_all (P := fun _ _ c => P c) hs (hk.returned _ f (hs e d) ha hb) e' d'

/-- Every engine step keeps `P` of every pipe. -/
theorem engineStep_keeps_channels {x : Input} {s t : State} (hk : Channel.Kept s.params S P) (hx : x.isEngine = true)
    (hs : ∀ e d, P (s.channel e d)) (h : runInput x s = .next t) (e : Nat) (d : Dir) : P (t.channel e d) := by
  rcases engineStep_cases hx h with rfl | rfl | ⟨e', -, -, -, -, rfl⟩ | ⟨e', data, -, -, -, -, hl, -, rfl⟩ |
    ⟨q, -, -, -, h8, -, rfl⟩ | ⟨e', i, l, n, rfl⟩
  · exact hs e d
  · exact hs e d
  · exact engineReturn_keeps_channels hk hs e' .tx (fun b => { b with pid := .inn }) (fun _ => rfl) (Nat.le_refl _) e d
  · refine engineReturn_keeps_channels hk hs e' .rx (fun b => { b with bc := BitVec.ofNat 10 data.length, pid := .out })
      (fun _ => rfl) ?_ e d
    rw [BitVec.toNat_ofNat]
    exact (Nat.mod_le _ _).trans hl
  · exact engineReturn_keeps_channels hk hs 0 .rx
      (fun b => { b with bc := BitVec.ofNat 10 Config.setupLen, pid := .setup, stall := false }) (fun _ => rfl) h8 e d
  · exact State.setChannel_all (P := fun _ _ c => P c) hs (hk.fetched _ _ _ (hs _ _)) e d

/-- Every step keeps `P` of every pipe. -/
theorem step_keeps_channels {s t : State} (hk : Channel.Kept s.params S P)
    (hS : S s.params.setupBufAddr (BitVec.ofNat 16 Config.setupLen))
    (hstart : ∀ v rest ep d force dts zlp, s.inputs = .regWrite 0x00 .word v :: rest →
      decode v = .ok (.start ep d force dts zlp) → S s.arg0 s.arg1)
    (hs : ∀ e d, P (s.channel e d)) (h : step s = .next t) (e : Nat) (d : Dir) : P (t.channel e d) := by
  rcases step_cases h with ⟨-, rfl⟩ | ⟨x, rest, hi, hx⟩
  · exact hs e d
  rcases runInput_cases hx with he | ⟨v, i, rfl, hd, hx⟩ | rfl | ⟨v, rfl⟩ | ⟨v, rfl⟩ | ⟨_, _, _, rfl⟩ | ⟨rfl, rfl⟩ |
    ⟨_, _, -, rfl⟩ | ⟨_, _, rfl⟩
  · exact engineStep_keeps_channels (s := { s with inputs := rest }) hk he hs hx e d
  · exact exec_keeps_channels (s := { s with inputs := rest }) hk hS (fun _ _ _ _ _ hst => hstart v rest _ _ _ _ _ hi (hst ▸ hd))
      hs hx e d
  all_goals exact hs e d

/-- Consistency is such a property. -/
theorem Channel.consistent_kept (p : Params) : Channel.Kept p (fun buf _ => buf < 2 ^ p.addrBits) (fun c => c.Consistent p) where
  powerOn := ⟨⟨fun _ => ⟨rfl, rfl, rfl, rfl, rfl⟩, fun _ => rfl, Nat.le_refl _, Nat.two_pow_pos _, fun h => by cases h⟩,
    fun i => ⟨by cases i <;> exact Nat.two_pow_pos _, fun h => by cases i <;> cases h⟩, fun h => by cases h⟩
  configured c max h := ⟨⟨fun _ => ⟨rfl, rfl, rfl, rfl, rfl⟩, fun _ => rfl, Nat.le_refl _, Nat.two_pow_pos _, fun h => by cases h⟩,
    fun i => by rw [Channel.configured_bd]; exact h.bds i, fun h => by cases h⟩
  stalled c h := ⟨h.pipe, fun i => by
    have hb : ∀ b : Descriptor, b.Consistent p → b.armStall.Consistent p := fun b h => by
      unfold Descriptor.armStall
      split
      · exact ⟨h.addrWidth, fun _ h => by cases h⟩
      · exact h
    cases i
    · exact hb _ (h.bds false)
    · exact hb _ (h.bds true), h.hold⟩
  unstalled c h := ⟨h.pipe, fun i => by
    cases i
    · exact ⟨(h.bds false).addrWidth, fun h => by cases h⟩
    · exact ⟨(h.bds true).addrWidth, fun h => by cases h⟩, h.hold⟩
  flushed c h := ⟨⟨fun _ => ⟨rfl, rfl, rfl, rfl, rfl⟩, fun _ => rfl, Nat.le_refl _, Nat.two_pow_pos _, fun h => by cases h⟩,
    fun i => by rw [Channel.flushed_bd]; exact ⟨(h.bds i).addrWidth, fun h => by cases h⟩, fun h => by cases h⟩
  idle c h := ⟨Pipe.toIdle_consistent p _, fun i => by rw [Channel.idled_bd]; exact h.bds i, fun h => by cases h⟩
  started _ _ _ _ _ _ _ h hs hc := Channel.start_consistent hc h hs
  completed _ i h := Channel.completePacket_consistent i h
  returned c f h ha _ := ⟨by rw [Channel.returned_pipe]; exact h.pipe, fun i => by
    rw [Channel.returned_bd]
    split
    · exact ⟨by show (f _).addr < _; rw [ha]; exact (h.bds _).addrWidth, fun h => by cases h⟩
    · exact h.bds i, by rw [Channel.returned_held, Channel.returned_pipe]; exact h.hold⟩
  fetched c i l h := ⟨by rw [Channel.setFetched_pipe]; exact h.pipe, fun k => by rw [Channel.setFetched_bd]; exact h.bds k,
    by rw [Channel.setFetched_held, Channel.setFetched_pipe]; exact h.hold⟩

/-- So is naming no buffer that reaches past the address space. -/
theorem Channel.fits_kept (p : Params) :
    Channel.Kept p (fun buf size => buf + size.toNat ≤ 2 ^ p.addrBits) (fun c => c.Fits p) where
  powerOn := ⟨Nat.le_refl _, (Nat.two_pow_pos _).le, fun i => by cases i <;> exact (Nat.two_pow_pos _).le⟩
  configured c max h := ⟨Nat.le_refl _, (Nat.two_pow_pos _).le, fun i => by rw [Channel.configured_bd]; exact h.bds i⟩
  stalled c h := ⟨h.remaining, h.transfer, fun i => by
    have hb : ∀ b : Descriptor, b.addr + b.bc.toNat ≤ 2 ^ p.addrBits → b.armStall.addr + b.armStall.bc.toNat ≤ 2 ^ p.addrBits :=
      fun b h => by unfold Descriptor.armStall; split <;> exact h
    cases i
    · exact hb _ (h.bds false)
    · exact hb _ (h.bds true)⟩
  unstalled c h := ⟨h.remaining, h.transfer, fun i => by
    cases i
    · exact h.bds false
    · exact h.bds true⟩
  flushed c h := ⟨Nat.le_refl _, (Nat.two_pow_pos _).le, fun i => by
    rw [Channel.flushed_bd]
    exact (Nat.le_add_right _ _).trans (h.bds i)⟩
  idle c h := ⟨Nat.le_refl _, (Nat.two_pow_pos _).le, fun i => by rw [Channel.idled_bd]; exact h.bds i⟩
  started _ _ _ _ _ _ _ h hs hc := Channel.start_fits hc h hs
  completed _ i h := Channel.completePacket_fits i h
  returned c f h ha hb := ⟨by rw [Channel.returned_pipe]; exact h.remaining, by rw [Channel.returned_pipe]; exact h.transfer,
    fun i => by
      rw [Channel.returned_bd]
      split
      · show (f _).addr + (f _).bc.toNat ≤ _
        rw [ha]
        exact (Nat.add_le_add_left hb _).trans (h.bds _)
      · exact h.bds i⟩
  fetched c i l h := ⟨by rw [Channel.setFetched_pipe]; exact h.remaining, by rw [Channel.setFetched_pipe]; exact h.transfer,
    fun k => by rw [Channel.setFetched_bd]; exact h.bds k⟩

end Sys2Proof.Machine
end

