-- ==== Sys2Proof/Laws/PerInstr.lean ====
section
/-! SUPPORT. For every constructor of `Instr`: its word selects the row of the decode table with its own mnemonic (30_encoding.md
R96, R98). -/

namespace Sys2Proof.Laws.RowOf

/-- The mnemonic of a command (R81). -/
def mnemonic : Instr → String
  | .configure _ _ _ _ => "CONFIGURE"
  | .start _ _ _ _ _ => "START"
  | .stall _ _ => "STALL"
  | .unstall _ _ => "UNSTALL"
  | .flush _ _ => "FLUSH"
  | .queryStall _ _ => "QUERY_STALL"
  | .setEpfunc _ => "SET_EPFUNC"
  | .readErr => "READ_ERR"
  | .dispatch => "DISPATCH"

/-- The word of `i` selects the row of its mnemonic, whatever its fields hold. -/
def Statement (i : Instr) : Prop := ∃ r ∈ rows, r.mnemonic = mnemonic i ∧ r.selectedBy (encode i) = true

/-- An endpoint number takes no bit above its field. -/
theorem word_and {ep : Nat} {k m b : Word} (hm : 0xF#32 &&& m = 0#32) (hk : k &&& m = b) : ((k ||| epBits ep) &&& m) == b := by
  have h : ∀ e : Fin 16, BitVec.ofNat 32 e.val = BitVec.ofNat 32 e.val &&& 0xF#32 := by decide
  have he : epBits ep = epBits ep &&& 0xF#32 := h ⟨ep % 16, Nat.mod_lt _ (by decide)⟩
  rw [BitVec.and_or_distrib_right, he, BitVec.and_assoc, hm, BitVec.and_zero, BitVec.or_zero, hk, beq_self_eq_true]

theorem configure (ep : Nat) (cfTx cfRx cfHshk : Bool) : Statement (.configure ep cfTx cfRx cfHshk) :=
  ⟨_, List.getElem_mem (l := rows) (n := 0) (by decide), rfl,
    word_and (by decide) (by cases cfTx <;> cases cfRx <;> cases cfHshk <;> decide)⟩

theorem start (ep : Nat) (dir : Dir) (force dts zlp : Bool) : Statement (.start ep dir force dts zlp) :=
  ⟨_, List.getElem_mem (l := rows) (n := 1) (by decide), rfl,
    word_and (by decide) (by cases dir <;> cases force <;> cases dts <;> cases zlp <;> decide)⟩

theorem stall (ep : Nat) (dir : Dir) : Statement (.stall ep dir) :=
  ⟨_, List.getElem_mem (l := rows) (n := 2) (by decide), rfl, word_and (by decide) (by cases dir <;> decide)⟩

theorem unstall (ep : Nat) (dir : Dir) : Statement (.unstall ep dir) :=
  ⟨_, List.getElem_mem (l := rows) (n := 3) (by decide), rfl, word_and (by decide) (by cases dir <;> decide)⟩

theorem flush (ep : Nat) (dir : Dir) : Statement (.flush ep dir) :=
  ⟨_, List.getElem_mem (l := rows) (n := 4) (by decide), rfl, word_and (by decide) (by cases dir <;> decide)⟩

theorem queryStall (ep : Nat) (dir : Dir) : Statement (.queryStall ep dir) :=
  ⟨_, List.getElem_mem (l := rows) (n := 5) (by decide), rfl, word_and (by decide) (by cases dir <;> decide)⟩

theorem setEpfunc (ep : Nat) : Statement (.setEpfunc ep) :=
  ⟨_, List.getElem_mem (l := rows) (n := 6) (by decide), rfl, word_and (by decide) (by decide)⟩

theorem readErr : Statement .readErr := ⟨_, List.getElem_mem (l := rows) (n := 7) (by decide), rfl, by decide⟩

theorem dispatch : Statement .dispatch := ⟨_, List.getElem_mem (l := rows) (n := 8) (by decide), rfl, by decide⟩

end Sys2Proof.Laws.RowOf
end

