-- ==== Sys2Proof/Laws/UpperLayer.lean ====
section
/-! SUPPORT. What an access to `ARG0` does at every width of a buffer address, and register accesses that have a step. -/

namespace Sys2Proof.Machine

/-- Writing a word again changes nothing (R67). -/
theorem arg0Written_idem (p : Params) (a : Nat) (v : Word) : arg0Written p (arg0Written p a v) v = arg0Written p a v := by
  unfold arg0Written
  by_cases h : p.addrBits ≤ 32
  · rw [if_pos h, if_pos h]
  · rw [if_neg h, if_neg h]
    refine if_pos ?_
    split
    · assumption
    · rw [Nat.add_mul_mod_self_left, Nat.mod_eq_of_lt v.isLt]

/-- A write stays within the width of `ARG0` (10_state.md R23). -/
theorem arg0Written_lt {p : Params} {a : Nat} (v : Word) (ha : a < 2 ^ p.addrBits) : arg0Written p a v < 2 ^ p.addrBits := by
  unfold arg0Written
  split
  · exact Nat.mod_lt _ (Nat.two_pow_pos _)
  · rename_i hb
    split
    · exact ha
    · have hv := v.isLt
      have hh := Nat.mod_lt (Config.freeArg0High a v) (Nat.two_pow_pos (p.addrBits - 32))
      have hp : 2 ^ p.addrBits = 2 ^ 32 * 2 ^ (p.addrBits - 32) := by rw [← Nat.pow_add]; congr 1; omega
      rw [hp]
      generalize Config.freeArg0High a v % 2 ^ (p.addrBits - 32) = x at *
      generalize 2 ^ (p.addrBits - 32) = y at *
      omega

/-- The low word of a write is the word written, where `ARG0` is that wide (R64). -/
theorem arg0Written_low {p : Params} (a : Nat) (v : Word) (h : 32 ≤ p.addrBits) : arg0Written p a v % 2 ^ 32 = v.toNat := by
  unfold arg0Written
  split
  · rw [show p.addrBits = 32 by omega, Nat.mod_mod, Nat.mod_eq_of_lt v.isLt]
  · split
    · assumption
    · rw [Nat.add_mul_mod_self_left, Nat.mod_eq_of_lt v.isLt]

/-- An aligned word access within the map runs. -/
theorem State.access_ok {s : State} {offset : Nat} (body : Host.Outcome State Fault Refusal) (h4 : offset % 4 = 0)
    (hm : offset < 0x40 + 4 * s.numEp) : s.access offset .word body = body := by
  unfold State.access
  rw [if_neg (by simp [h4])]
  exact if_neg (Nat.not_le.mpr hm)

end Sys2Proof.Machine
end

