-- ==== Sys2Proof/Tests/Slice0.lean ====
section
/-! SUPPORT. Small tests with expected values from spec/ (95_test_vectors.md unless said otherwise), and for every obligation with
hypotheses a concrete state that meets them. -/

namespace Sys2Proof.Tests

open Sys2Proof.Machine

/-! ### Well-formedness refuses -/

theorem test_configure_ill_formed : (Instr.configure 16 true true true).wellFormed = false := by decide
theorem test_start_ill_formed : (Instr.start 16 .tx false false false).wellFormed = false := by decide
theorem test_stall_ill_formed : (Instr.stall 16 .tx).wellFormed = false := by decide
theorem test_unstall_ill_formed : (Instr.unstall 16 .rx).wellFormed = false := by decide
theorem test_flush_ill_formed : (Instr.flush 16 .tx).wellFormed = false := by decide
theorem test_queryStall_ill_formed : (Instr.queryStall 16 .rx).wellFormed = false := by decide
theorem test_setEpfunc_ill_formed : (Instr.setEpfunc 16).wellFormed = false := by decide

/-! ### Decoding words written bit by bit from 30_encoding.md R82 to R84 and R98 -/

/-- OPCODE 0x01, HSHK, TX, ep 9. -/
theorem test_decode_configure :
    decode 0b00000001_00000000_00000101_00001001 = .ok (.configure 9 true false true) := by decide
/-- OPCODE 0x02, dir TX, dts, ep 6: no force, no zlp. -/
theorem test_decode_start : decode 0b00000010_00000000_00000000_10100110 = .ok (.start 6 .tx false true false) := by decide
/-- OPCODE 0x03, dir RX, ep 8. -/
theorem test_decode_stall : decode 0b00000011_00000000_00000000_00001000 = .ok (.stall 8 .rx) := by decide
/-- OPCODE 0x04, dir TX, ep 5. -/
theorem test_decode_unstall : decode 0b00000100_00000000_00000000_10000101 = .ok (.unstall 5 .tx) := by decide
/-- OPCODE 0x05, dir RX, ep 3. -/
theorem test_decode_flush : decode 0b00000101_00000000_00000000_00000011 = .ok (.flush 3 .rx) := by decide
/-- OPCODE 0x06, dir TX, ep 3 (vector E25). -/
theorem test_decode_queryStall : decode 0b00000110_00000000_00000000_10000011 = .ok (.queryStall 3 .tx) := by decide
/-- OPCODE 0x07, ep 12. -/
theorem test_decode_setEpfunc : decode 0b00000111_00000000_00000000_00001100 = .ok (.setEpfunc 12) := by decide
theorem test_decode_readErr : decode 0b00001000_00000000_00000000_00000000 = .ok .readErr := by decide
theorem test_decode_dispatch : decode 0b00001001_00000000_00000000_00000000 = .ok .dispatch := by decide
/-- Vectors E16, E13, E2 and E6: one illegal word for each reason. -/
theorem test_decode_illegal :
    decode 0xFF000000 = .error .reservedOpcode ∧ decode 0x09010000 = .error .reservedByte ∧
    decode 0x01000802 = .error .reservedCflags ∧ decode 0x03000090 = .error .reservedXflags := by decide
/-- Row 0 of the table at `decodeTableWord`, and a number that is no 32-bit word. -/
theorem test_decodeTableWord :
    decodeTableWord 32 0x01000702 = some (.configure 2 true true true) ∧ decodeTableWord 32 0x101000702 = none := by decide

/-! ### Small states -/

/-- What a command leaves, as a yes or no question. -/
def leaves (o : Host.Outcome State Fault Refusal) (p : State → Bool) : Bool :=
  match o with
  | .next t => p t
  | .fault _ => false
  | .refused _ => false

/-- Both directions of endpoint 1 with `max` 64 and the transmit direction as given: vector state "ep1 configured". -/
def ep1 (rx tx : Channel) : Endpoint := { rx := rx, tx := tx, epctl := 0x1E, epfunc := 0xFF }

/-- An idle pipe with `max` 64. -/
def idle64 : Channel := { Channel.powerOn with pipe := { Pipe.powerOn with max := 64 } }

/-- Two endpoints, the second as given. -/
def machine (rx tx : Channel) : State :=
  { State.powerOn 2 Config.vectorParams with eps := [Endpoint.powerOn 0, ep1 rx tx] }

/-- "ep1 configured". -/
def configured : State := machine idle64 idle64

/-- A pipe in the middle of a 10-byte transfer at 0x2000: one packet with the engine. -/
def oneOut : Channel :=
  { idle64 with
    pipe := ⟨0x2000, 64, 10, 0, 0, true, true, false, false⟩
    bd0 := ⟨.hw, false, false, 10, 0x2000, .none⟩ }

/-- The same packet after the engine returned it. -/
def oneBack (p : Pid) : Channel := { oneOut with bd0 := ⟨.sw, false, false, 10, 0x2000, p⟩, engPp := true }

/-- A 10-byte transmit on endpoint 1 is with the engine. -/
def sending : State := machine idle64 oneOut

/-- A 10-byte receive on endpoint 1 is with the engine. -/
def receiving : State := machine oneOut idle64

/-- The 10-byte transmit is complete and its record waits. -/
def sent : State := { machine idle64 (oneBack .inn) with cq := [⟨1, .tx, false⟩] }

/-- Endpoint 0 armed for a setup packet, as after a bus reset (42_dispatch.md R182). -/
def armed : State :=
  { State.powerOn 2 Config.vectorParams with
    eps := [{ rx := { Channel.powerOn with
                pipe := ⟨0x100, 64, 8, 0, 0, true, true, false, false⟩, bd0 := ⟨.hw, false, false, 8, 0x100, .none⟩ }
              tx := idle64, epctl := 0x16, epfunc := 0xFF }, Endpoint.powerOn 1] }

/-! ### One step each -/

/-- Vector C1's kind: `CONFIGURE 1, 64, TX, RX, HSHK`. -/
theorem test_configure :
    leaves (exec (.configure 1 true true true) { State.powerOn 2 Config.vectorParams with arg1 := 64 })
      (fun t => t.epctl 1 == 0x1E && (t.pipe 1 .tx).max == 64 && (t.pipe 1 .rx).max == 64 && t.result == 0) = true := by decide

/-- Vector C2's kind: on endpoint 0, HSHK is 1 without the flag and CONDIS is 0. -/
theorem test_configure_ep0 :
    leaves (exec (.configure 0 true true false) { State.powerOn 2 Config.vectorParams with arg1 := 64 })
      (fun t => t.epctl 0 == 0x16) = true := by decide

/-- Vector T9's kind: `START 1, TX, 0x2000, 192, ZLP` queues two packets and keeps 64 bytes and the zero-length packet. -/
theorem test_start_two :
    leaves (exec (.start 1 .tx false false true) { configured with arg0 := 0x2000, arg1 := 192 })
      (fun t => t.bd 1 .tx false == ⟨.hw, false, false, 64, 0x2000, .none⟩ &&
        t.bd 1 .tx true == ⟨.hw, false, true, 64, 0x2040, .none⟩ &&
        t.pipe 1 .tx == ⟨0x2000, 64, 192, 64, 0, false, false, true, false⟩) = true := by decide

/-- Vector T14's order: a busy pipe fails E_BUSY before the null buffer is looked at. -/
theorem test_start_busy :
    leaves (exec (.start 1 .tx false false false) { sending with arg0 := 0, arg1 := 8 })
      (fun t => t.result == 3 && t.pipe 1 .tx == sending.pipe 1 .tx) = true := by decide

/-- Vector E24's kind: STALL arms both descriptors and returns 3. -/
theorem test_stall :
    leaves (exec (.stall 0 .tx) configured)
      (fun t => t.rdata == 3 && t.bd 0 .tx false == ⟨.hw, true, false, 0, 0, .none⟩ &&
        t.bd 0 .tx true == ⟨.hw, true, false, 0, 0, .none⟩) = true := by decide

/-- 40_pipe_config.md R115: an engine-owned descriptor is left alone, and its mask bit is 0. -/
theorem test_stall_owned :
    leaves (exec (.stall 1 .tx) sending)
      (fun t => t.rdata == 2 && t.bd 1 .tx false == ⟨.hw, false, false, 10, 0x2000, .none⟩) = true := by decide

/-- 40_pipe_config.md R118: UNSTALL takes an engine-owned descriptor back, keeping its count and address. -/
theorem test_unstall :
    leaves (exec (.unstall 1 .tx) sending)
      (fun t => t.bd 1 .tx false == ⟨.sw, false, false, 10, 0x2000, .none⟩ && t.pipe 1 .tx == sending.pipe 1 .tx) = true := by
  decide

/-- 40_pipe_config.md R121: FLUSH realigns the ping-pong index with the engine's pointer and keeps the toggle. -/
theorem test_flush :
    leaves (exec (.flush 1 .tx) sending)
      (fun t => t.bd 1 .tx false == ⟨.sw, false, false, 0, 0x2000, .none⟩ &&
        t.pipe 1 .tx == ⟨0, 64, 0, 0, 0, false, true, false, false⟩) = true := by decide

/-- 40_pipe_config.md R125: bit 1 of QUERY_STALL is descriptor 1. -/
theorem test_queryStall :
    leaves (exec (.queryStall 1 .rx) (machine { idle64 with bd1 := ⟨.hw, true, false, 0, 0, .none⟩ } idle64))
      (fun t => t.rdata == 2) = true := by decide

/-- Vector X2: `ARG1` = 259 is the function 3. -/
theorem test_setEpfunc :
    leaves (exec (.setEpfunc 1) { configured with arg1 := 259 }) (fun t => t.epfunc 1 == 3 && t.result == 0) = true := by decide

/-- Vector X1: 32 is no function. -/
theorem test_setEpfunc_range :
    leaves (exec (.setEpfunc 1) { configured with arg1 := 32 }) (fun t => t.epfunc 1 == 0xFF && t.result == 1) = true := by decide

/-- Vector X3: READ_ERR returns `ERRSTAT` without the pending bits, and leaves STATUS.ERROR. -/
theorem test_readErr :
    leaves (exec .readErr { configured with errstat := 0x82, errpend := 1, status := 0x20 })
      (fun t => t.rdata == 0x82 && t.errstat == 0 && t.errpend == 1 && t.status == 0x20) = true := by decide

/-- Vector D3's order: TICK, then the completed transfer, then STALL; `RDATA` counts them. -/
theorem test_dispatch_order :
    leaves (exec .dispatch { sent with status := 0x101 })
      (fun t => t.rdata == 3 && t.status == 0 &&
        t.evout == [⟨.tick, 0, .rx, false, 0, 0, 0⟩, ⟨.xferComplete, 1, .tx, false, 0xFF, 10, 0⟩,
          ⟨.stall, 0, .rx, false, 0, 0, 0⟩]) = true := by decide

/-- Vector D4: the error service ORs the transport errors into `ERRSTAT` and keeps OWN. -/
theorem test_dispatch_error :
    leaves (exec .dispatch { configured with errstat := 0x80, errpend := 0x05, status := 0x20 })
      (fun t => t.errstat == 0x85 && t.errpend == 0 && t.evout == [⟨.busError, 0, .rx, false, 0, 0x85, 0⟩]) = true := by decide

/-- Vector G7: an IN token on a stall-armed descriptor sets STATUS.STALL. -/
theorem test_in_stall :
    leaves (step { machine idle64 { idle64 with bd0 := ⟨.hw, true, false, 0, 0, .none⟩ } with inputs := [.inToken 1 true] })
      (fun t => t.status == 0x100 && t.cq == []) = true := by decide

/-- Vector G1's completion: the count is the packet's, the pointer inverts, the record joins `CQ`. -/
theorem test_out_completes :
    leaves (step { receiving with inputs := [.outPacket 1 false [1, 2, 3]] })
      (fun t => t.bd 1 .rx false == ⟨.sw, false, false, 3, 0x2000, .out⟩ && t.engPp 1 .rx && t.cq == [⟨1, .rx, false⟩] &&
        t.mem == [(0x2000, 1), (0x2001, 2), (0x2002, 3)]) = true := by decide

/-- Example 1.4: `80 06 00 01 00 00 40 00` lands at SETUP_BUF_ADDR, low byte first. -/
theorem test_setup_bytes :
    leaves (step { armed with inputs := [.setup ⟨0x80, 6, 0x0100, 0, 64⟩] })
      (fun t => t.mem == [(0x100, 0x80), (0x101, 6), (0x102, 0), (0x103, 1), (0x104, 0), (0x105, 0), (0x106, 64), (0x107, 0)] &&
        t.bd 0 .rx false == ⟨.sw, false, false, 8, 0x100, .setup⟩) = true := by decide

/-- 20_memory.md R64 and R66: a word write to `ARG1` keeps the low 16 bits. -/
theorem test_write_arg1 :
    leaves (step { configured with inputs := [.regWrite 0x08 .word 0x12345678] }) (fun t => t.arg1 == 0x5678) = true := by decide

/-- 30_encoding.md R96: `START 1, TX, 0x2000, 128, ZLP` writes `ARG0`, `ARG1` and `CMD` 0x02000091. -/
theorem test_assembler_start :
    (AsmLine.start 1 .tx 0x2000 128 none true).writes =
      [.regWrite 0x04 .word 0x2000, .regWrite 0x08 .word 128, .regWrite 0x00 .word 0x02000091] := by decide

/-- 30_encoding.md R97: STALL_EP0 stalls both pipes of endpoint 0. -/
theorem test_assembler_stallEp0 :
    Pseudo.stallEp0.writes = [.regWrite 0x00 .word 0x03000000, .regWrite 0x00 .word 0x03000080] := by decide

/-- Section 2.12: `{XFER_COMPLETE, ep 3, dir TX, pp 1, fd 0x1F, value 65535}`. -/
theorem test_event_words :
    (⟨.xferComplete, 3, .tx, true, 0x1F, 65535, 0⟩ : Event).word0 = 0x001F0336 ∧
    (⟨.xferComplete, 3, .tx, true, 0x1F, 65535, 0⟩ : Event).word1 = 0xFFFF := by decide

/-! ### Witnesses: the hypotheses of each obligation, met together -/

/-- Every pipe of a two-endpoint machine, one by one. -/
theorem machine_all {P : Channel → Prop} {s : State} {a b : Endpoint} (h : s.eps = [a, b]) (ha : ∀ d, P (a.channel d))
    (hb : ∀ d, P (b.channel d)) (h0 : P Channel.powerOn) (e : Nat) (d : Dir) : P (s.channel e d) := by
  unfold State.channel State.endpoint
  rw [h]
  match e with
  | 0 => exact ha d
  | 1 => exact hb d
  | e + 2 => cases d <;> exact h0

/-- No class is pending while `STATUS` is 0. -/
theorem quiet_of_status {s : State} (h : s.status = 0) : s.noClassPending := fun k => by
  unfold State.pending
  rw [h]
  cases k <;> rfl

theorem witness_DecodeOfEncode : (Instr.start 15 .tx true true true).wellFormed = true := by decide
theorem witness_EncodeOfDecode : decode 0x020000FF = .ok (.start 15 .tx true true true) := by decide

/-- The first and last reserved opcodes and, for each reserved field, its lowest or highest bit; and for the second clause a state
that writes one. -/
theorem witness_IllegalWordsOnlyReport :
    (decode 0x00FFFFFF = .error .reservedOpcode ∧ decode 0x0A000000 = .error .reservedOpcode ∧
      decode 0xFF000000 = .error .reservedOpcode ∧ decode 0x01010000 = .error .reservedByte ∧
      decode 0x01000800 = .error .reservedCflags ∧ decode 0x01000010 = .error .reservedXflags ∧
      decode 0x02000100 = .error .reservedCflags ∧ decode 0x06000040 = .error .reservedXflags ∧
      decode 0x07000080 = .error .reservedXflags ∧ decode 0x08000001 = .error .reservedXflags) ∧
    ({ configured with inputs := [.regWrite 0x00 .word 0] } : State).inputs = .regWrite 0x00 .word 0 :: [] ∧
    decode 0 = .error .reservedOpcode := by decide

theorem witness_StepRunsDecodedInstruction :
    ({ configured with inputs := [.regWrite 0x00 .word 0x03000081] } : State).inputs = .regWrite 0x00 .word 0x03000081 :: [] ∧
    decode 0x03000081 = .ok (.stall 1 .tx) := by decide
theorem witness_FetchWordRunsNext : decode (BitVec.ofNat 32 0x09000000) = .ok .dispatch := by decide
/-- Endpoint 0 and the last endpoint of four. -/
theorem witness_PowerOnValues : 0 < 4 ∧ 3 < 4 := by decide
theorem witness_PowerOnEnablesNoEngineStep :
    (Input.inToken 0 true).isEngine = true ∧ (Input.outPacket 1 false [1]).isEngine = true ∧
    (Input.setup ⟨0, 0, 0, 0, 0⟩).isEngine = true ∧ (Input.txFetch 1 true 0).isEngine = true := by decide
/-- RESET pending over a running transfer, with nothing else pending. -/
theorem witness_DispatchBusResetLeavesPowerUpTables :
    ({ sending with status := 0x10 } : State).params.wf = true ∧ 1 ≤ ({ sending with status := 0x10 } : State).numEp ∧
    ({ sending with status := 0x10 } : State).pending .reset = true ∧ ({ sending with status := 0x10 } : State).cq = [] ∧
    ({ sending with status := 0x10 } : State).pending .error = false := by decide
/-- The first endpoint that is absent, and the last one a word can name. -/
theorem witness_AbsentEndpointFailsRange :
    ((Instr.stall 2 .tx).endpoint? = some 2 ∧ configured.numEp ≤ 2) ∧
    ((Instr.setEpfunc 15).endpoint? = some 15 ∧ configured.numEp ≤ 15) := by decide
/-- The first endpoint and the last one, with one direction selected and the other not. -/
theorem witness_ConfigureWritesSelectedPipes :
    0 < configured.numEp ∧ 1 < configured.numEp ∧ (match Dir.tx with | .rx => false | .tx => true) = true ∧
      (match Dir.rx with | .rx => false | .tx => true) = false := by decide
theorem witness_ConfigureWritesEndpointControl : 0 < configured.numEp ∧ 1 < configured.numEp := by decide
theorem witness_UnstallForcesBothDescriptors : 0 < configured.numEp ∧ 1 < sending.numEp := by decide
theorem witness_FlushReclaimsAndRealigns : 0 < configured.numEp ∧ 1 < sending.numEp := by decide
theorem witness_QueryStallReadsBothBits : 0 < configured.numEp ∧ 1 < sending.numEp := by decide
/-- One descriptor owned by each side, for both clauses of STALL. -/
theorem witness_StallArmsOwnedDescriptors :
    1 < sending.numEp ∧ (sending.bd 1 .tx false).uown = .hw ∧ (sending.bd 1 .tx true).uown = .sw := by decide
theorem witness_FlushIsIdempotent : ∃ t, exec (.flush 1 .tx) sending = .next t := ⟨_, rfl⟩

/-- Endpoint 1 configured, with one of its transmit descriptors armed to stall, and a 65-byte transfer in the arguments. -/
def armedFirst : State := { machine idle64 { idle64 with bd0 := ⟨.hw, true, false, 0, 0, .none⟩ } with arg0 := 1, arg1 := 65 }
def armedSecond : State := { machine idle64 { idle64 with bd1 := ⟨.hw, true, false, 0, 0, .none⟩ } with arg0 := 1, arg1 := 65 }

/-- One state for each failure of START, and for E_OWNERSHIP one for each way it arises. -/
theorem witness_StartFailsInOrder :
    (0 < configured.numEp ∧ (configured.pipe 0 .tx).max = 0) ∧
    ((sending.pipe 1 .tx).max ≠ 0 ∧ (sending.pipe 1 .tx).buf ≠ 0) ∧
    ((configured.pipe 1 .tx).max ≠ 0 ∧ (configured.pipe 1 .tx).buf = 0 ∧ configured.arg0 = 0) ∧
    ((armedFirst.pipe 1 .tx).max ≠ 0 ∧ (armedFirst.pipe 1 .tx).buf = 0 ∧ armedFirst.arg0 ≠ 0 ∧
      (armedFirst.bd 1 .tx (armedFirst.pipe 1 .tx).pp).uown = .hw) ∧
    ((armedSecond.pipe 1 .tx).max ≠ 0 ∧ (armedSecond.pipe 1 .tx).buf = 0 ∧ armedSecond.arg0 ≠ 0 ∧
      (armedSecond.pipe 1 .tx).max.toNat < armedSecond.arg1.toNat ∧
      (armedSecond.bd 1 .tx (!(armedSecond.pipe 1 .tx).pp)).uown = .hw) := by decide

/-- Endpoint 1 configured, with a transfer of `n` bytes in the arguments. -/
def asked (n : Size) : State := { configured with arg0 := 0x2000, arg1 := n }

/-- Whatever the size, the pipe is idle and configured, and the block owns both descriptors. -/
theorem asked_ready (n : Size) :
    1 < (asked n).numEp ∧ ((asked n).pipe 1 .tx).max ≠ 0 ∧ ((asked n).pipe 1 .tx).buf = 0 ∧ (asked n).arg0 ≠ 0 ∧
      ∀ i, ((asked n).bd 1 .tx i).uown = .sw :=
  ⟨Nat.lt_add_one 1, by show (64#10) ≠ 0; decide, rfl, by show 0x2000 ≠ 0; decide, fun i => by cases i <;> rfl⟩

/-- Sizes 0, 63 and 64 (without zero-termination) are one packet. -/
theorem witness_StartHandsOffOnePacket :
    ∀ n ∈ [0, 63, 64],
      (asked (BitVec.ofNat 16 n)).arg1.toNat < ((asked (BitVec.ofNat 16 n)).pipe 1 .tx).max.toNat ∨
      ((asked (BitVec.ofNat 16 n)).arg1.toNat = ((asked (BitVec.ofNat 16 n)).pipe 1 .tx).max.toNat ∧ false = false) := by decide

/-- Sizes 64 (with zero-termination), 65, 128 and 65535 are two packets or more. -/
theorem witness_StartHandsOffTwoPackets :
    ∀ n ∈ [64, 65, 128, 65535],
      ((asked (BitVec.ofNat 16 n)).pipe 1 .tx).max.toNat < (asked (BitVec.ofNat 16 n)).arg1.toNat ∨
      ((asked (BitVec.ofNat 16 n)).arg1.toNat = ((asked (BitVec.ofNat 16 n)).pipe 1 .tx).max.toNat ∧ true = true) := by decide

/-- 0, 31 and NONE are written; 32 and 254 are refused with E_RANGE. -/
theorem witness_SetEpfuncWritesLegalIndexes :
    (∀ n ∈ [0, 31, 255],
      ((asked (BitVec.ofNat 16 n)).arg1.setWidth 8).toNat ≤ 31 ∨ (asked (BitVec.ofNat 16 n)).arg1.setWidth 8 = (0xFF : BitVec 8)) ∧
    ∀ n ∈ [32, 254],
      32 ≤ ((asked (BitVec.ofNat 16 n)).arg1.setWidth 8).toNat ∧ ((asked (BitVec.ofNat 16 n)).arg1.setWidth 8).toNat ≤ 254 := by
  decide

theorem witness_DispatchWithNothingPending : configured.noClassPending ∧ configured.cq = [] :=
  ⟨quiet_of_status rfl, rfl⟩
/-- Every class pending, so that every clause of the statement speaks. -/
theorem witness_DispatchAppendsEventsInOrder :
    ∀ k ∈ [StatusClass.tick, .detach, .sof, .reset, .error, .idle, .resume, .stall],
      ({ sent with status := 0x1F7 } : State).pending k = true := by decide

/-- A completion record of an idle pipe. -/
theorem witness_StrayCompletionOnlyRemovesRecord :
    let s := { machine idle64 { idle64 with engPp := true } with cq := [⟨1, .tx, false⟩] }
    s.noClassPending ∧ s.cq = ⟨1, .tx, false⟩ :: [] ∧ (s.bd 1 .tx false).uown = .sw ∧ 1 ≠ 0 ∧ (s.pipe 1 .tx).buf = 0 :=
  ⟨quiet_of_status rfl, rfl, rfl, by decide, rfl⟩

/-- A 64-byte transfer whose one packet is back. -/
def filled : State :=
  { machine idle64 { oneBack .inn with
      pipe := ⟨0x2000, 64, 64, 0, 0, true, true, false, false⟩, bd0 := ⟨.sw, false, false, 64, 0x2000, .inn⟩ } with
    cq := [⟨1, .tx, false⟩] }

/-- A short packet, and a full packet that fills its transfer. -/
theorem witness_DoneCompletionIdlesPipeAndReports :
    (sent.noClassPending ∧ sent.cq = ⟨1, .tx, false⟩ :: [] ∧ 1 < sent.numEp ∧ (sent.bd 1 .tx false).uown = .sw ∧
      (sent.pipe 1 .tx).buf ≠ 0 ∧ sent.held 1 .tx = false ∧ (sent.bd 1 .tx false).bc.toNat < (sent.pipe 1 .tx).max.toNat) ∧
    filled.noClassPending ∧ filled.cq = ⟨1, .tx, false⟩ :: [] ∧ 1 < filled.numEp ∧ (filled.bd 1 .tx false).uown = .sw ∧
      (filled.pipe 1 .tx).buf ≠ 0 ∧ filled.held 1 .tx = false ∧
      (filled.pipe 1 .tx).cnt + (filled.bd 1 .tx false).bc.setWidth 16 = (filled.pipe 1 .tx).size ∧
      (filled.pipe 1 .tx).zeroPkt = false :=
  ⟨⟨quiet_of_status rfl, rfl, by decide, rfl, by decide, rfl, by decide⟩, quiet_of_status rfl, rfl, by decide, rfl, by decide, rfl,
    by decide, rfl⟩

/-- A transfer of 192 bytes with two packets handed off and the first back; `r` bytes are left and `z` says whether the
zero-length packet is due. -/
def midway (r : Size) (z : Bool) : State :=
  { machine idle64 { idle64 with
      pipe := ⟨0x2000, 64, 192, r, 0, false, false, true, z⟩
      bd0 := ⟨.sw, false, false, 64, 0x2000, .inn⟩
      bd1 := ⟨.hw, false, true, 64, 0x2040, .none⟩
      engPp := true } with cq := [⟨1, .tx, false⟩] }

/-- Data due, the zero-length packet due, and nothing due. -/
theorem witness_ContinuingCompletionQueuesNextPacket :
    ∀ s ∈ [midway 64 false, midway 0 true, midway 0 false],
      s.noClassPending ∧ s.cq = ⟨1, .tx, false⟩ :: [] ∧ 1 < s.numEp ∧ (s.bd 1 .tx false).uown = .sw ∧ (s.pipe 1 .tx).buf ≠ 0 ∧
        s.held 1 .tx = false ∧
        ¬ ((s.bd 1 .tx false).bc.toNat < (s.pipe 1 .tx).max.toNat ∨
          ((s.pipe 1 .tx).cnt + (s.bd 1 .tx false).bc.setWidth 16 = (s.pipe 1 .tx).size ∧ (s.pipe 1 .tx).zeroPkt = false)) ∧
        (s.pipe 1 .tx).rem.toNat ≤ (s.pipe 1 .tx).size.toNat ∧ (s.bd 1 .tx (s.pipe 1 .tx).pp).uown = .sw := by
  intro s hs
  simp only [List.mem_cons, List.not_mem_nil, or_false] at hs
  rcases hs with rfl | rfl | rfl <;> exact ⟨quiet_of_status rfl, by decide⟩

/-- Vector K9's shape: the next descriptor is the engine's. -/
def blocked : State :=
  { machine idle64 { idle64 with
      pipe := ⟨0x4000, 64, 192, 64, 0, true, false, false, false⟩
      bd0 := ⟨.sw, false, true, 64, 0x4040, .inn⟩
      bd1 := ⟨.hw, false, false, 64, 0x4000, .none⟩
      engPp := true } with cq := [⟨1, .tx, false⟩] }

/-- The transfer of `blocked` after its OWNFAIL, when the engine has returned the other descriptor too. -/
def heldBack : State :=
  { machine idle64 { idle64 with
      pipe := ⟨0x4000, 64, 192, 64, 64, true, false, false, false⟩
      bd0 := ⟨.sw, false, true, 64, 0x4040, .inn⟩
      bd1 := ⟨.sw, false, false, 64, 0x4000, .inn⟩
      held := true } with cq := [⟨1, .tx, true⟩] }

/-- The packet that meets an engine-owned descriptor, then a later packet of the held transfer, and a step of the held pipe. -/
theorem witness_HeldContinuationReportsBusError :
    (blocked.cq = ⟨1, .tx, false⟩ :: [] ∧ 1 < blocked.numEp ∧ (blocked.bd 1 .tx false).uown = .sw ∧ (blocked.pipe 1 .tx).buf ≠ 0 ∧
      (∀ k, k ≠ .error → blocked.pending k = false) ∧ blocked.held 1 .tx = false ∧
      ¬ ((blocked.bd 1 .tx false).bc.toNat < (blocked.pipe 1 .tx).max.toNat ∨
        ((blocked.pipe 1 .tx).cnt + (blocked.bd 1 .tx false).bc.setWidth 16 = (blocked.pipe 1 .tx).size ∧
          (blocked.pipe 1 .tx).zeroPkt = false)) ∧
      (blocked.pipe 1 .tx).rem ≠ 0 ∧ (blocked.bd 1 .tx (blocked.pipe 1 .tx).pp).uown = .hw) ∧
    (heldBack.cq = ⟨1, .tx, true⟩ :: [] ∧ 1 < heldBack.numEp ∧ (heldBack.bd 1 .tx true).uown = .sw ∧
      (heldBack.pipe 1 .tx).buf ≠ 0 ∧ heldBack.noClassPending ∧ heldBack.held 1 .tx = true) ∧
    ∃ t, step { heldBack with inputs := [.regWrite 0 .word 0x05000081] } = .next t :=
  ⟨⟨rfl, by decide, rfl, by decide, fun k _ => quiet_of_status rfl k, rfl, by decide, by decide, rfl⟩,
    ⟨rfl, by decide, rfl, by decide, quiet_of_status rfl, rfl⟩, _, rfl⟩

/-- 41_transfer.md R153 and 93_implementation_defined.md U22: OWNFAIL holds the transfer, and a later completion hands nothing off. -/
theorem test_held_transfer :
    leaves (exec .dispatch blocked) (fun t => t.held 1 .tx && t.rdata == 1 && (t.pipe 1 .tx).cnt == 64) = true ∧
    leaves (exec .dispatch heldBack)
      (fun t => t.held 1 .tx && t.rdata == 0 && (t.bd 1 .tx true).uown == .sw && t.pipe 1 .tx == ⟨0x4000, 64, 192, 64, 128, true,
        false, false, false⟩) = true := by decide

/-- 70_reset_and_hazards.md R254: FLUSH is the recovery. -/
theorem test_flush_ends_hold :
    leaves (exec (.flush 1 .tx) heldBack) (fun t => !t.held 1 .tx && (t.pipe 1 .tx).buf == 0) = true := by decide

/-- Vector K10's shape: the record's descriptor was handed off again. -/
theorem witness_StaleRecordReportsBusError :
    let s := { sending with cq := [⟨1, .tx, false⟩] }
    (∀ k, k ≠ .error → s.pending k = false) ∧ s.cq = ⟨1, .tx, false⟩ :: [] ∧ (s.bd 1 .tx false).uown = .hw :=
  ⟨fun k _ => quiet_of_status rfl k, rfl, rfl⟩

/-- Vector D8's shape. -/
theorem witness_SetupPacketIdlesPipeAndReports :
    let s := { armed with
      eps := [{ rx := { oneBack .setup with bd0 := ⟨.sw, false, false, 8, 0x100, .setup⟩ }, tx := idle64, epctl := 0x16,
                epfunc := 0xFF }, Endpoint.powerOn 1]
      cq := [⟨0, .rx, false⟩] }
    s.noClassPending ∧ s.cq = ⟨0, .rx, false⟩ :: [] ∧ 0 < s.numEp ∧ (s.bd 0 .rx false).uown = .sw ∧
      (s.bd 0 .rx false).pid = .setup :=
  ⟨quiet_of_status rfl, rfl, by decide, rfl, rfl⟩

/-- ERROR alone, with a transport error over a set OWN. -/
def failing : State := { configured with status := 0x20, errpend := 5, errstat := 0x80 }

/-- Every class pending with a completion record waiting (vector D3's shape). -/
def crowded : State := { sent with status := 0x1F7, errpend := 2 }

/-- Every class pending with a record whose descriptor the engine owns. -/
def stale : State := { sending with status := 0x1F7, errpend := 2, cq := [⟨1, .tx, false⟩] }

/-- `blocked` and `heldBack` with a transport error pending. -/
def blockedError : State := { blocked with status := 0x20, errpend := 2 }
def heldError : State := { heldBack with status := 0x20, errpend := 2 }

/-- No record, a record that is no violation, one whose descriptor is the engine's, one whose packet goes on to an engine-owned
descriptor, and the packet of a held transfer. -/
theorem witness_ErrorServiceAccumulates :
    (failing.pending .error = true ∧ (∀ k, k ≠ .error → failing.pending k = false) ∧ failing.cq = []) ∧
    (crowded.pending .error = true ∧ crowded.cq = ⟨1, .tx, false⟩ :: [] ∧ (crowded.bd 1 .tx false).uown = .sw ∧
      (crowded.bd 1 .tx (crowded.pipe 1 .tx).pp).uown = .sw) ∧
    (stale.pending .error = true ∧ stale.cq = ⟨1, .tx, false⟩ :: [] ∧ (stale.bd 1 .tx false).uown = .hw) ∧
    (blockedError.pending .error = true ∧ blockedError.cq = ⟨1, .tx, false⟩ :: [] ∧ (blockedError.bd 1 .tx false).uown = .sw ∧
      (blockedError.pipe 1 .tx).buf ≠ 0 ∧ blockedError.held 1 .tx = false ∧
      ¬ ((blockedError.bd 1 .tx false).bc.toNat < (blockedError.pipe 1 .tx).max.toNat ∨
        ((blockedError.pipe 1 .tx).cnt + (blockedError.bd 1 .tx false).bc.setWidth 16 = (blockedError.pipe 1 .tx).size ∧
          (blockedError.pipe 1 .tx).zeroPkt = false)) ∧
      (blockedError.pipe 1 .tx).rem ≠ 0 ∧ (blockedError.bd 1 .tx (blockedError.pipe 1 .tx).pp).uown = .hw) ∧
    heldError.pending .error = true ∧ heldError.cq = ⟨1, .tx, true⟩ :: [] ∧ (heldError.bd 1 .tx true).uown = .sw ∧
      heldError.held 1 .tx = true :=
  ⟨⟨by decide, fun k => by cases k <;> decide, rfl⟩, by decide⟩

/-- The continuation violation of vector K9's shape with an error pending: OWN joins it in the same DISPATCH (41_transfer.md R153,
42_dispatch.md R172, R183). -/
theorem test_dispatch_error_with_continuation_violation :
    leaves (exec .dispatch blockedError) (fun t => t.errstat == 0x82 && t.errpend == 0 && t.rdata == 1 && t.held 1 .tx &&
      t.evout == [⟨.busError, 0, .rx, false, 0, 0x82, 0⟩]) = true := by decide

/-- A DISPATCH with every class and a stale record pending: OWN joins the transport errors in `ERRSTAT` and in the event, after the
bus reset (42_dispatch.md R172, R175, R180, R183). -/
theorem test_dispatch_error_among_others :
    leaves (exec .dispatch stale)
      (fun t => t.errstat == 0x82 && t.errpend == 0 && t.rdata == 8 &&
        t.evout.contains ⟨.busError, 0, .rx, false, 0, 0x82, 0⟩) = true := by decide

/-- Each of the six forwarded classes alone. -/
theorem witness_ForwardedClassRaisesItsEvent :
    ∀ c n, (c, n) ∈ [(StatusClass.tick, 0), (.detach, 1), (.sof, 2), (.idle, 6), (.resume, 7), (.stall, 8)] →
      let s : State := { configured with status := 1#16 <<< n }
      s.cq = [] ∧ ∀ c', s.pending c' = decide (c' = c) := by
  intro c n h
  simp only [List.mem_cons, Prod.mk.injEq, List.not_mem_nil, or_false] at h
  rcases h with ⟨rfl, rfl⟩ | ⟨rfl, rfl⟩ | ⟨rfl, rfl⟩ | ⟨rfl, rfl⟩ | ⟨rfl, rfl⟩ | ⟨rfl, rfl⟩ <;>
    exact ⟨rfl, fun c' => by cases c' <;> decide⟩

theorem witness_InCompletionReturnsDescriptor :
    let s := { sending with inputs := [.inToken 1 true] }
    s.inputs = .inToken 1 true :: [] ∧ 1 < s.numEp ∧ (s.epctl 1).getLsbD 1 = true ∧ (s.epctl 1).getLsbD 4 = true ∧
      (s.bd 1 .tx (s.engPp 1 .tx)).uown = .hw ∧ (s.bd 1 .tx (s.engPp 1 .tx)).stall = false ∧
      s.cq.length < s.params.statFifoDepth ∧
      (s.bd 1 .tx (s.engPp 1 .tx)).addr + (s.bd 1 .tx (s.engPp 1 .tx)).bc.toNat ≤ 2 ^ s.params.addrBits ∧
      9 < (s.bd 1 .tx (s.engPp 1 .tx)).bc.toNat ∧ ((s.channel 1 .tx).fetched (s.engPp 1 .tx)).lookup 9 = none ∧
      s.underRx ((s.bd 1 .tx (s.engPp 1 .tx)).addr + 9) = false := by decide

/-- An empty packet, and one as long as the count. -/
theorem witness_OutCompletionStoresPacket :
    ∀ data ∈ [[], List.replicate 10 (7 : Byte)],
      let s := { receiving with inputs := [.outPacket 1 false data] }
      s.inputs = .outPacket 1 false data :: [] ∧ 1 < s.numEp ∧ Memory.wf s.mem ∧ (s.epctl 1).getLsbD 2 = true ∧
        (s.epctl 1).getLsbD 4 = true ∧ (s.bd 1 .rx (s.engPp 1 .rx)).uown = .hw ∧
        (s.bd 1 .rx (s.engPp 1 .rx)).stall = false ∧ s.cq.length < s.params.statFifoDepth ∧
        false = (s.bd 1 .rx (s.engPp 1 .rx)).tog ∧ data.length ≤ (s.bd 1 .rx (s.engPp 1 .rx)).bc.toNat ∧
        (s.bd 1 .rx (s.engPp 1 .rx)).addr + (s.bd 1 .rx (s.engPp 1 .rx)).bc.toNat ≤ 2 ^ s.params.addrBits := by decide

/-- The armed descriptor's count is exactly 8. -/
theorem witness_SetupIsStoredAndReturned :
    let s := { armed with inputs := [.setup ⟨0x80, 6, 0x0100, 0, 64⟩] }
    s.inputs = .setup ⟨0x80, 6, 0x0100, 0, 64⟩ :: [] ∧ 0 < s.numEp ∧ Memory.wf s.mem ∧
      (s.bd 0 .rx (s.engPp 0 .rx)).uown = .hw ∧ 8 ≤ (s.bd 0 .rx (s.engPp 0 .rx)).bc.toNat ∧ (s.epctl 0).getLsbD 2 = true ∧
      (s.epctl 0).getLsbD 3 = false ∧ (s.epctl 0).getLsbD 4 = true ∧ s.cq.length < s.params.statFifoDepth ∧
      (s.bd 0 .rx (s.engPp 0 .rx)).addr + (s.bd 0 .rx (s.engPp 0 .rx)).bc.toNat ≤ 2 ^ s.params.addrBits := by decide

/-- An IN token and an OUT packet on stall-armed descriptors, with room for the last record in `CQ`. -/
theorem witness_StallHandshakeOnlySetsStatus :
    let c : Channel := { idle64 with bd0 := ⟨.hw, true, false, 0, 0, .none⟩ }
    ∀ x ∈ [Input.inToken 1 false, .outPacket 1 true [7]],
      let s := { machine c c with inputs := [x], cq := List.replicate 3 ⟨1, .rx, false⟩ }
      s.inputs = x :: [] ∧ 1 < s.numEp ∧ (s.epctl 1).getLsbD 1 = true ∧ (s.epctl 1).getLsbD 2 = true ∧
        (s.epctl 1).getLsbD 4 = true ∧ s.cq.length < s.params.statFifoDepth ∧ ∀ d ∈ [Dir.rx, .tx],
          (s.bd 1 d (s.engPp 1 d)).uown = .hw ∧ (s.bd 1 d (s.engPp 1 d)).stall = true := by decide

/-- 70_reset_and_hazards.md R260: with `CQ` full the token is NAKed, on a stall-armed descriptor too (log 10). -/
theorem test_full_queue_holds_stall :
    leaves (step { machine idle64 { idle64 with bd0 := ⟨.hw, true, false, 0, 0, .none⟩ } with
      inputs := [.inToken 1 true], cq := List.replicate 4 ⟨1, .rx, false⟩ }) (fun t => t.status == 0 && t.cq.length == 4) = true := by
  decide

/-- A state for each way a token is not served, with the token first among the inputs: no such endpoint, the direction or the
handshakes disabled, a descriptor of the block, `CQ` full, no acknowledgement, the other toggle, a packet one byte too long; and for
SETUP also CONDIS and a count of 7. -/
theorem witness_UnservedTokensChangeNothing :
    ({ sending with inputs := [.inToken 1 false] } : State).inputs = .inToken 1 false :: [] ∧
    sending.numEp ≤ 2 ∧ (sending.epctl 0).getLsbD 1 = false ∧ (sending.epctl 0).getLsbD 2 = false ∧
    (sending.epctl 0).getLsbD 4 = false ∧ (configured.bd 1 .tx (configured.engPp 1 .tx)).uown = .sw ∧
    ({ sending with cq := List.replicate 4 ⟨1, .rx, false⟩ } : State).params.statFifoDepth ≤
      ({ sending with cq := List.replicate 4 ⟨1, .rx, false⟩ } : State).cq.length ∧
    (sending.bd 1 .tx (sending.engPp 1 .tx)).stall = false ∧
    ((receiving.bd 1 .rx (receiving.engPp 1 .rx)).stall = false ∧ true ≠ (receiving.bd 1 .rx (receiving.engPp 1 .rx)).tog ∧
      (receiving.bd 1 .rx (receiving.engPp 1 .rx)).bc.toNat < (List.replicate 11 (0 : Byte)).length) ∧
    (({ armed with eps := [{ armed.endpoint 0 with epctl := 0x1E }] } : State).epctl 0).getLsbD 3 = true ∧
    (({ armed with eps := [{ armed.endpoint 0 with rx := { idle64 with bd0 := ⟨.hw, false, false, 7, 0x100, .none⟩ } }] } :
      State).bd 0 .rx false).bc.toNat < 8 := by decide

/-- A 10-byte buffer that ends one byte past the address space. -/
def pastEnd : Channel := { oneOut with bd0 := ⟨.hw, false, false, 10, 2 ^ 32 - 9, .none⟩ }

/-- `pastEnd` in both directions of endpoint 1 and for reception on endpoint 0, with one input. -/
def overrun (x : Input) : State :=
  { armed with eps := [{ armed.endpoint 0 with rx := pastEnd }, ep1 pastEnd pastEnd], inputs := [x] }

/-- The three transactions, and the early read of the packet's last byte. -/
theorem witness_WrappingBufferStopsEngine :
    (∀ x ∈ [Input.inToken 1 true, .outPacket 1 false [7], .txFetch 1 false 9],
      (overrun x).inputs = x :: [] ∧ 1 < (overrun x).numEp ∧ ((overrun x).epctl 1).getLsbD 1 = true ∧
        ((overrun x).epctl 1).getLsbD 2 = true ∧ ((overrun x).epctl 1).getLsbD 4 = true ∧
        (overrun x).cq.length < (overrun x).params.statFifoDepth) ∧
    (∀ d ∈ [Dir.rx, .tx],
      let s := overrun .tick
      false = s.engPp 1 d ∧ (s.bd 1 d false).uown = .hw ∧ (s.bd 1 d false).stall = false ∧ 9 < (s.bd 1 d false).bc.toNat ∧
        false = (s.bd 1 d false).tog ∧ 2 ^ s.params.addrBits < (s.bd 1 d false).addr + (s.bd 1 d false).bc.toNat) ∧
    let s := overrun (.setup ⟨0, 0, 0, 0, 0⟩)
    s.inputs = .setup ⟨0, 0, 0, 0, 0⟩ :: [] ∧ 0 < s.numEp ∧ false = s.engPp 0 .rx ∧ (s.epctl 0).getLsbD 2 = true ∧
      (s.epctl 0).getLsbD 3 = false ∧ (s.epctl 0).getLsbD 4 = true ∧ s.cq.length < s.params.statFifoDepth ∧
      (s.bd 0 .rx false).uown = .hw ∧ 8 ≤ (s.bd 0 .rx false).bc.toNat ∧
      2 ^ s.params.addrBits < (s.bd 0 .rx false).addr + (s.bd 0 .rx false).bc.toNat := by decide

/-- 20_memory.md R68, the boundary of log 8: a buffer whose last byte is the last address does not reach past it, and one byte more
does. -/
theorem test_buffer_boundary :
    Descriptor.wraps Config.vectorParams ⟨.hw, false, false, 64, 0xFFFFFFC0, .none⟩ = false ∧
    Descriptor.wraps Config.vectorParams ⟨.hw, false, false, 65, 0xFFFFFFC0, .none⟩ = true := by decide

theorem witness_TransmitRaceAdmitsOldAndNewByte :
    1 < sending.numEp ∧ Memory.wf sending.mem ∧ (sending.epctl 1).getLsbD 1 = true ∧ (sending.epctl 1).getLsbD 4 = true ∧
      (sending.bd 1 .tx (sending.engPp 1 .tx)).uown = .hw ∧ (sending.bd 1 .tx (sending.engPp 1 .tx)).stall = false ∧
      sending.cq.length < sending.params.statFifoDepth ∧
      (sending.bd 1 .tx (sending.engPp 1 .tx)).addr + (sending.bd 1 .tx (sending.engPp 1 .tx)).bc.toNat ≤
        2 ^ sending.params.addrBits ∧
      9 < (sending.bd 1 .tx (sending.engPp 1 .tx)).bc.toNat ∧
      ((sending.channel 1 .tx).fetched (sending.engPp 1 .tx)).lookup 9 = none ∧
      sending.underRx ((sending.bd 1 .tx (sending.engPp 1 .tx)).addr + 9) = false := by decide

/-- Each environment input first among the inputs, a nonzero mask, and the empty one. -/
theorem witness_EnvironmentStepsSetTheirBits :
    (∀ x ∈ [Input.tick, .sessionLost, .startOfFrame, .busReset, .busIdle, .resumeSignal, .transportError 0x1F,
      .transportError 0], ({ configured with inputs := [x] } : State).inputs = x :: []) ∧ (0x1F : BitVec 5) ≠ 0 := by decide

/-- Each register of the map, the first and last reserved offset, and the last endpoint's register (of two), each read twice. -/
theorem witness_RegisterReadsFollowMap :
    ∀ o ∈ [0x00, 0x04, 0x08, 0x0C, 0x10, 0x14, 0x18, 0x3C, 0x40, 0x44],
      let s := { configured with inputs := [.regRead o .word, .regRead o .word] }
      s.inputs = .regRead o .word :: [.regRead o .word] ∧ s.params.addrBits ≤ 32 ∧ o % 4 = 0 ∧ o < 0x40 + 4 * s.numEp := by decide

/-- Each clause's offset, written twice; 32 bits meet the bounds of both clauses about `ARG0`, which then agree. -/
theorem witness_RegisterWritesFollowMap :
    ∀ o ∈ [0x04, 0x08, 0x0C, 0x3C, 0x44],
      let s := { configured with inputs := [.regWrite o .word 0xFFFFFFFF, .regWrite o .word 0xFFFFFFFF] }
      s.inputs = .regWrite o .word 0xFFFFFFFF :: [.regWrite o .word 0xFFFFFFFF] ∧ s.params.addrBits ≤ 32 ∧
        32 ≤ s.params.addrBits ∧ s.arg0 < 2 ^ s.params.addrBits ∧ o % 4 = 0 ∧ o < 0x40 + 4 * s.numEp ∧ o ≠ 0 := by decide

/-- A byte access, a misaligned word, and the first word beyond the map. -/
theorem witness_OtherRegisterAccessesAreRefused :
    (({ configured with inputs := [.regRead 0x04 .byte] } : State).inputs = .regRead 0x04 .byte :: [] ∧
      AccessWidth.byte ≠ .word) ∧ 0x05 % 4 ≠ 0 ∧
    ({ configured with inputs := [.regWrite 0x48 .word 0] } : State).inputs = .regWrite 0x48 .word 0 :: [] ∧ 0x48 % 4 = 0 ∧
    0x40 + 4 * configured.numEp ≤ 0x48 := by decide

theorem witness_EventWordsCarryFields : (⟨.xferComplete, 15, .tx, true, 0xFF, 65535, 0⟩ : Event).ep < 16 := by decide

/-- The last address that exists and the first that does not. -/
theorem witness_UpperLayerAccessesBufferMemory :
    ∀ a ∈ [2 ^ 32 - 1, 2 ^ 32],
      let s := { configured with inputs := [.bufWrite a 7] }
      s.inputs = .bufWrite a 7 :: [] ∧ Memory.wf s.mem ∧
        (a < 2 ^ s.params.addrBits ∨ 2 ^ s.params.addrBits ≤ a) ∧ s.underRx a = false := by decide

/-- One endpoint and sixteen. -/
theorem witness_ResetMeetsInvariants :
    Config.vectorParams.wf = true ∧ Config.vectorParams.setupBufAddr + 8 ≤ 2 ^ Config.vectorParams.addrBits ∧
    (1 ≤ 1 ∧ 1 ≤ 16) ∧ (1 ≤ 16 ∧ 16 ≤ 16) := by decide

/-- An idle pipe is consistent, and so is the transfer under way in `sending`. -/
theorem idle64_consistent : idle64.Consistent Config.vectorParams :=
  ⟨⟨fun _ => ⟨rfl, rfl, rfl, rfl, rfl⟩, fun _ => rfl, Nat.le_refl _, by decide, fun h => by cases h⟩,
    fun i => by cases i <;> exact ⟨by decide, fun h => by cases h⟩, fun h => by cases h⟩

theorem oneOut_consistent : oneOut.Consistent Config.vectorParams :=
  ⟨⟨fun h => absurd h (by decide), fun h => absurd h (by decide), by decide, by decide, fun h => absurd h (by decide)⟩,
    fun i => by cases i; exacts [⟨by decide, fun _ _ => rfl⟩, ⟨by decide, fun h => absurd h (by decide)⟩], fun h => by cases h⟩

theorem powerOn_consistent : Channel.powerOn.Consistent Config.vectorParams :=
  ⟨⟨fun _ => ⟨rfl, rfl, rfl, rfl, rfl⟩, fun _ => rfl, Nat.le_refl _, by decide, fun h => by cases h⟩,
    fun i => by cases i <;> exact ⟨by decide, fun h => by cases h⟩, fun h => by cases h⟩

theorem sending_consistent (l : List Input) : ({ sending with inputs := l } : State).TablesConsistent := by
  have h := machine_all (P := fun c => c.Consistent Config.vectorParams) (s := { sending with inputs := l }) rfl
    (fun d => by cases d <;> exact powerOn_consistent)
    (fun d => by cases d; exacts [idle64_consistent, oneOut_consistent]) powerOn_consistent
  exact ⟨(by decide : Config.vectorParams.wf = true), Nat.two_pow_pos 32, fun e d => (h e d).pipe, fun e d => (h e d).bds, fun e d => (h e d).hold⟩

/-- A transfer under way, and the step that completes its packet. -/
theorem witness_StepKeepsTablesConsistent :
    ({ sending with inputs := [.inToken 1 true] } : State).TablesConsistent ∧
      ∃ t, step { sending with inputs := [.inToken 1 true] } = .next t :=
  ⟨sending_consistent _, _, rfl⟩

/-- Every class pending and every error bit set, over a transfer under way. -/
def busy (l : List Input) : State := { sending with inputs := l, status := 0x1F7, errstat := 0x9F }

theorem busy_legal (l : List Input) : (busy l).RegistersLegal := by
  have h : ∀ e, ((busy l).endpoint e).epctl &&& 0xE1 = 0 ∧ ((busy l).endpoint e).epctl.getLsbD 3 = !decide (e = 0) ∧
      fdLegal ((busy l).endpoint e).epfunc = true := by
    intro e
    match e with
    | 0 => exact ⟨(by decide : 0x00#8 &&& 0xE1 = 0), (by decide : (0x00#8).getLsbD 3 = !decide (0 = 0)), rfl⟩
    | 1 => exact ⟨(by decide : 0x1E#8 &&& 0xE1 = 0), (by decide : (0x1E#8).getLsbD 3 = !decide (1 = 0)), rfl⟩
    | e + 2 => exact ⟨(by decide : 0x08#8 &&& 0xE1 = 0), show (0x08#8).getLsbD 3 = !decide (e + 2 = 0) by simp, rfl⟩
  exact ⟨fun e => (h e).1, fun e => (h e).2.1, fun e => (h e).2.2, (by decide : 0x9F#8 &&& 0x60 = 0),
    (by decide : 0x1F7#16 &&& 0xFE08 = 0), Nat.zero_le _, fun _ => rfl⟩

theorem witness_StepKeepsRegistersLegal :
    (busy [.regWrite 0 .word 0x01000701]).RegistersLegal ∧ ∃ t, step (busy [.regWrite 0 .word 0x01000701]) = .next t :=
  ⟨busy_legal _, _, rfl⟩

/-- A byte is listed already, and an OUT packet is stored. -/
theorem witness_StepKeepsMemoryCanonical :
    let s := { receiving with mem := [(0x2001, 5)], inputs := [.outPacket 1 false [1, 2, 3]] }
    s.MemoryCanonical ∧ ∃ t, step s = .next t :=
  ⟨⟨by decide, by decide⟩, _, rfl⟩

/-- One record short of full. -/
theorem witness_StepKeepsQueueBounded :
    let s := { sending with cq := List.replicate 3 ⟨1, .rx, false⟩, inputs := [.inToken 1 true] }
    s.QueueBounded ∧ s.ParametersInRange ∧ ∃ t, step s = .next t :=
  ⟨⟨by decide, by decide⟩, ⟨by decide, by decide, by decide⟩, _, rfl⟩

theorem idle64_fits : idle64.Fits Config.vectorParams := ⟨by decide, by decide, fun i => by cases i <;> decide⟩
theorem oneOut_fits : oneOut.Fits Config.vectorParams := ⟨by decide, by decide, fun i => by cases i <;> decide⟩
theorem powerOn_fits : Channel.powerOn.Fits Config.vectorParams := ⟨by decide, by decide, fun i => by cases i <;> decide⟩

/-- A transfer under way and a START of a buffer that ends with the address space. -/
theorem witness_FittingTransfersNeverStickEngine :
    let s := { sending with arg0 := 2 ^ 32 - 64, arg1 := 64, inputs := [.regWrite 0 .word 0x02000001] }
    s.TablesConsistent ∧ s.BuffersFit ∧ (∀ x, s.inputs.head? = some x → s.startFits x = true) ∧ ∃ t, step s = .next t := by
  intro s
  have h := machine_all (P := fun c => c.Consistent Config.vectorParams) (s := s) rfl
    (fun d => by cases d <;> exact powerOn_consistent)
    (fun d => by cases d; exacts [idle64_consistent, oneOut_consistent]) powerOn_consistent
  have h' := machine_all (P := fun c => c.Fits Config.vectorParams) (s := s) rfl
    (fun d => by cases d <;> exact powerOn_fits)
    (fun d => by cases d; exacts [idle64_fits, oneOut_fits]) powerOn_fits
  exact ⟨⟨by decide, by decide, fun e d => (h e d).pipe, fun e d => (h e d).bds, fun e d => (h e d).hold⟩,
    ⟨by decide, fun e d => (h' e d).remaining, fun e d => (h' e d).transfer, fun e d => (h' e d).bds⟩,
    fun x hx => by cases hx; decide, _, rfl⟩

/-- A command that writes descriptors beside one the engine owns, and a DISPATCH without RESET. -/
theorem witness_CommandsKeepEngineOwnedDescriptors :
    ((∀ ep d, Instr.stall 1 .tx ≠ .unstall ep d ∧ Instr.stall 1 .tx ≠ .flush ep d) ∧ ∃ t, exec (.stall 1 .tx) sending = .next t) ∧
    sending.pending .reset = false ∧ (∃ t, exec .dispatch sending = .next t) ∧ (sending.bd 1 .tx false).uown = .hw :=
  ⟨⟨fun _ _ => ⟨by simp, by simp⟩, _, rfl⟩, by decide, ⟨_, rfl⟩, by decide⟩

theorem witness_CommandsNeverTouchBufferMemory : ∃ t, exec (.start 1 .rx false false false) { sending with arg0 := 1 } = .next t :=
  ⟨_, rfl⟩

/-- A completion, beside a descriptor the block owns. -/
theorem witness_EngineWritesOnlyItsDescriptors :
    ({ sending with inputs := [.inToken 1 true] } : State).inputs = .inToken 1 true :: [] ∧ (Input.inToken 1 true).isEngine = true ∧
      (∃ t, step { sending with inputs := [.inToken 1 true] } = .next t) ∧ (sending.bd 1 .tx true).uown = .sw :=
  ⟨rfl, rfl, ⟨_, rfl⟩, by decide⟩

/-- For each alternative of the statement a step: nothing, a completion, a bus reset. -/
theorem witness_EnginePointerMovesOnCompletionOnly :
    ∀ x ∈ [Input.tick, .inToken 1 true, .regWrite 0 .word 0x09000000],
      ∃ t, step { sending with status := 0x10, inputs := [x] } = .next t := by
  intro x hx
  simp only [List.mem_cons, List.not_mem_nil, or_false] at hx
  rcases hx with rfl | rfl | rfl <;> exact ⟨_, rfl⟩

/-- For each alternative of the statement a step; the second is also the one its first clause speaks of. -/
theorem witness_EventOutputIsAppendedAndConsumed :
    ∀ x ∈ [Input.tick, .takeEvent, .regWrite 0 .word 0x09000000], ∃ t, step { sent with inputs := [x] } = .next t := by
  intro x hx
  simp only [List.mem_cons, List.not_mem_nil, or_false] at hx
  rcases hx with rfl | rfl | rfl <;> exact ⟨_, rfl⟩

/-- Legal registers with a class pending; and a step that is no DISPATCH. -/
theorem witness_InterruptLineFollowsPendingClasses :
    (busy [.tick]).RegistersLegal ∧ (∃ t, step (busy [.tick]) = .next t) ∧
    (∀ v rest, (busy [.tick]).inputs = .regWrite 0x00 .word v :: rest → decode v ≠ .ok .dispatch) ∧
    (busy [.tick]).pending .stall = true :=
  ⟨busy_legal _, ⟨_, rfl⟩, fun v rest h => absurd (List.cons.inj h).1 (by simp), by decide⟩

/-- A DISPATCH that ORs into the error bits. -/
theorem witness_ErrorBitsStayUntilReadErr :
    let s := { sending with inputs := [.regWrite 0 .word 0x09000000], status := 0x20, errstat := 0x80, errpend := 3 }
    (∃ t, step s = .next t) ∧
    (∀ v rest, s.inputs = .regWrite 0x00 .word v :: rest → decode v ≠ .ok .readErr) ∧ s.errstat.getLsbD 7 = true :=
  ⟨⟨_, rfl⟩, fun v rest h => by cases h; decide, by decide⟩

end Sys2Proof.Tests
end

section
/-! PROOFS. Ownership of descriptors (00_scope.md R17, 10_state.md R55): the commands other than the forced reclaims keep the
descriptors the engine owns (O54), and the engine keeps the ones the block owns (O56). -/

namespace Sys2Proof.Machine

/-! ### Commands keep the descriptors the engine owns -/

/-- A change of a pipe that leaves every descriptor the engine owns as it was. -/
def Channel.KeepsOwned (c c' : Channel) : Prop := ∀ k, (c.bd k).uown = .hw → c'.bd k = c.bd k

theorem Channel.KeepsOwned.of_bd {c c' : Channel} (h : ∀ k, c'.bd k = c.bd k) : c.KeepsOwned c' := fun k _ => h k

theorem Channel.KeepsOwned.refl (c : Channel) : c.KeepsOwned c := .of_bd fun _ => rfl

/-- STALL arms only the descriptors the block owns (R115). -/
theorem Channel.keepsOwned_armStall (c : Channel) :
    c.KeepsOwned { c with bd0 := c.bd0.armStall, bd1 := c.bd1.armStall } := by
  intro k hk
  cases k
  · exact Descriptor.armStall_of_hw hk
  · exact Descriptor.armStall_of_hw hk

/-- Of the commands on one pipe only UNSTALL and FLUSH write a descriptor the engine owns. -/
theorem Channel.commanded_keepsOwned {p : Params} {i : Instr} {s : State} {ep : Nat} {dir : Dir} {c c' : Channel}
    (hi : i ≠ .unstall ep dir ∧ i ≠ .flush ep dir) (h : c.commanded p i s ep dir c') : c.KeepsOwned c' := by
  rcases h with rfl | ⟨hu, -⟩ | ⟨hf, -⟩ | ⟨_, _, _, -, hstart⟩
  · exact c.keepsOwned_armStall
  · exact absurd hu hi.1
  · exact absurd hf hi.2
  · obtain ⟨-, -, hbd⟩ := Channel.start_keeps hstart
    exact hbd

/-- CONFIGURE writes no descriptor (R110). -/
theorem Endpoint.configured_bd (x : Endpoint) (ep : Nat) (max : Count) (cfTx cfRx cfHshk : Bool) (d : Dir) (k : Bool) :
    ((x.configured ep max cfTx cfRx cfHshk).channel d).bd k = (x.channel d).bd k := by
  rcases Endpoint.configured_channel x ep max cfTx cfRx cfHshk d with h | h <;> rw [h]
  exact Channel.configured_bd ..

/-- A step that leaves every descriptor the engine owns as it was. -/
def State.KeepsOwned (s t : State) : Prop := ∀ e d, (s.channel e d).KeepsOwned (t.channel e d)

theorem State.KeepsOwned.refl (s : State) : s.KeepsOwned s := fun _ _ => .refl _

/-- The tables alone decide what is kept. -/
theorem State.KeepsOwned.of_eps {s u t : State} (h : s.KeepsOwned u) (heps : t.eps = u.eps) : s.KeepsOwned t := fun e d => by
  rw [State.channel_of_eps heps]
  exact h e d

theorem State.KeepsOwned.setChannel {s : State} {e : Nat} {d : Dir} {c : Channel} (h : (s.channel e d).KeepsOwned c) :
    s.KeepsOwned (s.setChannel e d c) :=
  State.setChannel_all (P := fun k d' c' => (s.channel k d').KeepsOwned c') (fun _ _ => .refl _) h

theorem State.KeepsOwned.setEndpoint {s : State} {e : Nat} {x : Endpoint}
    (h : ∀ d, (s.channel e d).KeepsOwned (x.channel d)) : s.KeepsOwned (s.setEndpoint e x) :=
  State.setEndpoint_all (P := fun k x' => ∀ d, (s.channel k d).KeepsOwned (x'.channel d)) (fun _ _ => .refl _) h

/-- The token-complete service hands packets off into descriptors the block owns only (R145, R174). -/
theorem tokenService_keepsOwned (s : State) : s.KeepsOwned (tokenService s).1 := by
  obtain ⟨e, d, c, ⟨i, hc⟩, hstate⟩ := tokenService_state s
  have hkeep : (s.channel e d).KeepsOwned c := by
    rcases hc with rfl | rfl | ⟨rfl, -⟩
    · exact .refl _
    · exact (Channel.completePacket_keeps s.params (s.channel e d) i).2
    · exact .of_bd fun k => Channel.idled_bd _ k
  rcases hstate with h | h <;> rw [h] <;> exact (State.KeepsOwned.setChannel hkeep).of_eps rfl

/-- The services of a DISPATCH without RESET pending write the tables in the token-complete service only. -/
theorem runServices_keepsOwned {s : State} (hreset : s.pending .reset = false) :
    s.KeepsOwned (runServices services s).1 := by
  obtain ⟨v, _, rfl, -, heps⟩ := runServices_tables s
  rw [hreset, if_neg Bool.false_ne_true] at heps
  exact (tokenService_keepsOwned { s with status := v }).of_eps heps

/-- Every command but UNSTALL, FLUSH and a DISPATCH that runs the bus-reset service keeps what the engine owns. -/
theorem exec_keepsOwned {i : Instr} {s t : State} (hi : ∀ ep d, i ≠ .unstall ep d ∧ i ≠ .flush ep d)
    (hreset : i = .dispatch → s.pending .reset = false) (h : exec i s = .next t) : s.KeepsOwned t := by
  obtain ⟨t', ht, hcases⟩ := exec_cases i s
  obtain rfl := Host.Outcome.next.inj (ht.symm.trans h)
  rcases hcases with ⟨_, -, rfl⟩ | rfl | ⟨_, rfl⟩ | ⟨ep, cfTx, cfRx, cfHshk, -, -, rfl⟩ | ⟨ep, -, -, rfl⟩ |
    ⟨ep, dir, c, _, -, hc, rfl⟩ | ⟨-, rfl⟩ | ⟨hd, rfl⟩
  · exact (State.KeepsOwned.refl s).of_eps rfl
  · exact (State.KeepsOwned.refl s).of_eps rfl
  · exact (State.KeepsOwned.refl s).of_eps rfl
  · refine (State.KeepsOwned.setEndpoint fun d => .of_bd fun k => ?_).of_eps rfl
    exact Endpoint.configured_bd (s.endpoint ep) ep s.maxOperand cfTx cfRx cfHshk d k
  · refine (State.KeepsOwned.setEndpoint (x := { s.endpoint ep with epfunc := s.fdOperand }) fun d => ?_).of_eps rfl
    cases d <;> exact .refl _
  · exact (State.KeepsOwned.setChannel (Channel.commanded_keepsOwned (hi ep dir) hc)).of_eps rfl
  · exact (State.KeepsOwned.refl s).of_eps rfl
  · exact (runServices_keepsOwned (hreset hd)).of_eps rfl

/-- Settles O54, by the cases of what a command can do. -/
theorem commandsKeepEngineOwnedDescriptors : Obligations.CommandsKeepEngineOwnedDescriptors :=
  fun _ _ _ hi hreset h e d => exec_keepsOwned hi hreset h e d

/-! ### The engine keeps what the block owns -/

/-- A change the engine may make to a pipe it serves: to descriptors it owns, its pointer and the bytes it has read. -/
structure Channel.EngineChange (c c' : Channel) : Prop where
  pipe : c'.pipe = c.pipe
  held : c'.held = c.held
  blockOwned : ∀ k, (c.bd k).uown = .sw → c'.bd k = c.bd k

theorem Channel.EngineChange.refl (c : Channel) : c.EngineChange c := ⟨rfl, rfl, fun _ _ => rfl⟩

/-- Returning the descriptor it serves is such a change, if the engine owns it. -/
theorem Channel.engineChange_returned {c : Channel} (f : Descriptor → Descriptor) (hhw : (c.bd c.engPp).uown = .hw) :
    c.EngineChange (c.returned f) := by
  refine ⟨Channel.returned_pipe .., Channel.returned_held .., fun k hsw => ?_⟩
  have hne : k ≠ c.engPp := by
    rintro rfl
    cases hhw.symm.trans hsw
  rw [Channel.returned_bd, if_neg hne]

theorem Channel.engineChange_setFetched (c : Channel) (i : Bool) (l : List (Nat × Byte)) :
    c.EngineChange (c.setFetched i l) :=
  ⟨Channel.setFetched_pipe .., Channel.setFetched_held .., fun _ _ => Channel.setFetched_bd ..⟩

/-- An engine step changes nothing, raises STALL, or changes one pipe as the engine may, with what else it shares. -/
theorem engineStep_change {x : Input} {s t : State} (hx : x.isEngine = true) (h : runInput x s = .next t) :
    t = s ∨ t = s.raise .stall ∨ ∃ e d c cq mem sent freeCtr, (s.channel e d).EngineChange c ∧
      t = { s.setChannel e d c with cq := cq, mem := mem, sent := sent, freeCtr := freeCtr } := by
  rcases engineStep_cases hx h with h | h | ⟨e, -, hhw, -, -, rfl⟩ | ⟨e, data, -, hhw, -, -, -, -, rfl⟩ |
    ⟨_, -, hhw, -, -, -, rfl⟩ | ⟨e, i, l, _, rfl⟩
  · exact .inl h
  · exact .inr (.inl h)
  · have hc := Channel.engineChange_returned (fun b => { b with pid := .inn }) hhw
    exact .inr (.inr ⟨e, .tx, _, _, _, _, _, hc, rfl⟩)
  · have hc := Channel.engineChange_returned (fun b => { b with bc := BitVec.ofNat 10 data.length, pid := .out }) hhw
    exact .inr (.inr ⟨e, .rx, _, _, _, _, _, hc, rfl⟩)
  · have hc := Channel.engineChange_returned
      (fun b => { b with bc := BitVec.ofNat 10 Config.setupLen, pid := .setup, stall := false }) hhw
    exact .inr (.inr ⟨0, .rx, _, _, _, _, _, hc, rfl⟩)
  · exact .inr (.inr ⟨e, .tx, _, _, _, _, _, Channel.engineChange_setFetched _ i l, rfl⟩)

/-- What an engine step leaves unchanged. -/
structure State.EngineKeeps (s t : State) : Prop where
  channels : ∀ e d, (s.channel e d).EngineChange (t.channel e d)
  registers : ∀ e, t.epctl e = s.epctl e ∧ t.epfunc e = s.epfunc e
  frame : t = { s with eps := t.eps, cq := t.cq, status := t.status, mem := t.mem, sent := t.sent, freeCtr := t.freeCtr }
  pending : ∀ k, k ≠ .stall → t.pending k = s.pending k

theorem engineStep_engineKeeps {x : Input} {s t : State} (hx : x.isEngine = true) (h : runInput x s = .next t) :
    s.EngineKeeps t := by
  rcases engineStep_change hx h with rfl | rfl | ⟨e, d, c, _, _, _, _, hc, rfl⟩
  · exact ⟨fun _ _ => .refl _, fun _ => ⟨rfl, rfl⟩, rfl, fun _ _ => rfl⟩
  · exact ⟨fun _ _ => .refl _, fun _ => ⟨rfl, rfl⟩, rfl, fun k hk => by simp [hk]⟩
  · have hset := State.setChannel_all (P := fun k d' c' => (s.channel k d').EngineChange c') (fun _ _ => .refl _) hc
    exact ⟨hset, fun k => ⟨State.setChannel_epctl s e k d c, State.setChannel_epfunc s e k d c⟩, rfl, fun _ _ => rfl⟩

/-- Settles O56, by the frame of an engine step on the state without its input. -/
theorem engineWritesOnlyItsDescriptors : Obligations.EngineWritesOnlyItsDescriptors := by
  intro s t x rest hinput hx hstep
  obtain ⟨hch, hreg, hframe, hpend⟩ := engineStep_engineKeeps hx ((step_of_input hinput).symm.trans hstep)
  exact ⟨fun e d => (hch e d).blockOwned, fun e d => ⟨(hch e d).pipe, (hch e d).held⟩, hreg, hframe, hpend⟩

end Sys2Proof.Machine
end

section
/-! PROOFS. What every step keeps (10_state.md R44 to R54, 30_encoding.md R90, 00_scope.md R8): each step is a sequence of
single writes, each with the condition under which a step makes it, and a property that every such write keeps is kept by
every step. Consistent tables (O48), legal registers (O49), a bounded queue and fixed parameters (O51), the engine's pointer
(O57), `EVOUT` (O58) and the error bits (O60) follow. -/

namespace Sys2Proof.Machine

/-! ### A step as a sequence of writes -/

/-- The next input writes the word of command `i` to `CMD`. -/
def State.Issues (s : State) (i : Instr) : Prop :=
  ∃ v rest, s.inputs = .regWrite 0x00 .word v :: rest ∧ decode v = .ok i

/-- The next input is the engine's. -/
def State.EngineActs (s : State) : Prop := ∃ x rest, s.inputs = x :: rest ∧ x.isEngine = true

/-- One write of a step taken in state `s₀`, with the conditions under which a step makes it. -/
inductive State.Write (s₀ : State) : State → State → Prop
  | ok (s v) : Write s₀ s (s.ok v)
  | fail (s c) : Write s₀ s (s.fail c)
  | raise (s c errpend) : Write s₀ s { s.raise c with errpend := errpend }
  | clear (s c) : Write s₀ s (s.clear c)
  | violation (s) : Write s₀ s s.ownershipViolation
  | collectErrors (s) : Write s₀ s { s with errstat := s.errstat ||| s.errpend.setWidth 8, errpend := 0 }
  | clearErrors (s) (hcmd : s₀.Issues .readErr) : Write s₀ s { s with errstat := 0 }
  | configure (s ep max cfTx cfRx cfHshk) :
      Write s₀ s (s.setEndpoint ep ((s.endpoint ep).configured ep max cfTx cfRx cfHshk))
  | assign (s ep fd) (hfd : fdLegal fd = true) : Write s₀ s (s.setEndpoint ep { s.endpoint ep with epfunc := fd })
  | pipe (s e d c) (hpp : c.engPp = s.engPp e d) : Write s₀ s (s.setChannel e d c)
  | complete (s e d f) (hep : e < s.numEp) (hroom : s.cq.length < s.params.statFifoDepth) (hengine : s₀.EngineActs) :
      Write s₀ s (s.engineReturn e d f)
  | dequeue (s) : Write s₀ s { s with cq := s.cq.tail }
  | reinitialise (s) (hcmd : s₀.Issues .dispatch) (hreset : s₀.pending .reset = true) : Write s₀ s s.reinitialised
  | emit (s evs) (hcmd : s₀.Issues .dispatch) : Write s₀ s { s with evout := s.evout ++ evs }
  | take (s taken) (hinput : ∃ rest, s₀.inputs = .takeEvent :: rest) :
      Write s₀ s { s with taken := taken, evout := s.evout.tail }
  | arg0 (s v) : Write s₀ s (s.writeArg0 v)
  | other (s arg1 mem inputs freeCtr busData bufData sent) :
      Write s₀ s { s with arg1 := arg1, mem := mem, inputs := inputs, freeCtr := freeCtr, busData := busData,
                          bufData := bufData, sent := sent }

/-- A sequence of writes. -/
abbrev State.Writes (s₀ : State) : State → State → Prop := Relation.ReflTransGen (State.Write s₀)

/-- The token-complete service writes one pipe and takes the head of `CQ`, perhaps with an ownership violation. -/
theorem tokenService_writes (s₀ s : State) : s₀.Writes s (tokenService s).1 := by
  obtain ⟨e, d, c, ⟨i, hc⟩, hstate⟩ := tokenService_state s
  have hpp : c.engPp = s.engPp e d := by
    rcases hc with rfl | rfl | ⟨rfl, -⟩
    · rfl
    · exact (Channel.completePacket_keeps s.params (s.channel e d) i).1
    · rfl
  have hwrites : s₀.Writes s { s.setChannel e d c with cq := s.cq.tail } := .head (.pipe s e d c hpp) (.single (.dequeue _))
  rcases hstate with h | h <;> rw [h]
  · exact hwrites
  · exact hwrites.tail (.violation _)

/-- The bus-reset service clears its class, reinitialises, configures endpoint 0 and arms the setup buffer. -/
theorem busResetService_writes {s₀ s : State} (hcmd : s₀.Issues .dispatch)
    (hreset : s.pending .reset = true → s₀.pending .reset = true) : s₀.Writes s (busResetService s).1 := by
  rcases busResetService_state s with ⟨-, h⟩ | ⟨hp, h⟩ <;> rw [h]
  have hconf : s₀.Writes s (s.clear .reset).reinitialised.configureEp0 :=
    .head (.clear s .reset) (.head (.reinitialise _ hcmd (hreset hp)) (.single (.configure ..)))
  rcases State.armSetup_cases (s.clear .reset).reinitialised.configureEp0 with h | ⟨c, hstart, h⟩ <;> rw [h]
  · exact hconf
  · exact hconf.tail (.pipe _ _ _ _ (Channel.start_keeps hstart).1)

theorem errorService_writes (s₀ s : State) : s₀.Writes s (errorService s).1 := by
  rcases errorService_state s with h | h <;> rw [h]
  exact .head (.clear s .error) (.single (.collectErrors _))

theorem forward_writes (s₀ : State) (c : StatusClass) (k : EventKind) (s : State) : s₀.Writes s (forward c k s).1 := by
  rcases forward_state c k s with h | h <;> rw [h]
  exact .single (.clear s c)

/-- No service raises RESET. -/
theorem service_reset_pending {f : State → State × List Event} (hf : f ∈ services) {s : State}
    (h : (f s).1.pending .reset = true) : s.pending .reset = true := by
  rcases mem_services hf with ⟨c, k, rfl, -, -⟩ | rfl | rfl | rfl
  · rw [forward_pending, Bool.and_eq_true] at h
    exact h.2
  · rwa [tokenService_pending_of_ne s (by decide)] at h
  · rw [busResetService_pending, Bool.and_eq_true] at h
    exact h.2
  · rw [errorService_pending, Bool.and_eq_true] at h
    exact h.2

/-- Every service is a sequence of writes. -/
theorem service_writes {s₀ s : State} {f : State → State × List Event} (hf : f ∈ services) (hcmd : s₀.Issues .dispatch)
    (hreset : s.pending .reset = true → s₀.pending .reset = true) : s₀.Writes s (f s).1 := by
  rcases mem_services hf with ⟨c, k, rfl, -, -⟩ | rfl | rfl | rfl
  · exact forward_writes s₀ c k s
  · exact tokenService_writes s₀ s
  · exact busResetService_writes hcmd hreset
  · exact errorService_writes s₀ s

theorem runServices_writes {s₀ s : State} (hcmd : s₀.Issues .dispatch)
    (hreset : s.pending .reset = true → s₀.pending .reset = true) : s₀.Writes s (runServices services s).1 := by
  refine (runServices_of (P := fun u => s₀.Writes s u ∧ (u.pending .reset = true → s₀.pending .reset = true)) services
    ?_ s ⟨.refl, hreset⟩).1
  rintro f hf u ⟨hu, hr⟩
  exact ⟨hu.trans (service_writes hf hcmd hr), fun h => hr (service_reset_pending hf h)⟩

/-- No command on one pipe moves the engine's pointer. -/
theorem Channel.commanded_engPp {p : Params} {i : Instr} {s : State} {ep : Nat} {dir : Dir} {c c' : Channel}
    (h : c.commanded p i s ep dir c') : c'.engPp = c.engPp := by
  rcases h with rfl | ⟨-, rfl⟩ | ⟨-, rfl⟩ | ⟨_, _, _, -, hstart⟩
  · rfl
  · rfl
  · rfl
  · exact (Channel.start_keeps hstart).1

/-- Every command is a sequence of writes. -/
theorem exec_writes {s₀ s t : State} {i : Instr} (hcmd : s₀.Issues i)
    (hreset : s.pending .reset = true → s₀.pending .reset = true) (h : exec i s = .next t) : s₀.Writes s t := by
  obtain ⟨t', ht, hcases⟩ := exec_cases i s
  obtain rfl := Host.Outcome.next.inj (ht.symm.trans h)
  rcases hcases with ⟨c, -, rfl⟩ | rfl | ⟨v, rfl⟩ | ⟨ep, cfTx, cfRx, cfHshk, -, -, rfl⟩ | ⟨ep, -, hfd, rfl⟩ |
    ⟨ep, dir, c, v, -, hc, rfl⟩ | ⟨rfl, rfl⟩ | ⟨rfl, rfl⟩
  · exact .single (.fail s c)
  · exact .head (.violation s) (.single (.fail _ _))
  · exact .single (.ok s v)
  · exact .head (.configure s ep s.maxOperand cfTx cfRx cfHshk) (.single (.ok _ _))
  · exact .head (.assign s ep s.fdOperand hfd) (.single (.ok _ _))
  · exact .head (.pipe s ep dir c (Channel.commanded_engPp hc)) (.single (.ok _ _))
  · exact .head (.clearErrors s hcmd) (.single (.ok _ _))
  · exact ((runServices_writes hcmd hreset).tail (.emit _ _ hcmd)).tail (.ok _ _)

/-- Every step of the engine is a sequence of writes. -/
theorem engineStep_writes {s₀ s t : State} {x : Input} (hengine : s₀.EngineActs) (hx : x.isEngine = true)
    (h : runInput x s = .next t) : s₀.Writes s t := by
  rcases engineStep_cases hx h with rfl | rfl | ⟨e, he, -, -, hroom, rfl⟩ | ⟨e, data, he, -, -, hroom, -, -, rfl⟩ |
    ⟨q, he, -, hroom, -, -, rfl⟩ | ⟨e, i, l, n, rfl⟩
  · exact .refl
  · exact .single (.raise s .stall s.errpend)
  · exact .head (.complete s e .tx _ he hroom hengine) (.single (.other ..))
  · exact .head (.complete s e .rx _ he hroom hengine) (.single (.other ..))
  · exact .head (.complete s 0 .rx _ he hroom hengine) (.single (.other ..))
  · exact .head (.pipe s e .tx _ (Channel.setFetched_engPp ..)) (.single (.other ..))

/-- Every step is a sequence of writes. -/
theorem step_writes {s t : State} (h : step s = .next t) : s.Writes s t := by
  rcases step_cases h with ⟨-, rfl⟩ | ⟨x, rest, hinput, hx⟩
  · exact .refl
  refine .head (.other s s.arg1 s.mem rest s.freeCtr s.busData s.bufData s.sent) ?_
  rcases runInput_cases hx with he | ⟨v, i, rfl, hd, hexec⟩ | rfl | ⟨v, rfl⟩ | ⟨v, rfl⟩ | ⟨b, d, n, rfl⟩ | ⟨rfl, rfl⟩ |
    ⟨a, v, -, rfl⟩ | ⟨c, m, rfl⟩
  · exact engineStep_writes ⟨x, rest, hinput, he⟩ he hx
  · exact exec_writes ⟨v, rest, hinput, hd⟩ id hexec
  · exact .single (.fail _ .illegal)
  · exact .single (.arg0 _ v)
  · exact .single (.other ..)
  · exact .single (.other ..)
  · exact .single (.take _ _ ⟨rest, hinput⟩)
  · exact .single (.other ..)
  · exact .single (.raise _ c m)

/-- A property that every write of a step keeps is kept by the step. -/
theorem step_keeps {P : State → Prop} {s t : State} (hP : ∀ u v, s.Write u v → P u → P v) (hs : P s)
    (h : step s = .next t) : P t := by
  have hwrites := step_writes h
  clear h
  induction hwrites with
  | refl => exact hs
  | tail _ hw ih => exact hP _ _ hw ih

/-! ### Parameters and the record queue -/

theorem State.Write.params {s₀ u v : State} (h : s₀.Write u v) : v.params = u.params := by
  cases h <;> rfl

theorem State.Write.numEp {s₀ u v : State} (h : s₀.Write u v) : v.numEp = u.numEp := by
  cases h with
  | configure | assign => exact State.setEndpoint_numEp ..
  | pipe | complete => exact State.setChannel_numEp ..
  | reinitialise => exact State.reinitialised_numEp u
  | _ => rfl

theorem step_params {s t : State} (h : step s = .next t) : t.params = s.params :=
  step_keeps (P := fun u => u.params = s.params) (fun _ _ hw hu => hw.params.trans hu) rfl h

theorem step_numEp {s t : State} (h : step s = .next t) : t.numEp = s.numEp :=
  step_keeps (P := fun u => u.numEp = s.numEp) (fun _ _ hw hu => hw.numEp.trans hu) rfl h

/-- Parameters in their ranges stay so where neither they nor the number of endpoints change. -/
theorem State.ParametersInRange.of_eq {s t : State} (h : s.ParametersInRange) (hp : t.params = s.params)
    (hn : t.numEp = s.numEp) : t.ParametersInRange where
  params := hp ▸ h.params
  numEpPositive := hn ▸ h.numEpPositive
  numEpBounded := hn ▸ h.numEpBounded

/-- A write leaves `CQ` alone, takes its head, empties it, or appends a completion that has room (R50). -/
theorem State.Write.cq {s₀ u v : State} (h : s₀.Write u v) :
    v.cq = u.cq ∨ v.cq = u.cq.tail ∨ v.cq = [] ∨
      ∃ e d, e < u.numEp ∧ u.cq.length < u.params.statFifoDepth ∧ v.cq = u.cq ++ [⟨e, d, u.engPp e d⟩] := by
  cases h with
  | complete e d f hep hroom => exact .inr (.inr (.inr ⟨e, d, hep, hroom, rfl⟩))
  | dequeue => exact .inr (.inl rfl)
  | reinitialise => exact .inr (.inr (.inl rfl))
  | _ => exact .inl rfl

theorem State.Write.queueBounded {s₀ u v : State} (h : s₀.Write u v) (hu : u.QueueBounded) : v.QueueBounded := by
  obtain ⟨hcap, hend⟩ := hu
  suffices hq : v.cq.length ≤ u.params.statFifoDepth ∧ ∀ r ∈ v.cq, r.ep < u.numEp by
    exact ⟨h.params ▸ hq.1, h.numEp ▸ hq.2⟩
  rcases h.cq with hq | hq | hq | ⟨e, d, he, hroom, hq⟩ <;> rw [hq]
  · exact ⟨hcap, hend⟩
  · exact ⟨(List.length_tail ▸ Nat.sub_le ..).trans hcap, fun r hr => hend r (List.mem_of_mem_tail hr)⟩
  · exact ⟨Nat.zero_le _, by simp⟩
  · refine ⟨by simpa using hroom, fun r hr => ?_⟩
    rcases List.mem_append.mp hr with hr | hr
    · exact hend r hr
    · obtain rfl := List.mem_singleton.mp hr
      exact he

/-- Settles O51: no write changes the parameters or the number of endpoints, and only a completion, which needs room, makes
`CQ` longer. -/
theorem stepKeepsQueueBounded : Obligations.StepKeepsQueueBounded := by
  intro s t h
  have hp := step_params h
  have hn := step_numEp h
  exact ⟨fun hq => step_keeps (fun _ _ hw => hw.queueBounded) hq h, hp, hn, fun hr => hr.of_eq hp hn⟩

/-! ### Consistent tables -/

/-- A pipe and its descriptors are consistent exactly when the state says so of each of them. -/
theorem State.tablesConsistent_iff (s : State) :
    s.TablesConsistent ↔
      s.params.wf = true ∧ s.arg0 < 2 ^ s.params.addrBits ∧ ∀ e d, (s.channel e d).Consistent s.params := by
  constructor
  · rintro ⟨hwf, harg, hpipes, hbds, hholds⟩
    exact ⟨hwf, harg, fun e d => ⟨hpipes e d, hbds e d, hholds e d⟩⟩
  · rintro ⟨hwf, harg, hch⟩
    exact ⟨hwf, harg, fun e d => (hch e d).pipe, fun e d => (hch e d).bds, fun e d => (hch e d).hold⟩

theorem State.Write.arg0_lt {s₀ u v : State} (h : s₀.Write u v) (hu : u.arg0 < 2 ^ u.params.addrBits) :
    v.arg0 < 2 ^ v.params.addrBits := by
  cases h with
  | arg0 w => exact arg0Written_lt w hu
  | _ => exact hu

/-- `SETUP_BUF_ADDR` is a buffer address (R8). -/
theorem Params.setupBufAddr_lt {p : Params} (h : p.wf = true) : p.setupBufAddr < 2 ^ p.addrBits := by
  unfold Params.wf at h
  rw [Bool.and_eq_true, decide_eq_true_eq] at h
  exact h.2

/-- Settles O48: every action on a pipe keeps it consistent, the operands of each START being in the width of an address. -/
theorem stepKeepsTablesConsistent : Obligations.StepKeepsTablesConsistent := by
  intro s t hs h
  obtain ⟨hwf, harg, hch⟩ := (State.tablesConsistent_iff s).mp hs
  have hp := step_params h
  refine (State.tablesConsistent_iff t).mpr ⟨hp ▸ hwf, step_keeps (fun _ _ hw => hw.arg0_lt) harg h, ?_⟩
  rw [hp]
  exact step_keeps_channels (Channel.consistent_kept s.params) (Params.setupBufAddr_lt hwf) (fun _ _ _ _ _ _ _ _ _ => harg)
    hch h

/-! ### Legal registers -/

/-- The registers of endpoint `e` are legal: R44 to R46. -/
structure Endpoint.Legal (e : Nat) (x : Endpoint) : Prop where
  reserved : x.epctl &&& 0xE1 = 0
  condis : x.epctl.getLsbD epctlCondis = !decide (e = 0)
  epfunc : fdLegal x.epfunc = true

theorem Endpoint.powerOn_legal (e : Nat) : (Endpoint.powerOn e).Legal e := by
  unfold Endpoint.powerOn
  by_cases he : e = 0
  · rw [if_pos he]
    exact ⟨rfl, by simp [he], rfl⟩
  · rw [if_neg he]
    exact ⟨rfl, by simp [he]; rfl, rfl⟩

theorem Endpoint.Legal.configured {x : Endpoint} {e : Nat} (h : x.Legal e) (max : Count) (cfTx cfRx cfHshk : Bool) :
    (x.configured e max cfTx cfRx cfHshk).Legal e where
  reserved := (configuredEpctl_reserved ..).trans h.reserved
  condis := by
    unfold Endpoint.configured
    rw [configuredEpctl_getLsbD]
    rfl
  epfunc := h.epfunc

/-- A pipe is no endpoint register. -/
theorem State.setChannel_legal {s : State} (hs : ∀ k, (s.endpoint k).Legal k) (e : Nat) (d : Dir) (c : Channel) (k : Nat) :
    ((s.setChannel e d c).endpoint k).Legal k := by
  obtain ⟨hreserved, hcondis, hepfunc⟩ := hs k
  have hctl : ((s.setChannel e d c).endpoint k).epctl = (s.endpoint k).epctl := State.setChannel_epctl s e k d c
  have hfun : ((s.setChannel e d c).endpoint k).epfunc = (s.endpoint k).epfunc := State.setChannel_epfunc s e k d c
  exact ⟨hctl ▸ hreserved, hctl ▸ hcondis, hfun ▸ hepfunc⟩

/-- Every write keeps the endpoint registers legal. -/
theorem State.Write.endpointsLegal {s₀ u v : State} (h : s₀.Write u v) (hu : ∀ e, (u.endpoint e).Legal e) (e : Nat) :
    (v.endpoint e).Legal e := by
  cases h with
  | configure ep max cfTx cfRx cfHshk =>
    exact State.setEndpoint_all (P := fun k x => x.Legal k) hu ((hu ep).configured max cfTx cfRx cfHshk) e
  | assign ep fd hfd =>
    exact State.setEndpoint_all (P := fun k x => x.Legal k) (x := { u.endpoint ep with epfunc := fd }) hu
      ⟨(hu ep).reserved, (hu ep).condis, hfd⟩ e
  | pipe k d c => exact State.setChannel_legal hu k d c e
  | complete k d f => exact State.setChannel_legal hu k d _ e
  | reinitialise =>
    rw [State.reinitialised_endpoint]
    exact Endpoint.powerOn_legal e
  | _ => exact hu e

/-- Every write keeps the reserved bits of `ERRSTAT` at 0: `ERRPEND` has only the bits below them (R47, R49). -/
theorem State.Write.errstatReserved {s₀ u v : State} (h : s₀.Write u v) (hu : u.errstat &&& 0x60 = 0) :
    v.errstat &&& 0x60 = 0 := by
  cases h with
  | violation => exact (putBit_and_of_bit_clear u.errstat 0x60 errOwnBit true (by decide) (by decide)).trans hu
  | collectErrors =>
    have hpend : ∀ m : BitVec 5, m.setWidth 8 &&& 0x60#8 = 0#8 := by decide
    show (u.errstat ||| u.errpend.setWidth 8) &&& 0x60#8 = 0#8
    rw [BitVec.and_or_distrib_right, hpend, BitVec.or_zero]
    exact hu
  | clearErrors => exact BitVec.zero_and
  | _ => exact hu

/-- No class has a reserved bit of `STATUS` (R48). -/
theorem putBit_status_reserved (v : BitVec 16) (c : StatusClass) (b : Bool) :
    putBit v c.bit b &&& 0xFE08 = v &&& 0xFE08 :=
  putBit_and_of_bit_clear v 0xFE08 c.bit b (by cases c <;> decide) (by cases c <;> decide)

theorem State.Write.statusReserved {s₀ u v : State} (h : s₀.Write u v) (hu : u.status &&& 0xFE08 = 0) :
    v.status &&& 0xFE08 = 0 := by
  cases h with
  | raise c | clear c => exact (putBit_status_reserved u.status c _).trans hu
  | violation => exact (putBit_status_reserved u.status .error true).trans hu
  | _ => exact hu

theorem FailCode.toByte_le (c : FailCode) : c.toByte.toNat ≤ 6 := by cases c <;> decide

/-- Every write keeps `RESULT` a code, with `RDATA` 0 on a failure (R90). -/
theorem State.Write.result {s₀ u v : State} (h : s₀.Write u v)
    (hu : u.result.toNat ≤ 6 ∧ (u.result ≠ 0 → u.rdata = 0)) : v.result.toNat ≤ 6 ∧ (v.result ≠ 0 → v.rdata = 0) := by
  cases h with
  | ok => exact ⟨Nat.zero_le _, fun hne => absurd rfl hne⟩
  | fail c => exact ⟨c.toByte_le, fun _ => rfl⟩
  | _ => exact hu

theorem State.Write.registersLegal {s₀ u v : State} (h : s₀.Write u v) (hu : u.RegistersLegal) : v.RegistersLegal := by
  have hends := h.endpointsLegal fun e => ⟨hu.epctlReserved e, hu.condis e, hu.epfunc e⟩
  obtain ⟨hcode, hrdata⟩ := h.result ⟨hu.resultCode, hu.rdataOnFailure⟩
  exact ⟨fun e => (hends e).reserved, fun e => (hends e).condis, fun e => (hends e).epfunc,
    h.errstatReserved hu.errstatReserved, h.statusReserved hu.statusReserved, hcode, hrdata⟩

/-- Settles O49, register by register over the writes of a step. -/
theorem stepKeepsRegistersLegal : Obligations.StepKeepsRegistersLegal :=
  fun _ _ hs h => step_keeps (fun _ _ hw => hw.registersLegal) hs h

/-! ### The engine's pointer -/

/-- A pipe write moves no engine's pointer, if it does not move its own. -/
theorem State.setChannel_engPp_of_eq {s : State} {e : Nat} {d : Dir} {c : Channel} (h : c.engPp = s.engPp e d) (k : Nat)
    (d' : Dir) : (s.setChannel e d c).engPp k d' = s.engPp k d' :=
  State.setChannel_all (P := fun k d' c' => c'.engPp = s.engPp k d') (fun _ _ => rfl) h k d'

theorem State.setEndpoint_engPp_of_eq {s : State} {e : Nat} {x : Endpoint} (h : ∀ d, (x.channel d).engPp = s.engPp e d)
    (k : Nat) (d : Dir) : (s.setEndpoint e x).engPp k d = s.engPp k d :=
  State.setEndpoint_all (P := fun k x' => ∀ d, (x'.channel d).engPp = s.engPp k d) (fun _ _ => rfl) h k d

/-- CONFIGURE moves no engine's pointer (R110). -/
theorem Endpoint.configured_engPp (x : Endpoint) (ep : Nat) (max : Count) (cfTx cfRx cfHshk : Bool) (d : Dir) :
    ((x.configured ep max cfTx cfRx cfHshk).channel d).engPp = (x.channel d).engPp := by
  rcases Endpoint.configured_channel x ep max cfTx cfRx cfHshk d with h | h <;> rw [h]
  rfl

theorem State.reinitialised_engPp (s : State) (e : Nat) (d : Dir) : s.reinitialised.engPp e d = false := by
  unfold State.engPp State.channel
  rw [State.reinitialised_endpoint]
  cases d <;> rfl

/-- A write leaves an engine's pointer alone, or it belongs to an engine's step, or it is the bus-reset service's. -/
theorem State.Write.engPp {s₀ u v : State} (h : s₀.Write u v) (e : Nat) (d : Dir) :
    v.engPp e d = u.engPp e d ∨ s₀.EngineActs ∨
      (v.engPp e d = false ∧ s₀.pending .reset = true ∧ s₀.Issues .dispatch) := by
  cases h with
  | complete _ _ _ _ _ hengine => exact .inr (.inl hengine)
  | reinitialise hcmd hreset => exact .inr (.inr ⟨State.reinitialised_engPp u e d, hreset, hcmd⟩)
  | pipe k d' c hpp => exact .inl (State.setChannel_engPp_of_eq hpp e d)
  | configure k => exact .inl (State.setEndpoint_engPp_of_eq (fun d' => Endpoint.configured_engPp _ _ _ _ _ _ d') e d)
  | assign k => exact .inl (State.setEndpoint_engPp_of_eq (fun d' => by cases d' <;> rfl) e d)
  | _ => exact .inl rfl

/-- Returning a descriptor inverts the engine's pointer of its pipe, with the record that names the descriptor. -/
theorem State.engineReturn_engPp (s : State) (e : Nat) (d : Dir) (f : Descriptor → Descriptor) (k : Nat) (d' : Dir) :
    (s.engineReturn e d f).engPp k d' = s.engPp k d' ∨
      ((s.engineReturn e d f).engPp k d' = (!s.engPp k d') ∧ (s.engineReturn e d f).cq = s.cq ++ [⟨k, d', s.engPp k d'⟩]) := by
  rcases State.setChannel_channel_cases s e k d d' ((s.channel e d).returned f) with h | ⟨rfl, rfl, -, h⟩
  · exact .inl (congrArg Channel.engPp h)
  · exact .inr ⟨congrArg Channel.engPp h, rfl⟩

theorem engineStep_engPp {x : Input} {s t : State} (hx : x.isEngine = true) (h : runInput x s = .next t) (e : Nat) (d : Dir) :
    t.engPp e d = s.engPp e d ∨ (t.engPp e d = (!s.engPp e d) ∧ t.cq = s.cq ++ [⟨e, d, s.engPp e d⟩]) := by
  rcases engineStep_cases hx h with rfl | rfl | ⟨k, -, -, -, -, rfl⟩ | ⟨k, data, -, -, -, -, -, -, rfl⟩ |
    ⟨q, -, -, -, -, -, rfl⟩ | ⟨k, i, l, n, rfl⟩
  · exact .inl rfl
  · exact .inl rfl
  · exact State.engineReturn_engPp s k .tx (fun b => { b with pid := .inn }) e d
  · exact State.engineReturn_engPp s k .rx (fun b => { b with bc := BitVec.ofNat 10 data.length, pid := .out }) e d
  · exact State.engineReturn_engPp s 0 .rx
      (fun b => { b with bc := BitVec.ofNat 10 Config.setupLen, pid := .setup, stall := false }) e d
  · exact .inl (State.setChannel_engPp_of_eq (Channel.setFetched_engPp ..) e d)

/-- A step that is not the engine's leaves an engine's pointer alone, or is a DISPATCH that runs the bus-reset service. -/
theorem step_engPp_of_not_engine {s t : State} (h : step s = .next t) (hengine : ¬ s.EngineActs) (e : Nat) (d : Dir) :
    t.engPp e d = s.engPp e d ∨ (t.engPp e d = false ∧ s.pending .reset = true ∧ s.Issues .dispatch) := by
  refine step_keeps (P := fun u => u.engPp e d = s.engPp e d ∨
    (u.engPp e d = false ∧ s.pending .reset = true ∧ s.Issues .dispatch)) ?_ (.inl rfl) h
  intro u v hw hu
  rcases hw.engPp e d with hpp | hacts | hreset
  · rwa [hpp]
  · exact absurd hacts hengine
  · exact .inr hreset

/-- Settles O57: an engine's step by its cases, any other by the writes it is made of. -/
theorem enginePointerMovesOnCompletionOnly : Obligations.EnginePointerMovesOnCompletionOnly := by
  intro s t e d h
  by_cases hengine : s.EngineActs
  · obtain ⟨x, rest, hinput, hx⟩ := hengine
    rcases engineStep_engPp hx ((step_of_input hinput).symm.trans h) e d with hpp | ⟨hpp, hcq⟩
    · exact .inl hpp
    · exact .inr (.inl ⟨hpp, hcq, x, rest, hinput, hx⟩)
  · exact (step_engPp_of_not_engine h hengine e d).imp_right .inr

/-! ### `EVOUT` -/

/-- A write leaves `EVOUT` alone, or DISPATCH appends to it, or the upper layer takes its head. -/
theorem State.Write.evout {s₀ u v : State} (h : s₀.Write u v) :
    v.evout = u.evout ∨ (s₀.Issues .dispatch ∧ ∃ evs, v.evout = u.evout ++ evs) ∨ ∃ rest, s₀.inputs = .takeEvent :: rest := by
  cases h with
  | emit evs hcmd => exact .inr (.inl ⟨hcmd, evs, rfl⟩)
  | take _ hinput => exact .inr (.inr hinput)
  | _ => exact .inl rfl

/-- Taking an event always succeeds. -/
theorem step_takeEvent {s : State} {rest : List Input} (h : s.inputs = .takeEvent :: rest) :
    step s = .next { s with inputs := rest, taken := s.evout.head?, evout := s.evout.tail } :=
  step_of_input h

/-- A step that takes no event leaves `EVOUT` alone, or is a DISPATCH and appends to it. -/
theorem step_evout {s t : State} (h : step s = .next t) (htake : ¬ ∃ rest, s.inputs = .takeEvent :: rest) :
    t.evout = s.evout ∨ (s.Issues .dispatch ∧ ∃ evs, t.evout = s.evout ++ evs) := by
  refine step_keeps (P := fun u => u.evout = s.evout ∨ (s.Issues .dispatch ∧ ∃ evs, u.evout = s.evout ++ evs)) ?_ (.inl rfl) h
  intro u v hw hu
  rcases hw.evout with hv | ⟨hcmd, evs, hv⟩ | hinput
  · rwa [hv]
  · refine .inr ⟨hcmd, ?_⟩
    rcases hu with hu | ⟨-, evs', hu⟩
    · exact ⟨evs, by rw [hv, hu]⟩
    · exact ⟨evs' ++ evs, by rw [hv, hu, List.append_assoc]⟩
  · exact absurd hinput htake

/-- Settles O58, by whether the step takes an event. -/
theorem eventOutputIsAppendedAndConsumed : Obligations.EventOutputIsAppendedAndConsumed := by
  refine ⟨fun s rest h => step_takeEvent h, fun s t h => ?_⟩
  by_cases htake : ∃ rest, s.inputs = .takeEvent :: rest
  · obtain ⟨rest, hinput⟩ := htake
    obtain rfl := Host.Outcome.next.inj ((step_takeEvent hinput).symm.trans h)
    exact .inr (.inl ⟨rest, hinput, rfl, rfl⟩)
  · rcases step_evout h htake with hev | ⟨⟨v, rest, hinput, hd⟩, evs, hev⟩
    · exact .inl ⟨fun rest hinput => htake ⟨rest, hinput⟩, hev⟩
    · exact .inr (.inr ⟨v, rest, evs, hinput, hd, hev⟩)

/-! ### Error bits -/

/-- Only READ_ERR clears an error bit. -/
theorem State.Write.errstat_bit {s₀ u v : State} (h : s₀.Write u v) (hcmd : ¬ s₀.Issues .readErr) {n : Nat}
    (hu : u.errstat.getLsbD n = true) : v.errstat.getLsbD n = true := by
  cases h with
  | violation =>
    show (putBit u.errstat errOwnBit true).getLsbD n = true
    rw [putBit_getLsbD u.errstat errOwnBit n true (by decide), hu, ite_self]
  | collectErrors =>
    show (u.errstat ||| u.errpend.setWidth 8).getLsbD n = true
    rw [BitVec.getLsbD_or, hu, Bool.true_or]
  | clearErrors hread => exact absurd hread hcmd
  | _ => exact hu

/-- Settles O60, by the writes a step that is no READ_ERR is made of. -/
theorem errorBitsStayUntilReadErr : Obligations.ErrorBitsStayUntilReadErr := by
  intro s t h hcmd n hn
  have hnot : ¬ s.Issues .readErr := fun ⟨v, rest, hinput, hd⟩ => hcmd v rest hinput hd
  exact step_keeps (fun _ _ hw hu => hw.errstat_bit hnot hu) hn h

end Sys2Proof.Machine
end

section
/-! PROOFS. Buffer memory (20_memory.md R60 to R63): no command touches it (O55), every step writes it within the address space
(O50), and the upper layer's accesses to it (O46). -/

namespace Sys2Proof.Machine

/-! ### Commands and buffer memory -/

/-- The state with other contents of buffer memory. -/
def State.withMem (s : State) (m : List Host.Cell) : State := { s with mem := m }

theorem State.withMem_ite (c : Prop) [Decidable c] (s t : State) (m : List Host.Cell) :
    (if c then s else t).withMem m = if c then s.withMem m else t.withMem m :=
  apply_ite (fun u => u.withMem m) c s t

theorem State.inRange_withMem {s body body' : State} {m : List Host.Cell} (ep : Nat) (h : body' = body.withMem m) :
    (s.withMem m).inRange ep body' = (s.inRange ep body).withMem m := by
  rw [h, State.inRange, State.inRange, State.withMem_ite]
  rfl

/-- A START reads and writes the tables and the registers only. -/
theorem State.startOn_withMem (s : State) (ep : Nat) (dir : Dir) (force dts zlp : Bool) (m : List Host.Cell) :
    (s.withMem m).startOn ep dir force dts zlp = (s.startOn ep dir force dts zlp).withMem m := by
  have hstart : ((s.withMem m).channel ep dir).start (s.withMem m).params (s.withMem m).bufOperand (s.withMem m).sizeOperand
      force dts zlp = (s.channel ep dir).start s.params s.bufOperand s.sizeOperand force dts zlp := rfl
  unfold State.startOn
  rw [hstart]
  cases (s.channel ep dir).start s.params s.bufOperand s.sizeOperand force dts zlp with
  | ok c => rfl
  | error code => cases code <;> rfl

/-- A service neither writes buffer memory nor depends on it. -/
def MemoryBlind (f : State → State × List Event) : Prop := ∀ s m, f (s.withMem m) = ((f s).1.withMem m, (f s).2)

theorem forward_memoryBlind (c : StatusClass) (k : EventKind) : MemoryBlind (forward c k) := by
  intro s m
  cases h : s.pending c with
  | true =>
    rw [forward_of_pending k h, forward_of_pending k (s := s.withMem m) h]
    rfl
  | false => rw [forward_of_quiet k h, forward_of_quiet k (s := s.withMem m) h]

theorem State.completionPath_withMem (s : State) (r : Completion) (m : List Host.Cell) :
    (s.withMem m).completionPath r = ((s.completionPath r).1.withMem m, (s.completionPath r).2) := by
  have hcomplete : ((s.withMem m).channel r.ep r.dir).completePacket (s.withMem m).params r.pp =
      (s.channel r.ep r.dir).completePacket s.params r.pp := rfl
  unfold State.completionPath
  rw [hcomplete]
  obtain ⟨c, o⟩ := (s.channel r.ep r.dir).completePacket s.params r.pp
  cases o <;> rfl

/-- A record of a returned descriptor that holds no setup packet takes the completion path (R174). -/
theorem tokenService_of_completion {s : State} {r : Completion} {rest : List Completion} (h : s.cq = r :: rest)
    (ho : (s.bd r.ep r.dir r.pp).uown = .sw) (hs : ¬ (r.ep = 0 ∧ (s.bd r.ep r.dir r.pp).pid = .setup)) :
    tokenService s = State.completionPath { s with cq := rest } r := by
  rcases tokenService_cases s with ⟨hnil, -⟩ | ⟨r', rest', hq, hcase⟩
  · cases h.symm.trans hnil
  obtain ⟨rfl, rfl⟩ := List.cons.inj (hq.symm.trans h)
  rcases hcase with ⟨hw, -⟩ | ⟨-, h0, hp, -⟩ | ⟨-, -, heq⟩
  · cases ho.symm.trans hw
  · exact absurd ⟨h0, hp⟩ hs
  · exact heq

theorem tokenService_memoryBlind : MemoryBlind tokenService := by
  intro s m
  cases hq : s.cq with
  | nil => rw [tokenService_of_empty hq, tokenService_of_empty (s := s.withMem m) hq]
  | cons r rest =>
    cases ho : (s.bd r.ep r.dir r.pp).uown with
    | hw =>
      rw [tokenService_of_hw hq ho, tokenService_of_hw (s := s.withMem m) hq ho]
      rfl
    | sw =>
      by_cases hs : r.ep = 0 ∧ (s.bd r.ep r.dir r.pp).pid = .setup
      · rw [tokenService_of_setup hq ho hs, tokenService_of_setup (s := s.withMem m) hq ho hs]
        rfl
      · rw [tokenService_of_completion hq ho hs, tokenService_of_completion (s := s.withMem m) hq ho hs]
        exact State.completionPath_withMem { s with cq := rest } r m

theorem State.armSetup_withMem (s : State) (m : List Host.Cell) : (s.withMem m).armSetup = s.armSetup.withMem m := by
  have heps : (s.withMem m).armSetup.eps = s.armSetup.eps := State.armSetup_eps_of rfl rfl
  rw [State.armSetup_frame (s.withMem m), heps, State.armSetup_frame s]
  rfl

theorem busResetService_memoryBlind : MemoryBlind busResetService := by
  intro s m
  have hp : (s.withMem m).pending .reset = s.pending .reset := rfl
  have htables : ((s.withMem m).clear .reset).reinitialised.configureEp0 =
      (s.clear .reset).reinitialised.configureEp0.withMem m := rfl
  unfold busResetService
  rw [hp, htables, State.armSetup_withMem]
  split <;> rfl

theorem errorService_memoryBlind : MemoryBlind errorService := by
  intro s m
  cases h : s.pending .error with
  | true =>
    rw [errorService_of_pending h, errorService_of_pending (s := s.withMem m) h]
    rfl
  | false => rw [errorService_of_quiet h, errorService_of_quiet (s := s.withMem m) h]

theorem service_memoryBlind {f : State → State × List Event} (hf : f ∈ services) : MemoryBlind f := by
  rcases mem_services hf with ⟨c, k, rfl, -, -⟩ | rfl | rfl | rfl
  · exact forward_memoryBlind c k
  · exact tokenService_memoryBlind
  · exact busResetService_memoryBlind
  · exact errorService_memoryBlind

/-- A chain of services blind to buffer memory is blind to it. -/
theorem runServices_memoryBlind {fs : List (State → State × List Event)} (h : ∀ f ∈ fs, MemoryBlind f) :
    MemoryBlind (runServices fs) := by
  induction fs with
  | nil => exact fun _ _ => rfl
  | cons f fs ih =>
    intro s m
    have hrest := ih fun g hg => h g (List.mem_cons_of_mem _ hg)
    simp only [runServices, h f List.mem_cons_self s m, hrest (f s).1 m]

/-- With any other memory a command answers the same state but for that memory (R61). -/
theorem exec_withMem {i : Instr} {s t : State} (m : List Host.Cell) (h : exec i s = .next t) :
    exec i (s.withMem m) = .next (t.withMem m) := by
  cases i with
  | configure ep cfTx cfRx cfHshk =>
    cases h
    exact congrArg Host.Outcome.next (State.inRange_withMem ep rfl)
  | start ep dir force dts zlp =>
    cases h
    exact congrArg Host.Outcome.next (State.inRange_withMem ep (State.startOn_withMem s ep dir force dts zlp m))
  | stall ep dir =>
    cases h
    exact congrArg Host.Outcome.next (State.inRange_withMem ep rfl)
  | unstall ep dir =>
    cases h
    exact congrArg Host.Outcome.next (State.inRange_withMem ep rfl)
  | flush ep dir =>
    cases h
    exact congrArg Host.Outcome.next (State.inRange_withMem ep rfl)
  | queryStall ep dir =>
    cases h
    exact congrArg Host.Outcome.next (State.inRange_withMem ep rfl)
  | setEpfunc ep =>
    cases h
    refine congrArg Host.Outcome.next (State.inRange_withMem ep ?_)
    rw [State.withMem_ite]
    rfl
  | readErr =>
    cases h
    rfl
  | dispatch =>
    rw [exec_dispatch] at h
    rw [exec_dispatch, runServices_memoryBlind (fun _ => service_memoryBlind) s m, ← Host.Outcome.next.inj h]
    rfl

@[simp] theorem State.withMem_mem_self (s : State) : s.withMem s.mem = s := rfl

/-- No command writes buffer memory (R61): it answers the same with the memory it finds. -/
theorem exec_mem {i : Instr} {s t : State} (h : exec i s = .next t) : t.mem = s.mem := by
  have hself := exec_withMem s.mem h
  rw [State.withMem_mem_self] at hself
  have heq : t = t.withMem s.mem := Host.Outcome.next.inj (h.symm.trans hself)
  rw [heq]
  rfl

/-- Settles O55, by the cases of a command; DISPATCH by the services, each of which is blind to buffer memory. -/
theorem commandsNeverTouchBufferMemory : Obligations.CommandsNeverTouchBufferMemory :=
  fun _ _ _ m h => ⟨exec_mem h, exec_withMem m h⟩

/-! ### What a step writes -/

/-- A step writes one run of bytes of buffer memory, perhaps an empty one, within the address space (R61, R62, R68). -/
theorem step_mem {s t : State} (h : step s = .next t) :
    ∃ a bytes, a + bytes.length ≤ 2 ^ s.params.addrBits ∧ t.mem = Memory.writeBytes s.mem a bytes := by
  have unwritten : t.mem = s.mem →
      ∃ a bytes, a + bytes.length ≤ 2 ^ s.params.addrBits ∧ t.mem = Memory.writeBytes s.mem a bytes :=
    fun hm => ⟨0, [], Nat.zero_le _, hm⟩
  rcases step_cases h with ⟨-, rfl⟩ | ⟨x, rest, -, hx⟩
  · exact unwritten rfl
  rcases runInput_cases hx with he | ⟨v, i, -, -, hexec⟩ | rfl | ⟨v, rfl⟩ | ⟨v, rfl⟩ | ⟨_, _, _, rfl⟩ | ⟨-, rfl⟩ |
    ⟨a, v, ha, rfl⟩ | ⟨_, _, rfl⟩
  · rcases engineStep_cases he hx with rfl | rfl | ⟨_, -, -, -, -, rfl⟩ | ⟨e, data, -, -, -, -, hlen, hfit, rfl⟩ |
      ⟨q, -, -, -, hlen, hfit, rfl⟩ | ⟨_, _, _, _, rfl⟩
    · exact unwritten rfl
    · exact unwritten rfl
    · exact unwritten rfl
    · exact ⟨_, data, (Nat.add_le_add_left hlen _).trans hfit, rfl⟩
    · exact ⟨_, q.bytes, (Nat.add_le_add_left hlen _).trans hfit, rfl⟩
    · exact unwritten rfl
  · exact unwritten (exec_mem (s := { s with inputs := rest }) hexec)
  · exact unwritten rfl
  · exact unwritten rfl
  · exact unwritten rfl
  · exact unwritten rfl
  · exact unwritten rfl
  · exact ⟨a, [v], ha, rfl⟩
  · exact unwritten rfl

/-- Settles O50: a run of writes keeps the canonical form, and this one lies within the address space. -/
theorem stepKeepsMemoryCanonical : Obligations.StepKeepsMemoryCanonical := by
  intro s t ⟨hsorted, hexist⟩ h
  obtain ⟨a, bytes, hfit, hmem⟩ := step_mem h
  refine ⟨hmem ▸ Memory.writeBytes_wf bytes s.mem a hsorted, fun c hc => ?_⟩
  rw [step_params h]
  rcases Memory.mem_writeBytes (hmem ▸ hc) with hold | ⟨-, hlt⟩
  · exact hexist c hold
  · exact hlt.trans_le hfit

/-! ### The upper layer's accesses -/

/-- A byte of buffer memory after a write of one: the byte written, or as before. -/
theorem Memory.byteAt_write (m : List Host.Cell) (a k : Nat) (v : Byte) (hm : Memory.wf m) :
    Memory.byteAt (Memory.write m a v) k = if k = a then v else Memory.byteAt m k := by
  unfold Memory.byteAt
  rw [Memory.lookup_write m a k v hm]
  split <;> rfl

theorem runInput_bufWrite {s : State} {a : Nat} (v : Byte) (ha : a < 2 ^ s.params.addrBits) :
    runInput (.bufWrite a v) s = .next { s with mem := Memory.write s.mem a v } :=
  if_neg (Nat.not_le.mpr ha)

theorem runInput_bufRead {s : State} {a : Nat} (ha : a < 2 ^ s.params.addrBits) :
    runInput (.bufRead a) s = .next { s with bufData := s.readByte a s.freeCtr, freeCtr := s.freeCtr + 1 } :=
  if_neg (Nat.not_le.mpr ha)

/-- A byte under no receive buffer the engine owns reads as buffer memory holds it (R252). -/
theorem State.readByte_of_not_underRx {s : State} {a : Nat} (k : Nat) (h : s.underRx a = false) :
    s.readByte a k = Memory.byteAt s.mem a := by
  unfold State.readByte
  rw [h]
  exact if_neg Bool.false_ne_true

/-- Settles O46: the accesses to an address that exists, and their fault at one that does not. -/
theorem upperLayerAccessesBufferMemory : Obligations.UpperLayerAccessesBufferMemory := by
  intro s x rest a hinput hm
  refine ⟨?_, ?_⟩
  · rintro v rfl
    refine ⟨fun ha => ?_, fun ha => (step_of_input hinput).trans (if_pos ha)⟩
    refine ⟨_, (step_of_input hinput).trans (runInput_bufWrite v ha), rfl, ?_, fun k hk => ?_⟩
    · exact (Memory.byteAt_write s.mem a a v hm).trans (if_pos rfl)
    · exact (Memory.byteAt_write s.mem a k v hm).trans (if_neg hk)
  · rintro rfl
    refine ⟨fun ha => ?_, fun ha => (step_of_input hinput).trans (if_pos ha)⟩
    exact ⟨_, (step_of_input hinput).trans (runInput_bufRead ha), rfl, fun hrx => State.readByte_of_not_underRx _ hrx⟩

end Sys2Proof.Machine
end

section
/-! PROOFS. The register interface (20_memory.md R64 to R67): what reads return (O42), what writes other than to `CMD` store
(O43), and the accesses that are refused (O44). -/

namespace Sys2Proof.Machine

/-! ### Refused accesses -/

theorem State.access_misshapen {s : State} {offset : Nat} {width : AccessWidth} (body : Host.Outcome State Fault Refusal)
    (h : width ≠ .word ∨ offset % 4 ≠ 0) : s.access offset width body = .refused .registerAccessShape :=
  if_pos h

theorem State.access_beyond {s : State} {offset : Nat} (body : Host.Outcome State Fault Refusal) (h4 : offset % 4 = 0)
    (hm : 0x40 + 4 * s.numEp ≤ offset) : s.access offset .word body = .refused .registerBeyondMap := by
  unfold State.access
  rw [if_neg (by simp [h4])]
  exact if_pos hm

/-- Settles O44: reads and writes go through the one check of an access. -/
theorem otherRegisterAccessesAreRefused : Obligations.OtherRegisterAccessesAreRefused := by
  intro s x rest offset width hinput hx
  have haccess : ∃ body, step s = State.access { s with inputs := rest } offset width body := by
    rcases hx with rfl | ⟨v, rfl⟩
    · exact ⟨_, step_of_input hinput⟩
    · exact ⟨_, step_of_input hinput⟩
  obtain ⟨body, hstep⟩ := haccess
  refine ⟨fun hshape => hstep.trans (State.access_misshapen body hshape), ?_⟩
  rintro rfl h4 hm
  exact hstep.trans (State.access_beyond body h4 hm)

/-! ### Reads -/

theorem step_regRead {s : State} {offset : Nat} {rest : List Input} (hinput : s.inputs = .regRead offset .word :: rest)
    (h4 : offset % 4 = 0) (hm : offset < 0x40 + 4 * s.numEp) :
    step s = .next { s with inputs := rest, busData := s.registerRead offset } :=
  (step_of_input hinput).trans (State.access_ok (s := { s with inputs := rest }) _ h4 hm)

/-- `CMD` and the reserved offsets read as 0 (R66). -/
theorem State.registerRead_reserved {s : State} {offset : Nat} (h : offset = 0 ∨ (0x18 ≤ offset ∧ offset ≤ 0x3C)) :
    s.registerRead offset = 0 := by
  unfold State.registerRead
  iterate 6 rw [if_neg (by omega)]

/-- The registers from `0x40` on are the endpoints' `EPCTL` (R66). -/
theorem State.registerRead_epctl (s : State) (e : Nat) : s.registerRead (0x40 + 4 * e) = (s.epctl e).setWidth 32 := by
  unfold State.registerRead
  iterate 5 rw [if_neg (by omega)]
  rw [if_pos (by omega), show (0x40 + 4 * e - 0x40) / 4 = e by omega]

/-- Bit 3 of `STATUS` reads as TOKEN, every other as it is stored (R48). -/
theorem State.statusRead_getLsbD (s : State) (n : Nat) :
    s.statusRead.getLsbD n = if n = 3 then !s.cq.isEmpty else s.status.getLsbD n :=
  putBit_getLsbD _ _ _ _ (by decide)

/-- A narrower register's bits on the port, zero-extended (R64). -/
theorem getLsbD_setWidth_word {w : Nat} (hw : w ≤ 32) (v : BitVec w) (n : Nat) : (v.setWidth 32).getLsbD n = v.getLsbD n := by
  rw [BitVec.getLsbD_setWidth, Bool.and_eq_right_iff_imp, decide_eq_true_eq]
  exact fun h => (BitVec.lt_of_getLsbD h).trans_le hw

/-- Settles O42, by what each register of the map reads as. -/
theorem registerReadsFollowMap : Obligations.RegisterReadsFollowMap := by
  intro s offset rest hinput h4 hm
  refine ⟨_, step_regRead hinput h4 hm, rfl, fun rest' hrest => step_regRead hrest h4 hm, ?_, ?_, ?_, ?_, ?_, ?_, ?_⟩
  · rintro rfl hbits
    exact if_pos hbits
  · rintro rfl
    exact BitVec.toNat_setWidth_of_le (show 16 ≤ 32 by decide)
  · rintro rfl
    exact BitVec.toNat_setWidth_of_le (show 8 ≤ 32 by decide)
  · rintro rfl
    rfl
  · rintro rfl n
    rw [← State.statusRead_getLsbD]
    exact getLsbD_setWidth_word (by decide) s.statusRead n
  · exact State.registerRead_reserved
  · rintro e rfl
    show (s.registerRead _).toNat = _
    rw [State.registerRead_epctl]
    exact BitVec.toNat_setWidth_of_le (by decide)

/-! ### Writes -/

/-- What a write of `v` to an offset other than `CMD` leaves: `ARG0` and `ARG1` store, every other offset ignores it (R66). -/
def State.regWritten (s : State) (offset : Nat) (v : Word) : State :=
  { s with
    arg0 := if offset = 0x04 then arg0Written s.params s.arg0 v else s.arg0
    arg1 := if offset = 0x08 then BitVec.ofNat 16 v.toNat else s.arg1 }

theorem step_regWrite {s : State} {offset : Nat} {v : Word} {rest : List Input}
    (hinput : s.inputs = .regWrite offset .word v :: rest) (h4 : offset % 4 = 0) (hm : offset < 0x40 + 4 * s.numEp)
    (hcmd : offset ≠ 0) : step s = .next (State.regWritten { s with inputs := rest } offset v) := by
  refine (step_of_input hinput).trans ((State.access_ok (s := { s with inputs := rest }) _ h4 hm).trans ?_)
  rw [if_neg hcmd]
  unfold State.regWritten
  by_cases h0 : offset = 0x04
  · subst h0
    rfl
  by_cases h1 : offset = 0x08
  · subst h1
    rw [BitVec.ofNat_toNat]
    rfl
  rw [if_neg h0, if_neg h1, if_neg h0, if_neg h1]

/-- The same write again changes nothing (R67). -/
theorem State.regWritten_regWritten (s : State) (offset : Nat) (v : Word) :
    (s.regWritten offset v).regWritten offset v = s.regWritten offset v := by
  unfold State.regWritten
  by_cases h0 : offset = 0x04
  · subst h0
    simp only [if_true, arg0Written_idem]
    rfl
  · simp only [h0, if_false]
    split <;> rfl

/-- Settles O43, by what each offset stores; `ARG0` by the laws of its width. -/
theorem registerWritesFollowMap : Obligations.RegisterWritesFollowMap := by
  intro s offset v rest hinput h4 hm hcmd
  refine ⟨_, step_regWrite hinput h4 hm hcmd, rfl, fun rest' hrest => ?_, fun h => if_neg h, ?_, ?_, fun ha => ?_⟩
  · refine (step_regWrite (s := State.regWritten { s with inputs := rest } offset v) hrest h4 hm hcmd).trans ?_
    exact congrArg Host.Outcome.next (State.regWritten_regWritten { s with inputs := rest' } offset v)
  · rintro rfl hbits
    exact if_pos hbits
  · rintro rfl hbits
    exact arg0Written_low s.arg0 v hbits
  · show (if _ then _ else _) < _
    split
    · exact arg0Written_lt v ha
    · exact ha

end Sys2Proof.Machine
end

section
/-! PROOFS. The engine's buffers (20_memory.md R68, R75, R76): a step on one that reaches past the address space is stuck (O39),
no step is while every transfer fits (O52), and a byte of a transmit buffer written late is sent old or new (O40). -/

namespace Sys2Proof.Machine

/-! ### The engine steps that use a buffer -/

theorem onBuffer_of_wraps {p : Params} {b : Descriptor} (s : State) (h : 2 ^ p.addrBits < b.addr + b.bc.toNat) :
    onBuffer p b s = .fault .engineBufferWraps :=
  if_pos (decide_eq_true h)

theorem wraps_of_onBuffer_fault {p : Params} {b : Descriptor} {s : State} {r : Fault} (h : onBuffer p b s = .fault r) :
    2 ^ p.addrBits < b.addr + b.bc.toNat := by
  by_contra hfit
  rw [onBuffer_of_fits (Nat.not_lt.mp hfit)] at h
  cases h

theorem State.cqFull_of_room {s : State} (h : s.cq.length < s.params.statFifoDepth) : s.cqFull = false :=
  decide_eq_false (Nat.not_le.mpr h)

/-- An acknowledged IN is served from the descriptor the engine's pointer names (R220). -/
theorem runInput_inToken {s : State} {e : Nat} (he : e < s.numEp) (hen : (s.epctl e).getLsbD 1 = true)
    (hhshk : (s.epctl e).getLsbD 4 = true) (hhw : (s.engineBd e .tx).uown = .hw) (hstall : (s.engineBd e .tx).stall = false)
    (hroom : s.cq.length < s.params.statFifoDepth) :
    runInput (.inToken e true) s = onBuffer s.params (s.engineBd e .tx) (s.completeIn e) :=
  if_pos ((State.answerIn_complete_iff s e true).mpr
    ⟨(State.dirEnabled_iff s e .tx).mpr ⟨he, hen, hhshk⟩, hhw, hstall, State.cqFull_of_room hroom, rfl⟩)

/-- An OUT packet of the expected toggle that fits is stored (R220). -/
theorem runInput_outPacket {s : State} {e : Nat} {data : List Byte} (he : e < s.numEp) (hen : (s.epctl e).getLsbD 2 = true)
    (hhshk : (s.epctl e).getLsbD 4 = true) (hhw : (s.engineBd e .rx).uown = .hw) (hstall : (s.engineBd e .rx).stall = false)
    (hroom : s.cq.length < s.params.statFifoDepth) (hlen : data.length ≤ (s.engineBd e .rx).bc.toNat) :
    runInput (.outPacket e (s.engineBd e .rx).tog data) s = onBuffer s.params (s.engineBd e .rx) (s.completeOut e data) :=
  if_pos ((State.answerOut_complete_iff s e _ data.length).mpr
    ⟨(State.dirEnabled_iff s e .rx).mpr ⟨he, hen, hhshk⟩, hhw, hstall, State.cqFull_of_room hroom, rfl, hlen⟩)

/-- A SETUP is stored where endpoint 0 has room for its 8 bytes (R221). -/
theorem runInput_setup {s : State} {q : SetupPacket} (he : 0 < s.numEp) (hen : (s.epctl 0).getLsbD 2 = true)
    (hhshk : (s.epctl 0).getLsbD 4 = true) (hcondis : (s.epctl 0).getLsbD 3 = false) (hhw : (s.engineBd 0 .rx).uown = .hw)
    (hroom : s.cq.length < s.params.statFifoDepth) (hlen : 8 ≤ (s.engineBd 0 .rx).bc.toNat) :
    runInput (.setup q) s = onBuffer s.params (s.engineBd 0 .rx) (s.acceptSetup q) :=
  if_pos ((State.answerSetup_accept_iff s).mpr
    ⟨(State.dirEnabled_iff s 0 .rx).mpr ⟨he, hen, hhshk⟩, hcondis, hhw, hlen, State.cqFull_of_room hroom⟩)

/-- The state after the engine reads byte `k` of the packet in descriptor `i` ahead of its completion (R76). -/
def State.txFetched (s : State) (e : Nat) (i : Bool) (k : Nat) : State :=
  { s.setChannel e .tx ((s.channel e .tx).setFetched i
      ((k, s.readByte ((s.bd e .tx i).addr + k) s.freeCtr) :: (s.channel e .tx).fetched i)) with
    freeCtr := s.freeCtr + 1 }

/-- A byte of a data packet the engine owns may be read ahead (R76). -/
theorem runInput_txFetch {s : State} {e k : Nat} {i : Bool} (he : e < s.numEp) (hhw : (s.bd e .tx i).uown = .hw)
    (hstall : (s.bd e .tx i).stall = false) (hk : k < (s.bd e .tx i).bc.toNat) :
    runInput (.txFetch e i k) s = onBuffer s.params (s.bd e .tx i) (s.txFetched e i k) := by
  refine if_pos ?_
  simp [State.mayFetch, he, hhw, hstall, hk]

/-- Settles O39: each of these steps uses its descriptor's buffer, which wraps. -/
theorem wrappingBufferStopsEngine : Obligations.WrappingBufferStopsEngine := by
  intro s e d i x rest hinput he b hwraps hhw huse
  refine (step_of_input hinput).trans ?_
  rcases huse with ⟨k, rfl, rfl, hstall, hk⟩ | ⟨rfl, hhshk, hroom, ⟨rfl, rfl, hen, hstall⟩ |
    ⟨data, rfl, rfl, hen, hstall, hlen⟩ | ⟨q, rfl, rfl, rfl, hen, hcondis, hlen⟩⟩
  · exact (runInput_txFetch (s := { s with inputs := rest }) he hhw hstall hk).trans (onBuffer_of_wraps _ hwraps)
  · exact (runInput_inToken (s := { s with inputs := rest }) he hen hhshk hhw hstall hroom).trans (onBuffer_of_wraps _ hwraps)
  · exact (runInput_outPacket (s := { s with inputs := rest }) he hen hhshk hhw hstall hroom hlen).trans
      (onBuffer_of_wraps _ hwraps)
  · exact (runInput_setup (s := { s with inputs := rest }) he hen hhshk hcondis hhw hroom hlen).trans
      (onBuffer_of_wraps _ hwraps)

/-! ### Transfers that fit -/

/-- An access ends in a fault only where its register's action does. -/
theorem State.access_fault {s : State} {offset : Nat} {width : AccessWidth} {body : Host.Outcome State Fault Refusal}
    {r : Fault} (h : s.access offset width body = .fault r) : body = .fault r := by
  unfold State.access at h
  split at h
  · cases h
  split at h
  · cases h
  exact h

/-- No word written to `CMD` ends in a fault. -/
theorem issue_ne_fault (w : Word) (s : State) (r : Fault) : issue w s ≠ .fault r := by
  intro h
  unfold issue at h
  cases hd : decode w with
  | ok i =>
    rw [hd] at h
    obtain ⟨t, ht, -⟩ := exec_cases i s
    cases ht.symm.trans h
  | error _ =>
    rw [hd] at h
    cases h

/-- The engine is stuck on a buffer only if some descriptor's buffer reaches past the address space (R68). -/
theorem runInput_wraps {x : Input} {s : State} (h : runInput x s = .fault .engineBufferWraps) :
    ∃ e d i, 2 ^ s.params.addrBits < (s.bd e d i).addr + (s.bd e d i).bc.toNat := by
  cases x with
  | regWrite offset width v =>
    replace h := State.access_fault h
    split at h
    · exact absurd h (issue_ne_fault v s _)
    · split at h
      · cases h
      · split at h <;> cases h
  | regRead => cases State.access_fault h
  | bufWrite a v =>
    simp only [runInput, stepBufWrite] at h
    split at h <;> cases h
  | bufRead a =>
    simp only [runInput, stepBufRead] at h
    split at h <;> cases h
  | transportError m =>
    simp only [runInput, stepTransportError] at h
    split at h <;> cases h
  | inToken e acked =>
    simp only [runInput, stepIn] at h
    split at h
    · exact ⟨e, .tx, _, wraps_of_onBuffer_fault h⟩
    · cases h
  | outPacket e tog data =>
    simp only [runInput, stepOut] at h
    split at h
    · exact ⟨e, .rx, _, wraps_of_onBuffer_fault h⟩
    · cases h
  | setup q =>
    simp only [runInput, stepSetup] at h
    split at h
    · exact ⟨0, .rx, _, wraps_of_onBuffer_fault h⟩
    · cases h
  | txFetch e i k =>
    simp only [runInput, stepTxFetch] at h
    split at h
    · exact ⟨e, .tx, i, wraps_of_onBuffer_fault h⟩
    · cases h
  | takeEvent | tick | sessionLost | startOfFrame | busReset | busIdle | resumeSignal => cases h

/-- The buffers fit exactly when those of every pipe and its descriptors do, and the setup buffer. -/
theorem State.buffersFit_iff (s : State) :
    s.BuffersFit ↔
      s.params.setupBufAddr + Config.setupLen ≤ 2 ^ s.params.addrBits ∧ ∀ e d, (s.channel e d).Fits s.params := by
  constructor
  · rintro ⟨hsetup, hrem, htransfers, hbds⟩
    exact ⟨hsetup, fun e d => ⟨hrem e d, htransfers e d, hbds e d⟩⟩
  · rintro ⟨hsetup, hch⟩
    exact ⟨hsetup, fun e d => (hch e d).remaining, fun e d => (hch e d).transfer, fun e d => (hch e d).bds⟩

/-- A START about to be issued keeps its duty (R230). -/
theorem State.startFits_start {s : State} {v : Word} {ep : Nat} {d : Dir} {force dts zlp : Bool}
    (hd : decode v = .ok (.start ep d force dts zlp)) (h : s.startFits (.regWrite 0x00 .word v) = true) :
    s.arg0 + s.arg1.toNat ≤ 2 ^ s.params.addrBits := by
  simpa [State.startFits, hd] using h

/-- Settles O52: every action on a pipe keeps its buffers within the address space, and the engine is stuck on no other. -/
theorem fittingTransfersNeverStickEngine : Obligations.FittingTransfersNeverStickEngine := by
  intro s _ hfit hduty
  obtain ⟨hsetup, hch⟩ := (State.buffersFit_iff s).mp hfit
  refine ⟨fun hfault => ?_, fun t h => ?_⟩
  · cases hinput : s.inputs with
    | nil => cases (step_of_no_input hinput).symm.trans hfault
    | cons x rest =>
      obtain ⟨e, d, i, hwraps⟩ := runInput_wraps ((step_of_input hinput).symm.trans hfault)
      exact Nat.not_lt.mpr (hfit.descriptors e d i) hwraps
  · have hstart : ∀ v rest ep d force dts zlp, s.inputs = .regWrite 0x00 .word v :: rest →
        decode v = .ok (.start ep d force dts zlp) → s.arg0 + s.arg1.toNat ≤ 2 ^ s.params.addrBits :=
      fun v rest _ _ _ _ _ hinput hd => State.startFits_start hd (hduty _ (by rw [hinput]; rfl))
    have hparams := step_params h
    refine (State.buffersFit_iff t).mpr ⟨hparams ▸ hsetup, ?_⟩
    rw [hparams]
    exact step_keeps_channels (Channel.fits_kept s.params) hsetup hstart hch h

/-! ### The race on a transmit byte -/

/-- An acknowledged IN on endpoint `e` sends the packet in the descriptor the engine's pointer names (R220, R68). -/
structure State.SendsOn (s : State) (e : Nat) : Prop where
  present : e < s.numEp
  enabled : (s.epctl e).getLsbD 1 = true
  handshakes : (s.epctl e).getLsbD 4 = true
  engineOwned : (s.engineBd e .tx).uown = .hw
  isData : (s.engineBd e .tx).stall = false
  room : s.cq.length < s.params.statFifoDepth
  fits : (s.engineBd e .tx).addr + (s.engineBd e .tx).bc.toNat ≤ 2 ^ s.params.addrBits

theorem runInput_inToken_of_sendsOn {s : State} {e : Nat} (h : s.SendsOn e) :
    runInput (.inToken e true) s = .next (s.completeIn e) :=
  (runInput_inToken h.present h.enabled h.handshakes h.engineOwned h.isData h.room).trans (onBuffer_of_fits h.fits)

/-- Buffer memory and the inputs to come have no part in whether a packet is sent. -/
theorem State.SendsOn.of_mem_inputs {s : State} {e : Nat} (h : s.SendsOn e) (m : List Host.Cell) (l : List Input) :
    State.SendsOn { s with mem := m, inputs := l } e :=
  ⟨h.present, h.enabled, h.handshakes, h.engineOwned, h.isData, h.room, h.fits⟩

/-- A byte written before an acknowledged IN: the packet is sent from the memory with that byte. -/
theorem step_bufWrite_inToken {s : State} {e a : Nat} {v : Byte} {rest : List Input} (h : s.SendsOn e)
    (ha : a < 2 ^ s.params.addrBits) (hinput : s.inputs = .bufWrite a v :: .inToken e true :: rest) :
    ∃ t1 t2, step s = .next t1 ∧ step t1 = .next t2 ∧
      t2.sent = s.sent ++ [⟨e, (s.engineBd e .tx).tog, (s.withMem (Memory.write s.mem a v)).txData e (s.engPp e .tx)⟩] := by
  have hwrite := runInput_bufWrite (s := { s with inputs := .inToken e true :: rest }) v ha
  have hsend := runInput_inToken_of_sendsOn (h.of_mem_inputs (Memory.write s.mem a v) rest)
  exact ⟨_, _, (step_of_input hinput).trans hwrite, (step_of_input rfl).trans hsend, rfl⟩

/-! #### After an early read -/

theorem State.txFetched_channel {s : State} {e : Nat} (i : Bool) (k : Nat) (he : e < s.numEp) :
    (s.txFetched e i k).channel e .tx = (s.channel e .tx).setFetched i
      ((k, s.readByte ((s.bd e .tx i).addr + k) s.freeCtr) :: (s.channel e .tx).fetched i) :=
  State.setChannel_channel_same s e .tx _ he

theorem State.txFetched_engPp {s : State} {e : Nat} (i : Bool) (k : Nat) (he : e < s.numEp) :
    (s.txFetched e i k).engPp e .tx = s.engPp e .tx := by
  rw [State.engPp, State.txFetched_channel i k he, Channel.setFetched_engPp]
  rfl

theorem State.txFetched_bd {s : State} {e : Nat} (i : Bool) (k : Nat) (he : e < s.numEp) (j : Bool) :
    (s.txFetched e i k).bd e .tx j = s.bd e .tx j := by
  rw [State.bd, State.txFetched_channel i k he, Channel.setFetched_bd]
  rfl

theorem State.txFetched_engineBd {s : State} {e : Nat} (i : Bool) (k : Nat) (he : e < s.numEp) :
    (s.txFetched e i k).engineBd e .tx = s.engineBd e .tx := by
  rw [State.engineBd, State.txFetched_engPp i k he, State.txFetched_bd i k he]
  rfl

/-- The early read itself is what the engine will send (R76). -/
theorem State.txFetched_lookup {s : State} {e : Nat} (i : Bool) (k : Nat) (he : e < s.numEp) :
    (((s.txFetched e i k).channel e .tx).fetched i).lookup k =
      some (s.readByte ((s.bd e .tx i).addr + k) s.freeCtr) := by
  rw [State.txFetched_channel i k he, Channel.setFetched_fetched, if_pos rfl, List.lookup_cons_self]

/-- An early read has no part in whether a packet is sent. -/
theorem State.SendsOn.txFetched {s : State} {e : Nat} (h : s.SendsOn e) (i : Bool) (k : Nat) :
    (s.txFetched e i k).SendsOn e := by
  have hbd := State.txFetched_engineBd i k h.present
  have hctl : (s.txFetched e i k).epctl e = s.epctl e := State.setChannel_epctl ..
  exact
    { present := (State.setChannel_numEp ..).symm ▸ h.present
      enabled := hctl ▸ h.enabled
      handshakes := hctl ▸ h.handshakes
      engineOwned := hbd ▸ h.engineOwned
      isData := hbd ▸ h.isData
      room := h.room
      fits := hbd ▸ h.fits }

/-- A byte not read ahead that is written before the packet is sent goes out as the new one (R75). -/
theorem State.txData_of_unread_written {s : State} {e k : Nat} {i : Bool} (v : Byte) (hm : Memory.wf s.mem)
    (hk : k < (s.bd e .tx i).bc.toNat) (hunread : ((s.channel e .tx).fetched i).lookup k = none)
    (hrx : s.underRx ((s.bd e .tx i).addr + k) = false) :
    ((s.withMem (Memory.write s.mem ((s.bd e .tx i).addr + k) v)).txData e i)[k]? = some v := by
  have hbyte : Memory.byteAt (Memory.write s.mem ((s.bd e .tx i).addr + k) v) ((s.bd e .tx i).addr + k) = v :=
    (Memory.byteAt_write s.mem _ _ v hm).trans (if_pos rfl)
  generalize Memory.write s.mem ((s.bd e .tx i).addr + k) v = m at hbyte
  rw [State.txData_getElem? (s := s.withMem m) hk, State.txByte_of_unread (s := s.withMem m) hunread hrx]
  exact congrArg some hbyte

/-- A byte read ahead goes out as memory held it then, whatever is written since (R75, R76). -/
theorem State.txData_txFetched {s : State} {e k : Nat} {i : Bool} (m : List Host.Cell) (he : e < s.numEp)
    (hk : k < (s.bd e .tx i).bc.toNat) (hrx : s.underRx ((s.bd e .tx i).addr + k) = false) :
    (((s.txFetched e i k).withMem m).txData e i)[k]? = some (Memory.byteAt s.mem ((s.bd e .tx i).addr + k)) := by
  have hk' : k < ((s.txFetched e i k).bd e .tx i).bc.toNat := by rwa [State.txFetched_bd i k he]
  rw [State.txData_getElem? (s := (s.txFetched e i k).withMem m) hk',
    State.txByte_of_fetched (s := (s.txFetched e i k).withMem m) (State.txFetched_lookup i k he),
    State.readByte_of_not_underRx _ hrx]

/-- Settles O40: the late byte is sent from memory where the engine has not read it before, and the early one where it has. -/
theorem transmitRaceAdmitsOldAndNewByte : Obligations.TransmitRaceAdmitsOldAndNewByte := by
  intro s e k v rest he hm i b hen hhshk hhw hstall hroom hfit hk hunread hrx
  have hsends : s.SendsOn e := ⟨he, hen, hhshk, hhw, hstall, hroom, hfit⟩
  have ha : b.addr + k < 2 ^ s.params.addrBits := (Nat.add_lt_add_left hk _).trans_le hfit
  constructor
  · obtain ⟨t1, t2, h1, h2, hsent⟩ := step_bufWrite_inToken
      (hsends.of_mem_inputs s.mem (.bufWrite (b.addr + k) v :: .inToken e true :: rest)) ha rfl
    exact ⟨t1, t2, _, h1, h2, hsent, State.txData_of_unread_written v hm hk hunread hrx⟩
  · have hearly := hsends.of_mem_inputs s.mem (.bufWrite (b.addr + k) v :: .inToken e true :: rest)
    obtain ⟨t1, t2, h1, h2, hsent⟩ := step_bufWrite_inToken (hearly.txFetched i k) ha rfl
    rw [State.txFetched_engPp i k hearly.present, State.txFetched_engineBd i k hearly.present] at hsent
    have hfetch := (runInput_txFetch hearly.present hhw hstall hk).trans (onBuffer_of_fits hfit)
    exact ⟨_, t1, t2, _, (step_of_input rfl).trans hfetch, h1, h2, hsent,
      State.txData_txFetched _ hearly.present hk hrx⟩

end Sys2Proof.Machine
end

section
/-! PROOFS. The command encoding (30_encoding.md R80 to R85, R94 to R99): decoding and encoding are inverse to each other (O1,
O2), the sample words (O4), and which words are illegal (for O3). -/

namespace Sys2Proof

/-! ### A word of the table selects one row -/

/-- The opcode byte belongs to every row's mask, and a row fixes no other bit to 1 (R98). -/
theorem row_opcode : ∀ r ∈ rows, r.mask &&& 0xFF000000#32 = 0xFF000000#32 ∧ r.bits &&& 0xFF000000#32 = r.bits := by decide

/-- A word that selects a row has the opcode byte of that row. -/
theorem opcode_of_selected {w : Word} {r : Row} (hr : r ∈ rows) (h : w &&& r.mask = r.bits) : w &&& 0xFF000000#32 = r.bits := by
  obtain ⟨hmask, hbits⟩ := row_opcode r hr
  rw [← hmask, ← BitVec.and_assoc, h, hbits]

/-- Rows with the same fixed bits are the same row. -/
theorem row_eq_of_bits {r q : Row} (hr : r ∈ rows) (hq : q ∈ rows) (h : r.bits = q.bits) : r = q :=
  List.inj_on_of_nodup_map (f := Row.bits) (by decide) hr hq h

/-- Rows with the same mnemonic are the same row. -/
theorem row_eq_of_mnemonic {r q : Row} (hr : r ∈ rows) (hq : q ∈ rows) (h : r.mnemonic = q.mnemonic) : r = q :=
  List.inj_on_of_nodup_map (f := Row.mnemonic) (by decide) hr hq h

/-- A word decodes by whichever row it selects: no word selects two. -/
theorem decode_of_selected {w : Word} {r : Row} (hr : r ∈ rows) (h : w &&& r.mask = r.bits) : decode w = .ok (r.fields w) := by
  cases hd : decode w with
  | ok i =>
    obtain ⟨q, hq, hsel, rfl⟩ := decode_ok hd
    rw [row_eq_of_bits hr hq ((opcode_of_selected hr h).symm.trans (opcode_of_selected hq hsel))]
  | error e => exact absurd h ((decode_error_iff w).mp ⟨e, hd⟩ r hr)

/-! ### The fields of an encoded command -/

@[simp] theorem bitField_getElem (m n : Nat) (b : Bool) (h : n < 32) : (bitField m b)[n] = (decide (m = n) && b) := by
  unfold bitField
  rw [← BitVec.twoPow_eq]
  cases b
  · simp
  · rw [if_pos rfl, BitVec.getElem_twoPow, Bool.and_true]
    exact decide_eq_decide.mpr eq_comm

/-- An endpoint number takes no bit above bit 3 (R82). -/
@[simp] theorem epBits_getElem (ep n : Nat) (h : n < 32) (hn : 4 ≤ n) : (epBits ep)[n] = false :=
  Nat.testBit_lt_two_pow <| calc
    (epBits ep).toNat ≤ ep % 16 := Nat.mod_le _ _
    _ < 2 ^ 4 := Nat.mod_lt _ (by decide)
    _ ≤ 2 ^ n := Nat.pow_le_pow_right (by decide) hn

/-- A flag above bit 3 takes no bit of the endpoint field. -/
theorem bitField_and_epMask (m : Nat) (b : Bool) (hm : 4 ≤ m) : bitField m b &&& 0xF#32 = 0#32 := by
  have hmask : (0xF#32).getLsbD m = false :=
    Nat.testBit_lt_two_pow (lt_of_lt_of_le (by decide : 15 < 2 ^ 4) (Nat.pow_le_pow_right (by decide) hm))
  unfold bitField
  rw [← BitVec.twoPow_eq]
  cases b
  · exact BitVec.zero_and
  · rw [if_pos rfl, BitVec.twoPow_and, hmask]
    rfl

/-- A command that names an endpoint has its number at bits 3:0 of its word, and nothing else there (R82). -/
theorem encode_eq_or_epBits {i : Instr} {ep : Nat} (h : i.endpoint? = some ep) :
    ∃ k, k &&& 0xF#32 = 0#32 ∧ encode i = k ||| epBits ep := by
  cases i with
  | readErr | dispatch => cases h
  | configure | start | stall | unstall | flush | queryStall | setEpfunc =>
    obtain rfl := Option.some.inj h
    exact ⟨_, by simp [dirBits, BitVec.and_or_distrib_right, bitField_and_epMask], rfl⟩

theorem endpoint_lt_of_wellFormed {i : Instr} {ep : Nat} (h : i.endpoint? = some ep) (hi : i.wellFormed = true) : ep < 16 := by
  cases i with
  | readErr | dispatch => cases h
  | configure | start | stall | unstall | flush | queryStall | setEpfunc =>
    obtain rfl := Option.some.inj h
    exact of_decide_eq_true hi

/-- The endpoint of a well-formed command is read back from its word. -/
theorem epField_encode {i : Instr} {ep : Nat} (h : i.endpoint? = some ep) (hi : i.wellFormed = true) :
    epField (encode i) = ep := by
  obtain ⟨k, hk, henc⟩ := encode_eq_or_epBits h
  have hep : ep < 16 := endpoint_lt_of_wellFormed h hi
  unfold epField
  rw [henc, BitVec.and_or_distrib_right, hk, BitVec.zero_or, BitVec.toNat_and]
  show (ep % 16 % 2 ^ 32) &&& (2 ^ 4 - 1) = ep
  rw [Nat.and_two_pow_sub_one_eq_mod]
  omega

theorem dirField_eq_of_bit {w : Word} {d : Dir} (h : w.getLsbD 7 = (d == .tx)) : dirField w = d := by
  unfold dirField
  rw [h]
  cases d <;> rfl

/-- The row of a command's mnemonic reads the command back from its word. -/
theorem fields_encode {i : Instr} {r : Row} (hr : r ∈ rows) (hm : r.mnemonic = Laws.RowOf.mnemonic i)
    (hi : i.wellFormed = true) : r.fields (encode i) = i := by
  have hrow : ∀ n (hn : n < rows.length), rows[n].mnemonic = Laws.RowOf.mnemonic i → r = rows[n] := fun n hn h =>
    row_eq_of_mnemonic hr (List.getElem_mem hn) (hm.trans h.symm)
  cases i with
  | configure ep cfTx cfRx cfHshk =>
    have hep : epField (encode (.configure ep cfTx cfRx cfHshk)) = ep := epField_encode rfl hi
    rw [hrow 0 (by decide) rfl]
    show Instr.configure (epField _) _ _ _ = _
    rw [hep]
    simp [encode]
  | start ep dir force dts zlp =>
    have hep : epField (encode (.start ep dir force dts zlp)) = ep := epField_encode rfl hi
    have hdir : dirField (encode (.start ep dir force dts zlp)) = dir := dirField_eq_of_bit (by simp [encode, dirBits])
    rw [hrow 1 (by decide) rfl]
    show Instr.start (epField _) (dirField _) _ _ _ = _
    rw [hep, hdir]
    simp [encode, dirBits]
  | stall ep dir =>
    rw [hrow 2 (by decide) rfl]
    exact congrArg₂ Instr.stall (epField_encode rfl hi) (dirField_eq_of_bit (by simp [encode, dirBits]))
  | unstall ep dir =>
    rw [hrow 3 (by decide) rfl]
    exact congrArg₂ Instr.unstall (epField_encode rfl hi) (dirField_eq_of_bit (by simp [encode, dirBits]))
  | flush ep dir =>
    rw [hrow 4 (by decide) rfl]
    exact congrArg₂ Instr.flush (epField_encode rfl hi) (dirField_eq_of_bit (by simp [encode, dirBits]))
  | queryStall ep dir =>
    rw [hrow 5 (by decide) rfl]
    exact congrArg₂ Instr.queryStall (epField_encode rfl hi) (dirField_eq_of_bit (by simp [encode, dirBits]))
  | setEpfunc ep =>
    rw [hrow 6 (by decide) rfl]
    exact congrArg Instr.setEpfunc (epField_encode rfl hi)
  | readErr => rw [hrow 7 (by decide) rfl]; rfl
  | dispatch => rw [hrow 8 (by decide) rfl]; rfl

/-- Every command's word selects the row of its mnemonic. -/
theorem encode_selects (i : Instr) : ∃ r ∈ rows, r.mnemonic = Laws.RowOf.mnemonic i ∧ encode i &&& r.mask = r.bits := by
  have hstatement : Laws.RowOf.Statement i := by
    cases i with
    | configure => exact Laws.RowOf.configure ..
    | start => exact Laws.RowOf.start ..
    | stall => exact Laws.RowOf.stall ..
    | unstall => exact Laws.RowOf.unstall ..
    | flush => exact Laws.RowOf.flush ..
    | queryStall => exact Laws.RowOf.queryStall ..
    | setEpfunc => exact Laws.RowOf.setEpfunc ..
    | readErr => exact Laws.RowOf.readErr
    | dispatch => exact Laws.RowOf.dispatch
  obtain ⟨r, hr, hm, hsel⟩ := hstatement
  exact ⟨r, hr, hm, eq_of_beq hsel⟩

/-- Settles O1: the word of a command selects the row of its mnemonic and no other, and that row reads the fields back. -/
theorem decodeOfEncode : Obligations.DecodeOfEncode := by
  intro i hi
  obtain ⟨r, hr, hm, hsel⟩ := encode_selects i
  rw [decode_of_selected hr hsel, fields_encode hr hm hi]

/-- Settles O2: the fields of a row carry every bit its mask leaves out. -/
theorem encodeOfDecode : Obligations.EncodeOfDecode := by
  intro w i h
  obtain ⟨r, hr, hsel, rfl⟩ := decode_ok h
  refine ⟨?_, wellFormed_of_row hr w⟩
  calc encode (r.fields w)
    _ = r.bits ||| (w &&& ~~~r.mask) := encode_of_row hr w
    _ = w &&& (r.mask ||| ~~~r.mask) := by rw [← hsel, ← BitVec.and_or_distrib_left]
    _ = w := by rw [BitVec.or_not_self, BitVec.and_allOnes]

/-- Settles O4: each word is the encoding of its command. -/
theorem sampleWordsDecode : Obligations.SampleWordsDecode :=
  ⟨decodeOfEncode (.configure 2 true true true) rfl, decodeOfEncode (.start 1 .tx true true false) rfl,
    decodeOfEncode (.start 0 .rx false false true) rfl, decodeOfEncode (.stall 1 .tx) rfl,
    decodeOfEncode (.unstall 15 .rx) rfl, decodeOfEncode (.flush 0 .tx) rfl, decodeOfEncode (.queryStall 1 .tx) rfl,
    decodeOfEncode (.setEpfunc 2) rfl, decodeOfEncode .readErr rfl, decodeOfEncode .dispatch rfl⟩

/-! ### Illegal words -/

/-- The reserved flag bits of an opcode, in bits 15:0 (R84, R83). -/
def reservedFlags (op : Nat) : Word :=
  if op = 1 then 0xF8F0 else if op = 2 then 0xFF00 else if op ≤ 6 then 0xFF70 else if op = 7 then 0xFFF0 else 0xFFFF

/-- A word selects a row exactly when it has the row's opcode and none of that opcode's reserved bits. -/
theorem selected_iff_opcode (w : Word) {r : Row} (hr : r ∈ rows) :
    w &&& r.mask = r.bits ↔ (w >>> 24).toNat = (r.bits >>> 24).toNat ∧ w &&& 0x00FF0000#32 = 0#32 ∧
      w &&& reservedFlags (w >>> 24).toNat = 0#32 := by
  have hsplit : ∀ r ∈ rows, (r.bits >>> 24).toNat < 256 ∧
      BitVec.ofNat 32 (r.bits >>> 24).toNat <<< 24 = r.bits ∧
      0xFF000000#32 ||| (0x00FF0000#32 ||| reservedFlags (r.bits >>> 24).toNat) = r.mask ∧
      r.bits &&& (0x00FF0000#32 ||| reservedFlags (r.bits >>> 24).toNat) = 0#32 ∧
      0xFF000000#32 &&& (0x00FF0000#32 ||| reservedFlags (r.bits >>> 24).toNat) = 0#32 := by decide
  obtain ⟨hop, hbits, hmask, hfixed, hreserved⟩ := hsplit r hr
  rw [selected_iff _ _ _ _ hop hbits hmask hfixed hreserved]
  exact and_congr_right fun h => by rw [h]

/-- The opcodes of the table are 1 to 9 (R81). -/
theorem exists_row_opcode_iff (op : Nat) : (∃ r ∈ rows, op = (r.bits >>> 24).toNat) ↔ 0 < op ∧ op < 0x0A := by
  constructor
  · rintro ⟨r, hr, rfl⟩
    revert r
    decide
  · rintro ⟨hlo, hhi⟩
    interval_cases op <;> decide

/-- The words that do not decode: a reserved opcode, bits 23:16, or a reserved flag of the opcode (R94). -/
theorem decode_error_iff_reserved (w : Word) : (∃ r, decode w = .error r) ↔
    ((w >>> 24).toNat = 0 ∨ 0x0A ≤ (w >>> 24).toNat ∨ w &&& 0x00FF0000#32 ≠ 0#32 ∨
      w &&& reservedFlags (w >>> 24).toNat ≠ 0#32) := by
  have hlegal : (∃ r ∈ rows, w &&& r.mask = r.bits) ↔ (0 < (w >>> 24).toNat ∧ (w >>> 24).toNat < 0x0A) ∧
      w &&& 0x00FF0000#32 = 0#32 ∧ w &&& reservedFlags (w >>> 24).toNat = 0#32 := by
    rw [← exists_row_opcode_iff]
    constructor
    · rintro ⟨r, hr, hsel⟩
      obtain ⟨hop, hbits⟩ := (selected_iff_opcode w hr).mp hsel
      exact ⟨⟨r, hr, hop⟩, hbits⟩
    · rintro ⟨⟨r, hr, hop⟩, hbits⟩
      exact ⟨r, hr, (selected_iff_opcode w hr).mpr ⟨hop, hbits⟩⟩
  rw [decode_error_iff, ← not_iff_not]
  push Not
  rw [hlegal, Nat.pos_iff_ne_zero, and_assoc]

end Sys2Proof
end

section
/-! PROOFS. Writes of command words to `CMD` (30_encoding.md R80, R90 to R94, R99): an illegal word only reports (O3), a legal
one executes its command (O5, O6), a command on an absent endpoint fails (O10); and event records as words (O45). -/

namespace Sys2Proof.Machine

/-! ### Writes to `CMD` -/

/-- A step on a word write to `CMD` issues the word (20_memory.md R66). -/
theorem step_cmdWrite {s : State} {w : Word} {rest : List Input} (hinput : s.inputs = .regWrite 0x00 .word w :: rest) :
    step s = issue w { s with inputs := rest } :=
  (step_of_input hinput).trans (State.access_ok (s := { s with inputs := rest }) (offset := 0x00) _ rfl (by omega))

theorem issue_of_ok {w : Word} {i : Instr} (s : State) (h : decode w = .ok i) : issue w s = exec i s := by
  unfold issue
  rw [h]

theorem issue_of_error {w : Word} {r : IllegalWord} (s : State) (h : decode w = .error r) : issue w s = .next s.illegal := by
  unfold issue
  rw [h]

/-- Settles O3: the illegal words are those that select no row, and issuing one is `State.illegal`. -/
theorem illegalWordsOnlyReport : Obligations.IllegalWordsOnlyReport := fun w =>
  ⟨decode_error_iff_reserved w, fun _ _ _ hinput hdecode => (step_cmdWrite hinput).trans (issue_of_error _ hdecode)⟩

/-- Settles O5: the write to `CMD` issues the word, and issuing a legal word executes its command. -/
theorem stepRunsDecodedInstruction : Obligations.StepRunsDecodedInstruction := fun _ _ _ _ hinput hdecode =>
  (step_cmdWrite hinput).trans (issue_of_ok _ hdecode)

/-- Settles O6: O5 on the write that `withFetchWord` puts first. -/
theorem fetchWordRunsNext : Obligations.FetchWordRunsNext := fun s nbits w i hdecode =>
  stepRunsDecodedInstruction (s.withFetchWord nbits w) (BitVec.ofNat 32 w) i s.inputs rfl hdecode

/-- A command that names an endpoint does all it does behind the check that the endpoint exists (R90). -/
theorem exec_inRange {i : Instr} {ep : Nat} (s : State) (h : i.endpoint? = some ep) :
    ∃ body, exec i s = .next (s.inRange ep body) := by
  cases i with
  | readErr | dispatch => cases h
  | configure | start | stall | unstall | flush | queryStall | setEpfunc =>
    obtain rfl := Option.some.inj h
    exact ⟨_, rfl⟩

/-- Settles O10: the check of the endpoint fails before the command does anything. -/
theorem absentEndpointFailsRange : Obligations.AbsentEndpointFailsRange := by
  intro i ep s hendpoint habsent
  obtain ⟨body, hexec⟩ := exec_inRange s hendpoint
  rw [hexec, State.inRange_of_le body habsent]
  rfl

/-! ### Event words -/

/-- A field above the bits of a word is added to it. -/
theorem toNat_or_shiftLeft {lo hi : Word} {a b n : Nat} (hlo : lo.toNat = a) (hhi : hi.toNat = b) (ha : a < 2 ^ n)
    (hb : b * 2 ^ n < 2 ^ 32) : (lo ||| hi <<< n).toNat = a + 2 ^ n * b := by
  rw [BitVec.toNat_or, BitVec.toNat_shiftLeft, hlo, hhi, Nat.shiftLeft_eq, Nat.mod_eq_of_lt hb, Nat.or_comm, Nat.mul_comm,
    ← Nat.two_pow_add_eq_or_of_lt ha, Nat.add_comm]

/-- The direction and ping-pong bits of an event's first word, as a pair of bits (R93). -/
theorem eventFlags_eq (d : Dir) (pp : Bool) : putBit (putBit 0#32 8 (dirBit d)) 9 pp = pairMask (dirBit d) pp <<< 8 := by
  cases d <;> cases pp <;> rfl

theorem pairMask_toNat (b0 b1 : Bool) : (pairMask b0 b1).toNat = b0.toNat + 2 * b1.toNat := by
  cases b0 <;> cases b1 <;> rfl

/-- The fields of an event's first word lie one above the other (R93). -/
theorem Event.word0_toNat {v : Event} (hep : v.ep < 16) :
    v.word0.toNat = v.kind.code.toNat + 2 ^ 4 * v.ep + 2 ^ 8 * ((dirBit v.dir).toNat + 2 * v.pp.toNat) + 2 ^ 16 * v.fd.toNat := by
  have hcode : v.kind.code.toNat < 2 ^ 4 := v.kind.code.isLt
  have hdir : (dirBit v.dir).toNat < 2 := Bool.toNat_lt _
  have hpp : v.pp.toNat < 2 := Bool.toNat_lt _
  have hfd : v.fd.toNat < 2 ^ 8 := v.fd.isLt
  have hepBits : ((BitVec.ofNat 4 v.ep).setWidth 32).toNat = v.ep := by
    rw [BitVec.toNat_setWidth_of_le (by decide), BitVec.toNat_ofNat, Nat.mod_eq_of_lt hep]
  have hkindEp := toNat_or_shiftLeft (lo := v.kind.code.setWidth 32) (BitVec.toNat_setWidth_of_le (by decide)) hepBits hcode
    (by omega)
  have hlow := toNat_or_shiftLeft hkindEp (pairMask_toNat (dirBit v.dir) v.pp) (n := 8) (by omega) (by omega)
  unfold Event.word0
  rw [eventFlags_eq]
  exact toNat_or_shiftLeft hlow (BitVec.toNat_setWidth_of_le (by decide)) (by omega) (by omega)

/-- Settles O45: the fields of the first word add up, and the other two words are numbers. -/
theorem eventWordsCarryFields : Obligations.EventWordsCarryFields := by
  intro v hep
  have hdir : (dirBit v.dir).toNat = if v.dir = .tx then 1 else 0 := by cases v.dir <;> rfl
  have hpp : v.pp.toNat = if v.pp then 1 else 0 := by cases v.pp <;> rfl
  refine ⟨?_, BitVec.toNat_setWidth_of_le (by decide), rfl⟩
  rw [Event.word0_toNat hep, ← hdir, ← hpp]
  omega

end Sys2Proof.Machine
end

section
/-! PROOFS. The commands that configure a pipe (40_pipe_config.md): CONFIGURE (O11, O12), STALL (O13), UNSTALL (O14), FLUSH
(O15, O16) and QUERY_STALL (O17), each on an endpoint that exists. -/

namespace Sys2Proof.Machine

/-! ### CONFIGURE -/

/-- The state after CONFIGURE on an endpoint that exists (R110). -/
def State.afterConfigure (s : State) (ep : Nat) (cfTx cfRx cfHshk : Bool) : State :=
  (s.setEndpoint ep ((s.endpoint ep).configured ep s.maxOperand cfTx cfRx cfHshk)).ok 0

theorem exec_configure {s : State} {ep : Nat} (cfTx cfRx cfHshk : Bool) (h : ep < s.numEp) :
    exec (.configure ep cfTx cfRx cfHshk) s = .next (s.afterConfigure ep cfTx cfRx cfHshk) :=
  congrArg Host.Outcome.next (State.inRange_of_lt _ h)

theorem State.afterConfigure_endpoint {s : State} {ep : Nat} (cfTx cfRx cfHshk : Bool) (h : ep < s.numEp) (e : Nat) :
    (s.afterConfigure ep cfTx cfRx cfHshk).endpoint e =
      if e = ep then (s.endpoint ep).configured ep s.maxOperand cfTx cfRx cfHshk else s.endpoint e :=
  State.setEndpoint_endpoint s ep e _ h

theorem State.afterConfigure_endpoint_same {s : State} {ep : Nat} (cfTx cfRx cfHshk : Bool) (h : ep < s.numEp) :
    (s.afterConfigure ep cfTx cfRx cfHshk).endpoint ep = (s.endpoint ep).configured ep s.maxOperand cfTx cfRx cfHshk := by
  rw [State.afterConfigure_endpoint _ _ _ h, if_pos rfl]

theorem State.afterConfigure_endpoint_of_ne {s : State} {ep e : Nat} (cfTx cfRx cfHshk : Bool) (h : ep < s.numEp) (he : e ≠ ep) :
    (s.afterConfigure ep cfTx cfRx cfHshk).endpoint e = s.endpoint e := by
  rw [State.afterConfigure_endpoint _ _ _ h, if_neg he]

/-- CONFIGURE selects a direction: `cf_rx` or `cf_tx` of the command word (R110). -/
def configureSelects (cfTx cfRx : Bool) : Dir → Bool
  | .rx => cfRx
  | .tx => cfTx

/-- A direction of the configured endpoint, configured exactly when it is selected (R110). -/
theorem State.afterConfigure_channel_same {s : State} {ep : Nat} (cfTx cfRx cfHshk : Bool) (h : ep < s.numEp) (d : Dir) :
    (s.afterConfigure ep cfTx cfRx cfHshk).channel ep d =
      if configureSelects cfTx cfRx d then (s.channel ep d).configured s.maxOperand else s.channel ep d := by
  unfold State.channel
  rw [State.afterConfigure_endpoint_same _ _ _ h]
  cases d <;> rfl

theorem Channel.configured_fetched (c : Channel) (max : Count) (i : Bool) : (c.configured max).fetched i = c.fetched i := by
  cases i <;> rfl

/-- CONFIGURE writes pipes, never the engine's part of a channel: its pointer, the descriptors and what it has read (R112). -/
theorem State.afterConfigure_engineSide (s : State) (ep : Nat) (cfTx cfRx cfHshk : Bool) (e : Nat) (d : Dir) :
    (s.afterConfigure ep cfTx cfRx cfHshk).engPp e d = s.engPp e d ∧
      ∀ i, (s.afterConfigure ep cfTx cfRx cfHshk).bd e d i = s.bd e d i ∧
        ((s.afterConfigure ep cfTx cfRx cfHshk).channel e d).fetched i = (s.channel e d).fetched i := by
  refine State.setEndpoint_all (s := s) (P := fun k x => ∀ d, (x.channel d).engPp = s.engPp k d ∧
    ∀ i, (x.channel d).bd i = s.bd k d i ∧ (x.channel d).fetched i = (s.channel k d).fetched i)
    (fun _ _ => ⟨rfl, fun _ => ⟨rfl, rfl⟩⟩) (fun d => ?_) e d
  rcases Endpoint.configured_channel (s.endpoint ep) ep s.maxOperand cfTx cfRx cfHshk d with h | h <;> rw [h]
  · exact ⟨rfl, fun _ => ⟨rfl, rfl⟩⟩
  · exact ⟨rfl, fun i => ⟨Channel.configured_bd _ _ i, Channel.configured_fetched _ _ i⟩⟩

/-- CONFIGURE writes no `EPFUNC` (R112). -/
theorem State.afterConfigure_epfunc (s : State) (ep : Nat) (cfTx cfRx cfHshk : Bool) (e : Nat) :
    (s.afterConfigure ep cfTx cfRx cfHshk).epfunc e = s.epfunc e :=
  State.setEndpoint_all (s := s) (e := ep)
    (x := (s.endpoint ep).configured ep s.maxOperand cfTx cfRx cfHshk) (P := fun k x => x.epfunc = s.epfunc k) (fun _ => rfl) rfl e

/-- Settles O11, from what the configured endpoint and every other endpoint hold afterwards. -/
theorem configureWritesSelectedPipes : Obligations.ConfigureWritesSelectedPipes := by
  intro s ep cfTx cfRx cfHshk h
  have hchannel := State.afterConfigure_channel_same cfTx cfRx cfHshk h
  have hother : ∀ e, e ≠ ep → (s.afterConfigure ep cfTx cfRx cfHshk).endpoint e = s.endpoint e :=
    fun _ => State.afterConfigure_endpoint_of_ne cfTx cfRx cfHshk h
  refine ⟨_, exec_configure cfTx cfRx cfHshk h, rfl, rfl, fun d hd => ?selected, fun d hd => ?unselected,
    fun e d he => congrArg (Endpoint.channel · d) (hother e he), State.afterConfigure_engineSide s ep cfTx cfRx cfHshk,
    fun e he => congrArg Endpoint.epctl (hother e he), State.afterConfigure_epfunc s ep cfTx cfRx cfHshk,
    State.setEndpoint_numEp .., rfl, fun _ => rfl⟩
  case selected =>
    have hc := (hchannel d).trans (if_pos hd)
    exact ⟨congrArg Channel.pipe hc, congrArg Channel.held hc⟩
  case unselected =>
    have hc := (hchannel d).trans (if_neg (Bool.eq_false_iff.mp hd))
    exact ⟨congrArg Channel.pipe hc, congrArg Channel.held hc⟩

theorem State.afterConfigure_epctl_same {s : State} {ep : Nat} (cfTx cfRx cfHshk : Bool) (h : ep < s.numEp) :
    (s.afterConfigure ep cfTx cfRx cfHshk).epctl ep = configuredEpctl ep s.maxOperand cfTx cfRx cfHshk (s.epctl ep) :=
  congrArg Endpoint.epctl (State.afterConfigure_endpoint_same cfTx cfRx cfHshk h)

/-- Settles O12: each bit is read off the value CONFIGURE writes (`configuredEpctl_getLsbD`). -/
theorem configureWritesEndpointControl : Obligations.ConfigureWritesEndpointControl := by
  intro s ep cfTx cfRx cfHshk h
  have henable : ∀ max : Count, (max != 0) = decide (max ≠ 0#10) := fun _ => (decide_not ..).symm
  refine ⟨_, exec_configure cfTx cfRx cfHshk h, ?_⟩
  simp only [State.afterConfigure_epctl_same cfTx cfRx cfHshk h, configuredEpctl_getLsbD, henable]
  refine ⟨rfl, rfl, rfl, rfl, fun k hk => ?reserved⟩
  case reserved => rw [if_neg, if_neg, if_neg, if_neg] <;> omega

/-! ### Commands on the descriptors of one pipe -/

/-- A command that writes one pipe of an endpoint that exists keeps everything else but `RESULT` and `RDATA`. -/
theorem State.setChannel_ok_frame {s : State} {ep : Nat} (dir : Dir) (c : Channel) (v : Word) (h : ep < s.numEp) :
    keepsOtherPipes s ((s.setChannel ep dir c).ok v) ep dir ∧ keepsAllButTables s ((s.setChannel ep dir c).ok v) ∧
      keepsMemory s ((s.setChannel ep dir c).ok v) :=
  ⟨keepsOtherPipes_of_setChannel h rfl, rfl, fun _ => rfl⟩

/-- Both descriptors of a pipe changed by `f`, whatever each holds. -/
def Channel.mapBds (c : Channel) (f : Descriptor → Descriptor) : Channel := { c with bd0 := f c.bd0, bd1 := f c.bd1 }

theorem Channel.mapBds_bd (c : Channel) (f : Descriptor → Descriptor) (i : Bool) : (c.mapBds f).bd i = f (c.bd i) := by
  cases i <;> rfl

/-- The state after a command that answers `v` and changes both descriptors of one pipe by `f`. -/
def State.afterMapBds (s : State) (ep : Nat) (dir : Dir) (f : Descriptor → Descriptor) (v : Word) : State :=
  (s.setChannel ep dir ((s.channel ep dir).mapBds f)).ok v

/-- STALL arms both descriptors by `Descriptor.armStall` and answers the ones the block owned (R115). -/
theorem exec_stall {s : State} {ep : Nat} (dir : Dir) (h : ep < s.numEp) :
    exec (.stall ep dir) s = .next (s.afterMapBds ep dir Descriptor.armStall
      (pairMask (decide ((s.bd ep dir false).uown = .sw)) (decide ((s.bd ep dir true).uown = .sw)))) :=
  congrArg Host.Outcome.next (State.inRange_of_lt _ h)

theorem exec_unstall {s : State} {ep : Nat} (dir : Dir) (h : ep < s.numEp) :
    exec (.unstall ep dir) s = .next (s.afterMapBds ep dir Descriptor.unstalled 0) :=
  congrArg Host.Outcome.next (State.inRange_of_lt _ h)

theorem State.afterMapBds_channel {s : State} {ep : Nat} (dir : Dir) (f : Descriptor → Descriptor) (v : Word)
    (h : ep < s.numEp) : (s.afterMapBds ep dir f v).channel ep dir = (s.channel ep dir).mapBds f :=
  channel_of_setChannel h rfl

theorem State.afterMapBds_bd {s : State} {ep : Nat} (dir : Dir) (f : Descriptor → Descriptor) (v : Word) (h : ep < s.numEp)
    (i : Bool) : (s.afterMapBds ep dir f v).bd ep dir i = f (s.bd ep dir i) :=
  (congrArg (Channel.bd · i) (State.afterMapBds_channel dir f v h)).trans (Channel.mapBds_bd ..)

/-- Of the pipe itself such a command writes the two descriptors only. -/
theorem State.afterMapBds_channel_frame {s : State} {ep : Nat} (dir : Dir) (f : Descriptor → Descriptor) (v : Word)
    (h : ep < s.numEp) : (s.afterMapBds ep dir f v).channel ep dir = { s.channel ep dir with
      bd0 := (s.afterMapBds ep dir f v).bd ep dir false, bd1 := (s.afterMapBds ep dir f v).bd ep dir true } := by
  rw [State.afterMapBds_bd dir f v h, State.afterMapBds_bd dir f v h]
  exact State.afterMapBds_channel dir f v h

/-- The number of a two-bit mask, for any way to decide its bits. -/
theorem pairMask_toNat_ite (p q : Prop) [Decidable p] [Decidable q] :
    (pairMask (decide p) (decide q)).toNat = (if p then 1 else 0) + (if q then 2 else 0) := by
  rw [pairMask_toNat]
  by_cases hp : p <;> by_cases hq : q <;> simp [hp, hq]

/-- Settles O13: `Descriptor.armStall` by the owner of the descriptor. -/
theorem stallArmsOwnedDescriptors : Obligations.StallArmsOwnedDescriptors := by
  intro s ep dir h
  have hbd := State.afterMapBds_bd dir Descriptor.armStall
    (pairMask (decide ((s.bd ep dir false).uown = .sw)) (decide ((s.bd ep dir true).uown = .sw))) h
  exact ⟨_, exec_stall dir h, rfl, fun i hsw => (hbd i).trans (Descriptor.armStall_of_sw hsw),
    fun i hhw => (hbd i).trans (Descriptor.armStall_of_hw hhw), pairMask_toNat_ite _ _,
    State.afterMapBds_channel_frame _ _ _ h, State.setChannel_ok_frame _ _ _ h⟩

/-- Settles O14: UNSTALL maps `Descriptor.unstalled`, which asks no owner. -/
theorem unstallForcesBothDescriptors : Obligations.UnstallForcesBothDescriptors := by
  intro s ep dir h
  exact ⟨_, exec_unstall dir h, rfl, rfl, State.afterMapBds_bd dir _ _ h, State.afterMapBds_channel_frame _ _ _ h,
    State.setChannel_ok_frame _ _ _ h⟩

/-! ### FLUSH -/

/-- The state after FLUSH on an endpoint that exists (R121). -/
def State.afterFlush (s : State) (ep : Nat) (dir : Dir) : State :=
  (s.setChannel ep dir (s.channel ep dir).flushed).ok 0

theorem exec_flush {s : State} {ep : Nat} (dir : Dir) (h : ep < s.numEp) :
    exec (.flush ep dir) s = .next (s.afterFlush ep dir) :=
  congrArg Host.Outcome.next (State.inRange_of_lt _ h)

theorem exec_flush_of_absent {s : State} {ep : Nat} (dir : Dir) (h : s.numEp ≤ ep) :
    exec (.flush ep dir) s = .next (s.fail .range) :=
  congrArg Host.Outcome.next (State.inRange_of_le _ h)

theorem State.afterFlush_numEp (s : State) (ep : Nat) (dir : Dir) : (s.afterFlush ep dir).numEp = s.numEp :=
  State.setChannel_numEp ..

theorem State.afterFlush_channel {s : State} {ep : Nat} (dir : Dir) (h : ep < s.numEp) :
    (s.afterFlush ep dir).channel ep dir = (s.channel ep dir).flushed :=
  channel_of_setChannel h rfl

theorem Channel.flushed_fetched (c : Channel) (i : Bool) : c.flushed.fetched i = c.fetched i := by cases i <;> rfl

/-- Settles O15, field by field of the flushed pipe. -/
theorem flushReclaimsAndRealigns : Obligations.FlushReclaimsAndRealigns := by
  intro s ep dir h
  have hc := State.afterFlush_channel dir h
  exact ⟨_, exec_flush dir h, rfl, rfl, fun i => (congrArg (Channel.bd · i) hc).trans (Channel.flushed_bd ..),
    congrArg Channel.pipe hc, (congrArg Channel.engPp hc).trans (Channel.flushed_engPp _), congrArg Channel.held hc,
    fun i => (congrArg (Channel.fetched · i) hc).trans (Channel.flushed_fetched ..), State.setChannel_ok_frame _ _ _ h⟩

/-- A flushed pipe flushed again is the same pipe: its index follows the engine's pointer already (R122). -/
theorem Channel.flushed_flushed (c : Channel) : c.flushed.flushed = c.flushed := rfl

/-- The second FLUSH writes the flushed pipe back (R122). -/
theorem State.afterFlush_afterFlush {s : State} {ep : Nat} (dir : Dir) (h : ep < s.numEp) :
    (s.afterFlush ep dir).afterFlush ep dir = s.afterFlush ep dir := by
  have hflushed : ((s.afterFlush ep dir).channel ep dir).flushed = (s.afterFlush ep dir).channel ep dir := by
    rw [State.afterFlush_channel dir h, Channel.flushed_flushed]
  rw [State.afterFlush, hflushed, State.setChannel_channel_self]
  rfl

/-- Settles O16: where the endpoint exists by `State.afterFlush_afterFlush`, where it does not both commands only report. -/
theorem flushIsIdempotent : Obligations.FlushIsIdempotent := by
  intro s t ep dir hexec
  by_cases h : ep < s.numEp
  · obtain rfl := Host.Outcome.next.inj ((exec_flush dir h).symm.trans hexec)
    rw [exec_flush dir (by rwa [State.afterFlush_numEp]), State.afterFlush_afterFlush dir h]
  · have habsent : s.numEp ≤ ep := Nat.le_of_not_lt h
    obtain rfl := Host.Outcome.next.inj ((exec_flush_of_absent dir habsent).symm.trans hexec)
    exact exec_flush_of_absent dir habsent

/-! ### QUERY_STALL -/

theorem exec_queryStall {s : State} {ep : Nat} (dir : Dir) (h : ep < s.numEp) :
    exec (.queryStall ep dir) s = .next (s.ok (pairMask (s.bd ep dir false).stall (s.bd ep dir true).stall)) :=
  congrArg Host.Outcome.next (State.inRange_of_lt _ h)

/-- Settles O17: the answer is the pair of stall bits, and `State.ok` writes nothing else. -/
theorem queryStallReadsBothBits : Obligations.QueryStallReadsBothBits := by
  intro s ep dir h
  refine ⟨_, exec_queryStall dir h, rfl, ?_⟩
  simpa using pairMask_toNat_ite ((s.bd ep dir false).stall = true) ((s.bd ep dir true).stall = true)

end Sys2Proof.Machine
end

section
/-! PROOFS. START (41_transfer.md R140 to R146): it fails in its order (O18), and hands off its one packet (O19) or its first
two (O20). -/

namespace Sys2Proof.Machine

/-! ### START that fails -/

theorem Channel.start_unconfigured {c : Channel} (p : Params) (buf : Nat) (size : Size) (force dts zlp : Bool)
    (hm : c.pipe.max = 0) : c.start p buf size force dts zlp = .error .unconfigured :=
  if_pos (congrArg BitVec.toNat hm)

theorem Channel.start_busy {c : Channel} (p : Params) (buf : Nat) (size : Size) (force dts zlp : Bool)
    (hm : c.pipe.max ≠ 0) (hb : c.pipe.buf ≠ 0) : c.start p buf size force dts zlp = .error .busy :=
  (if_neg (BitVec.toNat_ne_iff_ne.mpr hm)).trans (if_pos hb)

theorem Channel.start_nullbuf {c : Channel} (p : Params) (size : Size) (force dts zlp : Bool)
    (hm : c.pipe.max ≠ 0) (hb : c.pipe.buf = 0) : c.start p 0 size force dts zlp = .error .nullbuf :=
  (if_neg (BitVec.toNat_ne_iff_ne.mpr hm)).trans ((if_neg (not_not.mpr hb)).trans (if_pos rfl))

theorem Channel.start_ownership {c : Channel} (p : Params) {buf : Nat} {size : Size} (force dts : Bool) {zlp : Bool}
    (hm : c.pipe.max ≠ 0) (hb : c.pipe.buf = 0) (ha : buf ≠ 0) (ho : c.startBlocked (startsTwo size c.pipe.max zlp) = true) :
    c.start p buf size force dts zlp = .error .ownership :=
  (if_neg (BitVec.toNat_ne_iff_ne.mpr hm)).trans ((if_neg (not_not.mpr hb)).trans ((if_neg ha).trans (if_pos ho)))

theorem Channel.startBlocked_iff (c : Channel) (two : Bool) :
    c.startBlocked two = true ↔ (c.bd c.pipe.pp).uown = .hw ∨ (two = true ∧ (c.bd (!c.pipe.pp)).uown = .hw) := by
  simp [Channel.startBlocked, Channel.nextOwned]

theorem exec_start {s : State} {ep : Nat} (dir : Dir) (force dts zlp : Bool) (h : ep < s.numEp) :
    exec (.start ep dir force dts zlp) s = .next (s.startOn ep dir force dts zlp) :=
  congrArg Host.Outcome.next (State.inRange_of_lt _ h)

/-- A START whose pipe answers a failure reports it; E_OWNERSHIP is an ownership violation too (R140, R141). -/
theorem State.startOn_of_error {s : State} {ep : Nat} {dir : Dir} {force dts zlp : Bool} {code : FailCode}
    (h : (s.channel ep dir).start s.params s.arg0 s.arg1 force dts zlp = .error code) :
    s.startOn ep dir force dts zlp = (if code = .ownership then s.ownershipViolation else s).fail code := by
  unfold State.startOn
  rw [h]
  cases code <;> rfl

/-- Settles O18: the checks of `Channel.start`, in their order. -/
theorem startFailsInOrder : Obligations.StartFailsInOrder := by
  intro s ep dir force dts zlp h
  have hfail : ∀ code, (s.channel ep dir).start s.params s.arg0 s.arg1 force dts zlp = .error code →
      exec (.start ep dir force dts zlp) s = .next ((if code = .ownership then s.ownershipViolation else s).fail code) :=
    fun code hcode => (exec_start dir force dts zlp h).trans (congrArg Host.Outcome.next (State.startOn_of_error hcode))
  refine ⟨fun hm => hfail .unconfigured (Channel.start_unconfigured _ _ _ _ _ _ hm),
    fun hm hb => hfail .busy (Channel.start_busy _ _ _ _ _ _ hm hb), fun hm hb ha => hfail .nullbuf ?_,
    fun hm hb ha ho => hfail .ownership (Channel.start_ownership _ _ _ hm hb ha ?_)⟩
  · rw [ha]
    exact Channel.start_nullbuf _ _ _ _ _ hm hb
  · rw [Channel.startBlocked_iff, startsTwo_iff]
    exact ho

/-! ### START that hands off -/

theorem wantsZlp_of_ne_zero {size : Size} (max : Count) (zlp : Bool) (h : size ≠ 0) :
    wantsZlp size max zlp = (zlp && decide (size.toNat % max.toNat = 0)) := by
  have h0 : size.toNat ≠ 0 := BitVec.toNat_ne_iff_ne.mpr h
  simp [wantsZlp, h0]

/-- The first packet of a transfer that has data (R142, R145, R146). -/
theorem Channel.queueChecked_started (p : Params) {c : Channel} (buf : Nat) {size : Size} (force dts zlp : Bool) (hs : size ≠ 0)
    (ho : (c.bd c.pipe.pp).uown = .sw) :
    let t0 := if force then dts else c.pipe.tog
    let n := min size.toNat c.pipe.max.toNat
    let z := zlp && decide (size.toNat % c.pipe.max.toNat = 0)
    let c' := { c with pipe := c.pipe.started buf size force dts zlp }.queueChecked p
    c'.pipe = ⟨buf, c.pipe.max, size, BitVec.ofNat 16 (size.toNat - n), 0, !c.pipe.pp, !t0, z, z && decide (size.toNat = n)⟩ ∧
      c'.bd c.pipe.pp = ⟨.hw, false, t0, BitVec.ofNat 10 n, buf % 2 ^ p.addrBits, .none⟩ ∧
      c'.bd (!c.pipe.pp) = c.bd (!c.pipe.pp) := by
  intro t0 n z c'
  have h0 : decide (size.toNat = 0) = false := decide_eq_false (BitVec.toNat_ne_iff_ne.mpr hs)
  obtain ⟨hpipe, hbd, hother, -⟩ := Channel.queueChecked_data p
    (c := { c with pipe := c.pipe.started buf size force dts zlp }) hs le_rfl ho
  refine ⟨hpipe.trans ?_, hbd.trans ?_, hother⟩
  · simp only [Pipe.started, wantsZlp_of_ne_zero _ _ hs, h0, Bool.false_or]
    rfl
  · simp only [Pipe.started, Nat.sub_self, Nat.add_zero]
    rfl

/-- What a START for one packet hands off, of no data or of all there is (R142, R143, R146). -/
theorem Channel.queueChecked_started_one (p : Params) {c : Channel} (buf : Nat) {size : Size} (force dts : Bool) {zlp : Bool}
    (hone : size.toNat < c.pipe.max.toNat ∨ (size.toNat = c.pipe.max.toNat ∧ zlp = false)) (ho : (c.bd c.pipe.pp).uown = .sw) :
    let t0 := if force then dts else c.pipe.tog
    let c' := { c with pipe := c.pipe.started buf size force dts zlp }.queueChecked p
    c'.pipe = ⟨buf, c.pipe.max, size, 0, 0, !c.pipe.pp, !t0, decide (size = 0), false⟩ ∧
      c'.bd c.pipe.pp = ⟨.hw, false, t0, size.setWidth 10, buf % 2 ^ p.addrBits, .none⟩ ∧
      c'.bd (!c.pipe.pp) = c.bd (!c.pipe.pp) := by
  intro t0 c'
  by_cases hs : size = 0
  · subst hs
    obtain ⟨hpipe, hbd, hother, -⟩ := Channel.queueChecked_zlp p
      (c := { c with pipe := c.pipe.started buf 0 force dts zlp }) rfl rfl ho
    exact ⟨hpipe, hbd, hother⟩
  · have hz : (zlp && decide (size.toNat % c.pipe.max.toNat = 0)) = false := by
      rcases hone with hlt | ⟨-, rfl⟩
      · have hne : size.toNat ≠ 0 := BitVec.toNat_ne_iff_ne.mpr hs
        simp [Nat.mod_eq_of_lt hlt, hne]
      · rfl
    obtain ⟨hpipe, hbd, hother⟩ := Channel.queueChecked_started p buf force dts zlp hs ho
    have hlen : min size.toNat c.pipe.max.toNat = size.toNat := Nat.min_eq_left (by omega)
    rw [hlen, hz, Nat.sub_self, Bool.false_and] at hpipe
    rw [hlen, BitVec.ofNat_toNat] at hbd
    exact ⟨by rw [hpipe, decide_eq_false hs]; rfl, hbd, hother⟩

/-- The second packet of a transfer of at least `max` bytes whose first is handed off: data while any is left, otherwise the
zero-length packet it wants (R145). -/
theorem Channel.queueChecked_second (p : Params) {c : Channel} {buf : Nat} {max : Count} {size : Size} {pp tog z : Bool}
    (hle : max.toNat ≤ size.toNat) (hz : size.toNat = max.toNat → z = true) (ho : (c.bd pp).uown = .sw)
    (hc : c.pipe = ⟨buf, max, size, BitVec.ofNat 16 (size.toNat - max.toNat), 0, pp, tog, z,
      z && decide (size.toNat = max.toNat)⟩) :
    let left := size.toNat - max.toNat
    (c.queueChecked p).pipe = ⟨buf, max, size, BitVec.ofNat 16 (left - max.toNat), 0, !pp, !tog, z,
        z && decide (0 < left ∧ left ≤ max.toNat)⟩ ∧
      (c.queueChecked p).bd pp = ⟨.hw, false, tog, BitVec.ofNat 10 (min left max.toNat),
        (buf + max.toNat) % 2 ^ p.addrBits, .none⟩ ∧
      (c.queueChecked p).bd (!pp) = c.bd (!pp) := by
  intro left
  have ho' : (c.bd c.pipe.pp).uown = .sw := by rw [hc]; exact ho
  have hr : c.pipe.rem.toNat = left := by rw [hc]; exact Nat.mod_eq_of_lt (by omega)
  rcases hle.lt_or_eq with hlt | heq
  · have hlen : c.pipe.packetLength = min left max.toNat := by rw [Pipe.packetLength, hr, hc]
    obtain ⟨hpipe, hbd, hother, -⟩ := Channel.queueChecked_data p (c := c)
      (BitVec.toNat_ne_iff_ne.mp (by rw [hr]; exact (Nat.sub_pos_of_lt hlt).ne')) (by rw [hr, hc]; exact Nat.sub_le ..) ho'
    rw [hr, hlen, hc] at hpipe hbd
    rw [hc] at hother
    have hne : decide (size.toNat = max.toNat) = false := decide_eq_false hlt.ne'
    have hrest : left - min left max.toNat = left - max.toNat := by omega
    have hlast : decide (left = min left max.toNat) = decide (0 < left ∧ left ≤ max.toNat) := decide_eq_decide.mpr (by omega)
    refine ⟨hpipe.trans ?_, hbd.trans ?_, hother⟩
    · simp only [hne, hrest, hlast, Bool.and_false, Bool.false_or]
    · simp only [left, Nat.sub_sub_self hle]
  · have hleft : left = 0 := by omega
    have hdue : c.pipe.sendZeroPkt = true := by rw [hc]; simp [hz heq.symm, heq]
    obtain ⟨hpipe, hbd, hother, -⟩ := Channel.queueChecked_zlp p (c := c) (BitVec.eq_of_toNat_eq (hr.trans hleft)) hdue ho'
    rw [hc] at hpipe hbd hother
    refine ⟨hpipe.trans ?_, hbd.trans ?_, hother⟩
    · simp [hleft]
    · simp [hleft, heq]

/-- A size that is a multiple of `max` and leaves one packet after the first is `2 * max`. -/
theorem mod_eq_zero_and_second_last_iff {size max : Nat} (hm : max ≠ 0) :
    (size % max = 0 ∧ 0 < size - max ∧ size - max ≤ max) ↔ size = 2 * max := by
  constructor
  · rintro ⟨hmod, hpos, hle⟩
    rw [Nat.mod_eq_sub_mod (by omega)] at hmod
    by_cases hlt : size - max < max
    · rw [Nat.mod_eq_of_lt hlt] at hmod
      omega
    · omega
  · rintro rfl
    exact ⟨Nat.mul_mod_left 2 max, by omega⟩

/-- What a START for two packets or more hands off: `max` bytes, then what is left, at most `max` (R142, R143, R146). -/
theorem Channel.queueChecked_started_two (p : Params) {c : Channel} (buf : Nat) {size : Size} (force dts : Bool) {zlp : Bool}
    (hm : c.pipe.max ≠ 0)
    (htwo : c.pipe.max.toNat < size.toNat ∨ (size.toNat = c.pipe.max.toNat ∧ zlp = true)) (ho : ∀ i, (c.bd i).uown = .sw) :
    let t0 := if force then dts else c.pipe.tog
    let left := size.toNat - c.pipe.max.toNat
    let c' := ({ c with pipe := c.pipe.started buf size force dts zlp }.queueChecked p).queueChecked p
    c'.pipe = ⟨buf, c.pipe.max, size, BitVec.ofNat 16 (left - c.pipe.max.toNat), 0, c.pipe.pp, t0,
        zlp && decide (size.toNat % c.pipe.max.toNat = 0), zlp && decide (size.toNat = 2 * c.pipe.max.toNat)⟩ ∧
      c'.bd c.pipe.pp = ⟨.hw, false, t0, c.pipe.max, buf % 2 ^ p.addrBits, .none⟩ ∧
      c'.bd (!c.pipe.pp) = ⟨.hw, false, !t0, BitVec.ofNat 10 (min left c.pipe.max.toNat),
        (buf + c.pipe.max.toNat) % 2 ^ p.addrBits, .none⟩ := by
  intro t0 left c'
  have hm0 : c.pipe.max.toNat ≠ 0 := BitVec.toNat_ne_iff_ne.mpr hm
  have hle : c.pipe.max.toNat ≤ size.toNat := by omega
  have hs : size ≠ 0 := BitVec.toNat_ne_iff_ne.mp (show size.toNat ≠ 0 by omega)
  obtain ⟨hpipe, hbd, hother⟩ := Channel.queueChecked_started p buf force dts zlp hs (ho _)
  rw [Nat.min_eq_right hle] at hpipe hbd
  rw [BitVec.ofNat_toNat, BitVec.setWidth_eq] at hbd
  have hwants : size.toNat = c.pipe.max.toNat → (zlp && decide (size.toNat % c.pipe.max.toNat = 0)) = true := by
    intro heq
    rcases htwo with hlt | ⟨-, rfl⟩
    · omega
    · simp [heq]
  obtain ⟨hpipe2, hbd2, hother2⟩ := Channel.queueChecked_second p hle hwants (by rw [hother]; exact ho _) hpipe
  rw [Bool.not_not, Bool.not_not, Bool.and_assoc, ← Bool.decide_and,
    decide_eq_decide.mpr (mod_eq_zero_and_second_last_iff hm0)] at hpipe2
  rw [Bool.not_not] at hother2
  exact ⟨hpipe2, hother2.trans hbd, hbd2⟩

/-- A START whose pipe answers OK reports it and writes that pipe only (R140). -/
theorem exec_start_of_ok {s : State} {ep : Nat} {dir : Dir} {force dts zlp : Bool} {c : Channel} (h : ep < s.numEp)
    (hc : (s.channel ep dir).start s.params s.arg0 s.arg1 force dts zlp = .ok c) :
    ∃ t, exec (.start ep dir force dts zlp) s = .next t ∧ t.result = 0 ∧ t.rdata = 0 ∧ t.channel ep dir = c ∧
      t.engPp ep dir = s.engPp ep dir ∧ t.held ep dir = s.held ep dir ∧
      keepsOtherPipes s t ep dir ∧ keepsAllButTables s t ∧ keepsMemory s t := by
  have hexec : exec (.start ep dir force dts zlp) s = .next ((s.setChannel ep dir c).ok 0) := by
    rw [exec_start dir force dts zlp h, State.startOn, hc]
  have hch : ((s.setChannel ep dir c).ok 0).channel ep dir = c := channel_of_setChannel h rfl
  obtain ⟨hpp, hheld, -⟩ := Channel.start_keeps hc
  exact ⟨_, hexec, rfl, rfl, hch, (congrArg Channel.engPp hch).trans hpp, (congrArg Channel.held hch).trans hheld,
    State.setChannel_ok_frame dir c 0 h⟩

theorem Channel.start_one_ok (p : Params) {c : Channel} {buf : Nat} {size : Size} (force dts : Bool) {zlp : Bool}
    (hm : c.pipe.max ≠ 0) (hb : c.pipe.buf = 0) (ha : buf ≠ 0)
    (hone : size.toNat < c.pipe.max.toNat ∨ (size.toNat = c.pipe.max.toNat ∧ zlp = false)) (ho : (c.bd c.pipe.pp).uown = .sw) :
    c.start p buf size force dts zlp = .ok ({ c with pipe := c.pipe.started buf size force dts zlp }.queueChecked p) := by
  have hnot : ¬ startsTwo size c.pipe.max zlp = true := by
    rw [startsTwo_iff]
    rcases hone with hlt | ⟨heq, rfl⟩
    · omega
    · simp [heq]
  rw [Channel.start_ok hm hb ha ho (fun h => absurd h hnot), if_neg hnot]

theorem Channel.start_two_ok (p : Params) {c : Channel} {buf : Nat} {size : Size} (force dts : Bool) {zlp : Bool}
    (hm : c.pipe.max ≠ 0) (hb : c.pipe.buf = 0) (ha : buf ≠ 0)
    (htwo : c.pipe.max.toNat < size.toNat ∨ (size.toNat = c.pipe.max.toNat ∧ zlp = true)) (ho : ∀ i, (c.bd i).uown = .sw) :
    c.start p buf size force dts zlp =
      .ok (({ c with pipe := c.pipe.started buf size force dts zlp }.queueChecked p).queueChecked p) := by
  rw [Channel.start_ok hm hb ha (ho _) (fun _ => ho _), if_pos ((startsTwo_iff ..).mpr htwo)]

/-- Settles O19: `Channel.start` queues one packet, by `Channel.queueChecked_started_one`. -/
theorem startHandsOffOnePacket : Obligations.StartHandsOffOnePacket := by
  intro s ep dir force dts zlp h q t0 hm hb ha hone ho
  obtain ⟨t, hexec, hres, hrd, hch, hframe⟩ :=
    exec_start_of_ok h (Channel.start_one_ok s.params force dts hm hb ha hone ho)
  obtain ⟨hpipe, hbd, hother⟩ := Channel.queueChecked_started_one s.params s.arg0 force dts hone ho
  rw [← hch] at hpipe hbd hother
  exact ⟨t, hexec, hres, hrd, hbd, hother, hpipe, hframe⟩

/-- Settles O20: `Channel.start` queues two packets, by `Channel.queueChecked_started_two`. -/
theorem startHandsOffTwoPackets : Obligations.StartHandsOffTwoPackets := by
  intro s ep dir force dts zlp h q t0 left hm hb ha htwo ho
  obtain ⟨t, hexec, hres, hrd, hch, hframe⟩ :=
    exec_start_of_ok h (Channel.start_two_ok s.params force dts hm hb ha htwo ho)
  obtain ⟨hpipe, hbd, hother⟩ := Channel.queueChecked_started_two s.params s.arg0 force dts hm htwo ho
  rw [← hch] at hpipe hbd hother
  exact ⟨t, hexec, hres, hrd, hbd, hother, hpipe, hframe⟩

end Sys2Proof.Machine
end

section
/-! PROOFS. Completed packets (41_transfer.md R150 to R153): one ends its transfer (O27), continues it (O28), or finds the next
descriptor engine-owned, which holds the transfer until its pipe is idled (O29). -/

namespace Sys2Proof.Machine

/-! ### DISPATCH of one completed packet -/

/-- A DISPATCH of a completed packet that goes on writes the record's pipe and raises no event. -/
theorem exec_dispatch_goesOn {s : State} {r : Completion} {rest : List Completion} {c : Channel} (hquiet : s.noClassPending)
    (hcq : s.cq = r :: rest) (h : r.ep < s.numEp) (hsw : (s.bd r.ep r.dir r.pp).uown = .sw)
    (hdata : r.ep ≠ 0 ∨ (s.bd r.ep r.dir r.pp).pid ≠ .setup)
    (hc : (s.channel r.ep r.dir).completePacket s.params r.pp = (c, .goesOn)) :
    ∃ t, exec .dispatch s = .next t ∧ t = { s with eps := t.eps, cq := rest, result := 0, rdata := 0 } ∧
      t.channel r.ep r.dir = c ∧ keepsOtherPipes s t r.ep r.dir := by
  refine ⟨_, exec_dispatch_token (fun k _ => hquiet k) (tokenService_of_data hcq hsw hdata hc) (hquiet .error), ?_,
    channel_of_setChannel h rfl, keepsOtherPipes_of_setChannel h rfl⟩
  rw [List.append_nil]
  rfl

/-- Settles O27: `Channel.completePacket` is done, and DISPATCH emits the one event of its record. -/
theorem doneCompletionIdlesPipeAndReports : Obligations.DoneCompletionIdlesPipeAndReports := by
  intro s r rest hquiet hcq h q b moved hsw hdata hbuf hheld hdone
  have hc := Channel.completePacket_done (p := s.params) (c := s.channel r.ep r.dir) (i := r.pp) hbuf hheld rfl
    ((Pipe.isDone_iff ..).mpr hdone)
  refine ⟨_, exec_dispatch_token (fun k _ => hquiet k) (tokenService_of_data hcq hsw hdata hc) (hquiet .error), ?_,
    channel_of_setChannel h rfl, keepsOtherPipes_of_setChannel h rfl⟩
  unfold State.completionEvent
  by_cases h0 : r.ep = 0
  · rw [if_pos h0, if_pos h0]
    rfl
  · rw [if_neg h0, if_neg h0]
    rfl

/-! ### A completed packet that continues its transfer -/

/-- Queueing what is due moves neither the engine's pointer nor the hold. -/
theorem Channel.queueChecked_keeps (p : Params) (c : Channel) :
    (c.queueChecked p).engPp = c.engPp ∧ (c.queueChecked p).held = c.held := by
  refine Channel.queueChecked_of (P := fun c' => c'.engPp = c.engPp ∧ c'.held = c.held) ⟨rfl, rfl⟩ fun c' hq => ?_
  obtain ⟨hpp, hheld, -⟩ := Channel.queueNext_keeps hq
  exact ⟨hpp, hheld⟩

/-- `QueueNext` queues nothing where no packet is due (R145). -/
theorem Channel.queueChecked_of_not_due (p : Params) {c : Channel} (hr : c.pipe.rem = 0) (hz : c.pipe.sendZeroPkt = false) :
    c.queueChecked p = c := by
  simp [Channel.queueChecked, Channel.queueNext, hr, hz]

/-- A pipe with the packet in descriptor `i` counted (R150). -/
def Channel.counted (c : Channel) (i : Bool) : Channel :=
  { c with pipe := { c.pipe with cnt := c.pipe.cnt + (c.bd i).bc.setWidth 16 } }

/-- A completion that does not end its transfer counts its packet and queues what is due, if anything is (R150, R152). -/
theorem Channel.completePacket_queues (p : Params) {c : Channel} {i : Bool} (hb : c.pipe.buf ≠ 0) (hh : c.held = false)
    (hd : (c.counted i).pipe.isDone (c.bd i).bc = false) (ho : c.pipe.packetDue = true → (c.bd c.pipe.pp).uown = .sw) :
    c.completePacket p i = ((c.counted i).queueChecked p, .goesOn) := by
  rw [Channel.completePacket_goesOn (q := (c.counted i).pipe) hb hh rfl hd ho]
  by_cases hdue : (c.counted i).pipe.packetDue = true
  · rw [if_pos hdue]
    rfl
  · obtain ⟨hr, hz⟩ := not_or.mp (mt (Pipe.packetDue_iff _).mpr hdue)
    rw [if_neg hdue, Channel.queueChecked_of_not_due p (not_not.mp hr) (Bool.eq_false_iff.mpr hz)]
    rfl

/-- Settles O28: the counted pipe after `Channel.queueChecked`, by what is due. -/
theorem continuingCompletionQueuesNextPacket : Obligations.ContinuingCompletionQueuesNextPacket := by
  intro s r rest hquiet hcq h q b moved n hsw hdata hbuf hheld hdone hle hown
  have hc := Channel.completePacket_queues s.params (c := s.channel r.ep r.dir) (i := r.pp) hbuf hheld
    (Bool.eq_false_iff.mpr (mt (Pipe.isDone_iff ..).mp hdone)) (fun hdue => hown ((Pipe.packetDue_iff _).mp hdue))
  obtain ⟨t, hexec, hframe, hch, hothers⟩ := exec_dispatch_goesOn hquiet hcq h hsw hdata hc
  refine ⟨t, hexec, hframe, hothers, ?_⟩
  unfold State.engPp State.held State.bd State.pipe
  rw [hch]
  obtain ⟨hpp, hhold⟩ := Channel.queueChecked_keeps s.params ((s.channel r.ep r.dir).counted r.pp)
  refine ⟨hpp, hhold.trans hheld, fun hr => ?_, fun hr hz => ?_, fun hr hz => Channel.queueChecked_of_not_due _ hr hz⟩
  · obtain ⟨hpipe, hbd, hother, -⟩ := Channel.queueChecked_data s.params (c := (s.channel r.ep r.dir).counted r.pp) hr hle
      (hown (.inl hr))
    exact ⟨hbd, hother, hpipe⟩
  · obtain ⟨hpipe, hbd, hother, -⟩ := Channel.queueChecked_zlp s.params (c := (s.channel r.ep r.dir).counted r.pp) hr hz
      (hown (.inr hz))
    exact ⟨hbd, hother, hpipe⟩

/-! ### A continuation that finds its descriptor engine-owned -/

/-- A DISPATCH of a completed packet whose continuation fails reports the violation as BUS_ERROR (R153, R183). -/
theorem exec_dispatch_ownFail {s : State} {r : Completion} {rest : List Completion} {c : Channel}
    (hquiet : ∀ k, k ≠ .error → s.pending k = false) (hcq : s.cq = r :: rest) (h : r.ep < s.numEp)
    (hsw : (s.bd r.ep r.dir r.pp).uown = .sw) (hdata : r.ep ≠ 0 ∨ (s.bd r.ep r.dir r.pp).pid ≠ .setup)
    (hc : (s.channel r.ep r.dir).completePacket s.params r.pp = (c, .ownFail)) :
    let err := s.errstat ||| 0x80 ||| s.errpend.setWidth 8
    ∃ t, exec .dispatch s = .next t ∧
      t = { s with eps := t.eps, cq := rest, status := s.status &&& 0xFFDF, errstat := err, errpend := 0, result := 0, rdata := 1,
                   evout := s.evout ++ [busErrorEvent err] } ∧
      t.channel r.ep r.dir = c ∧ keepsOtherPipes s t r.ep r.dir := by
  intro err
  have hpend : (State.ownershipViolation { s.setChannel r.ep r.dir c with cq := rest }).pending .error = true := by simp
  have hstatus : (s.status ||| 0x20) &&& 0xFFDF = s.status &&& 0xFFDF := by
    rw [BitVec.and_or_distrib_right]
    exact BitVec.or_zero
  refine ⟨_, exec_dispatch_error hquiet (tokenService_of_data hcq hsw hdata hc) hpend, ?_,
    channel_of_setChannel h rfl, keepsOtherPipes_of_setChannel h rfl⟩
  rw [← hstatus]
  rfl

/-! ### What keeps a held transfer held -/

/-- A change of a pipe that keeps its held transfer: only its count moves, and no packet is handed off. -/
structure Channel.KeepsHold (c c' : Channel) : Prop where
  held : c'.held = true
  pipe : c'.pipe = { c.pipe with cnt := c'.pipe.cnt }
  handsOffNothing : ∀ k, (c.bd k).uown = .sw → (c'.bd k).uown = .hw → (c'.bd k).stall = true

/-- A change that gives the engine no descriptor keeps the hold, if it keeps the pipe but for its count. -/
theorem Channel.KeepsHold.of_sw {c c' : Channel} (hheld : c'.held = true) (hpipe : c'.pipe = { c.pipe with cnt := c'.pipe.cnt })
    (hsw : ∀ k, (c.bd k).uown = .sw → (c'.bd k).uown = .sw) : c.KeepsHold c' :=
  ⟨hheld, hpipe, fun k hk hhw => by cases (hsw k hk).symm.trans hhw⟩

theorem Channel.KeepsHold.refl {c : Channel} (h : c.held = true) : c.KeepsHold c := .of_sw h rfl fun _ hk => hk

theorem Channel.counted_bd (c : Channel) (i k : Bool) : (c.counted i).bd k = c.bd k := Channel.withPipe_bd ..

theorem Channel.keepsHold_counted {c : Channel} (h : c.held = true) (i : Bool) : c.KeepsHold (c.counted i) :=
  .of_sw h rfl fun k hk => by rwa [Channel.counted_bd]

theorem Channel.keepsHold_of_engineChange {c c' : Channel} (h : c.held = true) (hc : c.EngineChange c') : c.KeepsHold c' :=
  .of_sw (hc.held.trans h) (by rw [hc.pipe]) fun k hk => by rwa [hc.blockOwned k hk]

/-- STALL hands over descriptors armed to stall (R115). -/
theorem Channel.keepsHold_armStall {c : Channel} (h : c.held = true) : c.KeepsHold (c.mapBds Descriptor.armStall) :=
  ⟨h, rfl, fun k hk _ => by rw [Channel.mapBds_bd, Descriptor.armStall_of_sw hk]⟩

theorem Channel.keepsHold_unstalled {c : Channel} (h : c.held = true) : c.KeepsHold (c.mapBds Descriptor.unstalled) :=
  .of_sw h rfl fun k _ => by rw [Channel.mapBds_bd]; rfl

/-- A command on a pipe keeps the hold of its busy transfer, or is FLUSH: START finds the pipe busy (R140). -/
theorem Channel.commanded_keepsHold {p : Params} {i : Instr} {s : State} {ep : Nat} {dir : Dir} {c c' : Channel}
    (hheld : c.held = true) (hbuf : c.pipe.buf ≠ 0) (h : c.commanded p i s ep dir c') :
    c.KeepsHold c' ∨ (c'.held = false ∧ i = .flush ep dir) := by
  rcases h with rfl | ⟨-, rfl⟩ | ⟨hi, rfl⟩ | ⟨_, _, _, -, hstart⟩
  · exact .inl (Channel.keepsHold_armStall hheld)
  · exact .inl (Channel.keepsHold_unstalled hheld)
  · exact .inr ⟨rfl, hi⟩
  · obtain ⟨-, hidle, -⟩ := Channel.start_cases hstart
    exact absurd hidle hbuf

/-- A command that may end the hold of the transfer on (`e`, `d`) (R254, log 21): FLUSH, CONFIGURE, or a DISPATCH that resets the
block or meets a setup packet on this pipe of endpoint 0. -/
def State.EndsHold (s : State) (i : Instr) (e : Nat) (d : Dir) : Prop :=
  i = .flush e d ∨ (∃ cfTx cfRx cfHshk, i = .configure e cfTx cfRx cfHshk) ∨
    (i = .dispatch ∧ (s.pending .reset = true ∨
      (e = 0 ∧ ∃ k rest, s.cq = ⟨0, d, k⟩ :: rest ∧ (s.bd 0 d k).pid = .setup)))

/-- The token-complete service keeps the hold of a busy transfer, but for a setup packet (R176, R254). -/
theorem tokenService_keepsHold {s : State} {e : Nat} {d : Dir} (hheld : s.held e d = true) (hbuf : (s.pipe e d).buf ≠ 0) :
    (s.channel e d).KeepsHold ((tokenService s).1.channel e d) ∨
      ((tokenService s).1.held e d = false ∧ e = 0 ∧ ∃ k rest, s.cq = ⟨0, d, k⟩ :: rest ∧ (s.bd 0 d k).pid = .setup) := by
  obtain ⟨e', d', c, ⟨k, hc⟩, hstate⟩ := tokenService_state s
  have heps : (tokenService s).1.eps = (s.setChannel e' d' c).eps := by
    rcases hstate with h | h
    · rw [h]
    · rw [h, State.ownershipViolation_eps]
  unfold State.held
  rw [State.channel_of_eps heps]
  rcases State.setChannel_channel_cases s e' e d' d c with h | ⟨rfl, rfl, -, h⟩ <;> rw [h]
  · exact .inl (.refl hheld)
  rcases hc with rfl | rfl | ⟨rfl, he, hsetup⟩
  · exact .inl (.refl hheld)
  · rw [Channel.completePacket_held hbuf hheld]
    exact .inl (Channel.keepsHold_counted hheld k)
  · exact .inr ⟨rfl, he, hsetup⟩

/-- The bus-reset service holds no transfer (R180). -/
theorem busReset_held (s : State) (e : Nat) (d : Dir) : s.reinitialised.configureEp0.armSetup.held e d = false := by
  have hinit : ∀ k d, (s.reinitialised.endpoint k).channel d = Channel.powerOn := fun k d => by
    rw [State.reinitialised_endpoint]
    cases d <;> rfl
  have hconf : ∀ k d, (s.reinitialised.configureEp0.channel k d).held = false := by
    refine State.setEndpoint_all (P := fun _ x => ∀ d, (x.channel d).held = false) (fun k d => by rw [hinit]; rfl) fun d => ?_
    rcases Endpoint.configured_channel (s.reinitialised.endpoint 0) 0 s.params.ep0MaxPacket true true true d with h | h
    · exact (congrArg Channel.held h).trans (by rw [hinit]; rfl)
    · exact congrArg Channel.held h
  rcases State.armSetup_cases s.reinitialised.configureEp0 with h | ⟨c, hstart, h⟩ <;> rw [h]
  · exact hconf e d
  · obtain ⟨-, hheld, -⟩ := Channel.start_keeps hstart
    exact State.setChannel_all (P := fun _ _ c => c.held = false) hconf (hheld.trans (hconf 0 .rx)) e d

/-- The services of DISPATCH keep the hold of a busy transfer, but for a bus reset or a setup packet. -/
theorem runServices_keepsHold {s : State} {e : Nat} {d : Dir} (hheld : s.held e d = true) (hbuf : (s.pipe e d).buf ≠ 0) :
    (s.channel e d).KeepsHold ((runServices services s).1.channel e d) ∨
      ((runServices services s).1.held e d = false ∧ s.EndsHold .dispatch e d) := by
  obtain ⟨v, u, rfl, -, heps⟩ := runServices_tables s
  unfold State.held
  by_cases hreset : s.pending .reset = true
  · rw [if_pos hreset] at heps
    rw [State.channel_of_eps heps]
    exact .inr ⟨busReset_held _ e d, .inr (.inr ⟨rfl, .inl hreset⟩)⟩
  · rw [if_neg hreset] at heps
    rw [State.channel_of_eps heps]
    exact (tokenService_keepsHold (s := { s with status := v }) hheld hbuf).imp_right fun ⟨hfree, hsetup⟩ =>
      ⟨hfree, .inr (.inr ⟨rfl, .inr hsetup⟩)⟩

/-- CONFIGURE ends a hold on its own endpoint only, in the directions it selects (R110, log 21). -/
theorem State.afterConfigure_keepsHold {s : State} {ep e : Nat} {d : Dir} (cfTx cfRx cfHshk : Bool) (hheld : s.held e d = true) :
    (s.channel e d).KeepsHold ((s.afterConfigure ep cfTx cfRx cfHshk).channel e d) ∨
      ((s.afterConfigure ep cfTx cfRx cfHshk).held e d = false ∧ e = ep) := by
  refine State.setEndpoint_all (s := s) (P := fun k x => ∀ d, s.held k d = true →
    (s.channel k d).KeepsHold (x.channel d) ∨ ((x.channel d).held = false ∧ k = ep))
    (fun _ _ h => .inl (.refl h)) (fun d h => ?_) e d hheld
  rcases Endpoint.configured_channel (s.endpoint ep) ep s.maxOperand cfTx cfRx cfHshk d with hch | hch <;> rw [hch]
  · exact .inl (.refl h)
  · exact .inr ⟨rfl, rfl⟩

/-- A command keeps the hold of a busy transfer, or is one that ends it. -/
theorem exec_keepsHold {i : Instr} {s t : State} {e : Nat} {d : Dir} (h : exec i s = .next t) (hheld : s.held e d = true)
    (hbuf : (s.pipe e d).buf ≠ 0) :
    (s.channel e d).KeepsHold (t.channel e d) ∨ (t.held e d = false ∧ s.EndsHold i e d) := by
  obtain ⟨t', ht, hcases⟩ := exec_cases i s
  obtain rfl := Host.Outcome.next.inj (ht.symm.trans h)
  rcases hcases with ⟨_, -, rfl⟩ | rfl | ⟨_, rfl⟩ | ⟨ep, cfTx, cfRx, cfHshk, rfl, -, rfl⟩ | ⟨ep, -, -, rfl⟩ |
    ⟨ep, dir, c, v, -, hc, rfl⟩ | ⟨-, rfl⟩ | ⟨rfl, rfl⟩
  · exact .inl (.refl hheld)
  · exact .inl (.refl hheld)
  · exact .inl (.refl hheld)
  · exact (State.afterConfigure_keepsHold cfTx cfRx cfHshk hheld).imp_right fun ⟨hfree, he⟩ =>
      ⟨hfree, .inr (.inl ⟨cfTx, cfRx, cfHshk, by rw [he]⟩)⟩
  · have hch : (s.setEndpoint ep { s.endpoint ep with epfunc := s.fdOperand }).channel e d = s.channel e d :=
      State.setEndpoint_all (P := fun k x => ∀ d, x.channel d = s.channel k d) (fun _ _ => rfl) (by rintro (_ | _) <;> rfl) e d
    rw [State.ok_channel, hch]
    exact .inl (.refl hheld)
  · unfold State.held
    rw [State.ok_channel]
    rcases State.setChannel_channel_cases s ep e dir d c with hch | ⟨rfl, rfl, -, hch⟩ <;> rw [hch]
    · exact .inl (.refl hheld)
    · exact (Channel.commanded_keepsHold hheld hbuf hc).imp_right fun ⟨hfree, hi⟩ => ⟨hfree, .inl hi⟩
  · exact .inl (.refl hheld)
  · exact runServices_keepsHold hheld hbuf

/-- A step keeps the hold of a busy transfer, or writes to `CMD` a command that ends it. -/
theorem step_keepsHold {s t : State} {e : Nat} {d : Dir} (h : step s = .next t) (hheld : s.held e d = true)
    (hbuf : (s.pipe e d).buf ≠ 0) :
    (s.channel e d).KeepsHold (t.channel e d) ∨
      (t.held e d = false ∧ ∃ v rest i, s.inputs = .regWrite 0x00 .word v :: rest ∧ decode v = .ok i ∧ s.EndsHold i e d) := by
  rcases step_cases h with ⟨-, rfl⟩ | ⟨x, rest, hinput, hx⟩
  · exact .inl (.refl hheld)
  rcases runInput_cases hx with he | ⟨v, i, rfl, hd, hexec⟩ | rfl | ⟨_, rfl⟩ | ⟨_, rfl⟩ | ⟨_, _, _, rfl⟩ | ⟨-, rfl⟩ |
    ⟨_, _, -, rfl⟩ | ⟨_, _, rfl⟩
  · exact .inl (Channel.keepsHold_of_engineChange hheld ((engineStep_engineKeeps he hx).channels e d))
  · exact (exec_keepsHold (s := { s with inputs := rest }) hexec hheld hbuf).imp_right fun ⟨hfree, hends⟩ =>
      ⟨hfree, v, rest, i, hinput, hd, hends⟩
  all_goals exact .inl (.refl hheld)

/-- Settles O29: OWNFAIL holds the transfer, `Channel.completePacket_held` counts its later packets, and `step_keepsHold` says what
ends the hold. -/
theorem heldContinuationReportsBusError : Obligations.HeldContinuationReportsBusError := by
  refine ⟨?_, fun s t e d h hheld hbuf => ?_⟩
  · intro s r rest hcq h q b moved err hsw hdata hbuf
    refine ⟨fun hquiet hheld hdone hdue hhw => ?_, fun hquiet hheld => ?_⟩
    · exact exec_dispatch_ownFail hquiet hcq h hsw hdata (Channel.completePacket_ownFail hbuf hheld rfl
        (Bool.eq_false_iff.mpr (mt (Pipe.isDone_iff ..).mp hdone)) ((Pipe.packetDue_iff _).mpr hdue) hhw)
    · exact exec_dispatch_goesOn hquiet hcq h hsw hdata (Channel.completePacket_held hbuf hheld)
  · rcases step_keepsHold h hheld hbuf with ⟨hkeep, hpipe, hnone⟩ | ⟨hfree, v, rest, i, hinput, hd, hends⟩
    · exact .inl ⟨hkeep, hpipe, hnone⟩
    · refine .inr ⟨hfree, v, rest, hinput, ?_⟩
      rw [hd]
      rcases hends with rfl | ⟨cfTx, cfRx, cfHshk, rfl⟩ | ⟨rfl, hdispatch⟩
      · exact .inl rfl
      · exact .inr (.inl ⟨cfTx, cfRx, cfHshk, rfl⟩)
      · exact .inr (.inr ⟨rfl, hdispatch⟩)

end Sys2Proof.Machine
end

section
/-! PROOFS. The function map and the error register (42_dispatch.md R190, R191): SET_EPFUNC writes a legal index or fails (O21),
READ_ERR returns and clears `ERRSTAT` (O22). -/

namespace Sys2Proof.Machine

/-- The legal contents of `EPFUNC`, as numbers (R46). -/
theorem fdLegal_iff (fd : Byte) : fdLegal fd = true ↔ fd.toNat ≤ 31 ∨ fd = 0xFF := by
  unfold fdLegal
  rw [Bool.or_eq_true, decide_eq_true_eq, beq_iff_eq]
  exact or_congr_left Nat.lt_succ_iff

/-- The state after SET_EPFUNC with a legal index (R190). -/
def State.afterSetEpfunc (s : State) (ep : Nat) : State :=
  (s.setEndpoint ep { s.endpoint ep with epfunc := s.fdOperand }).ok 0

theorem exec_setEpfunc_of_legal {s : State} {ep : Nat} (h : ep < s.numEp) (hfd : fdLegal s.fdOperand = true) :
    exec (.setEpfunc ep) s = .next (s.afterSetEpfunc ep) :=
  congrArg Host.Outcome.next ((State.inRange_of_lt _ h).trans (if_pos hfd))

theorem exec_setEpfunc_of_illegal {s : State} {ep : Nat} (h : ep < s.numEp) (hfd : fdLegal s.fdOperand ≠ true) :
    exec (.setEpfunc ep) s = .next (s.fail .range) :=
  congrArg Host.Outcome.next ((State.inRange_of_lt _ h).trans (if_neg hfd))

theorem State.afterSetEpfunc_endpoint_same {s : State} {ep : Nat} (h : ep < s.numEp) :
    (s.afterSetEpfunc ep).endpoint ep = { s.endpoint ep with epfunc := s.fdOperand } :=
  (State.setEndpoint_endpoint s ep ep _ h).trans (if_pos rfl)

theorem State.afterSetEpfunc_endpoint_of_ne {s : State} {ep e : Nat} (h : ep < s.numEp) (he : e ≠ ep) :
    (s.afterSetEpfunc ep).endpoint e = s.endpoint e :=
  (State.setEndpoint_endpoint s ep e _ h).trans (if_neg he)

/-- SET_EPFUNC writes neither `EPCTL` nor a pipe (R190). -/
theorem State.afterSetEpfunc_frame {s : State} {ep : Nat} (h : ep < s.numEp) (e : Nat) :
    (s.afterSetEpfunc ep).epctl e = s.epctl e ∧ ∀ d, (s.afterSetEpfunc ep).channel e d = s.channel e d := by
  unfold State.epctl State.channel
  by_cases he : e = ep
  · subst he
    rw [State.afterSetEpfunc_endpoint_same h]
    exact ⟨rfl, by rintro (_ | _) <;> rfl⟩
  · rw [State.afterSetEpfunc_endpoint_of_ne h he]
    exact ⟨rfl, fun _ => rfl⟩

/-- Settles O21, by whether the index is legal (`fdLegal_iff`). -/
theorem setEpfuncWritesLegalIndexes : Obligations.SetEpfuncWritesLegalIndexes := by
  intro s ep h fd
  refine ⟨fun hfd => ?_, fun hlo hhi => exec_setEpfunc_of_illegal h fun hlegal => ?_⟩
  · refine ⟨_, exec_setEpfunc_of_legal h ((fdLegal_iff fd).mpr hfd), rfl, rfl, ?_, fun e he => ?_,
      fun e => (State.afterSetEpfunc_frame h e).1, fun e => (State.afterSetEpfunc_frame h e).2,
      State.setEndpoint_numEp .., rfl, fun _ => rfl⟩
    · exact congrArg Endpoint.epfunc (State.afterSetEpfunc_endpoint_same h)
    · exact congrArg Endpoint.epfunc (State.afterSetEpfunc_endpoint_of_ne h he)
  · rcases (fdLegal_iff fd).mp hlegal with hle | hnone
    · omega
    · rw [hnone] at hhi
      exact absurd hhi (by decide)

/-- Settles O22: READ_ERR runs as `execReadErr` says, and a second one reads the 0 the first wrote. -/
theorem readErrReturnsAndClears : Obligations.ReadErrReturnsAndClears :=
  ⟨rfl, fun _ => ⟨_, rfl, rfl, rfl⟩⟩

end Sys2Proof.Machine
end

section
/-! PROOFS. DISPATCH as the services of all classes (42_dispatch.md R170 to R172): nothing pending (O23), the events in order (O24),
what every DISPATCH leaves (O25), and one forwarded class alone (O33). -/

namespace Sys2Proof.Machine

/-! ### Nothing pending -/

/-- Settles O23: the token-complete service finds no record, and no other service has a class. -/
theorem dispatchWithNothingPending : Obligations.DispatchWithNothingPending := by
  intro s hquiet hcq
  rw [exec_dispatch_token (fun k _ => hquiet k) (tokenService_of_empty hcq) (hquiet .error), List.append_nil]
  rfl

/-! ### What every DISPATCH leaves -/

/-- The services append no event themselves; DISPATCH does (R171). -/
theorem runServices_evout (s : State) : (runServices services s).1.evout = s.evout := by
  obtain ⟨⟨_, _, _, _, _, hrun⟩, -⟩ := runServices_keeps s
  rw [hrun]

/-- Settles O25: the classes by `runServices_pending`, `CQ` by `runServices_tables`, the rest by the frame of the services. -/
theorem dispatchServicesEveryClass : Obligations.DispatchServicesEveryClass := by
  intro s
  obtain ⟨_, _, -, hcq, -⟩ := runServices_tables s
  obtain ⟨⟨_, _, _, _, _, hrun⟩, hnumEp⟩ := runServices_keeps s
  refine ⟨_, exec_dispatch s, runServices_pending s, hcq, ?_, hnumEp, fun a => ?_⟩ <;> rw [hrun] <;> rfl

/-! ### The error registers through the services -/

theorem forward_errstat (c : StatusClass) (k : EventKind) (s : State) : (forward c k s).1.errstat = s.errstat := by
  rcases forward_state c k s with h | h <;> rw [h]
  rfl

theorem forward_errpend (c : StatusClass) (k : EventKind) (s : State) : (forward c k s).1.errpend = s.errpend := by
  rcases forward_state c k s with h | h <;> rw [h]
  rfl

theorem busResetService_errstat (s : State) : (busResetService s).1.errstat = s.errstat := by
  rcases busResetService_state s with ⟨-, h⟩ | ⟨-, h⟩ <;> rw [h]
  rw [State.armSetup_frame]
  rfl

theorem busResetService_errpend (s : State) : (busResetService s).1.errpend = s.errpend := by
  rcases busResetService_state s with ⟨-, h⟩ | ⟨-, h⟩ <;> rw [h]
  rw [State.armSetup_frame]
  rfl

/-- The error service does the same in a state whose ERROR bit and error registers are the same (R183). -/
theorem errorService_congr {s t : State} (hpending : s.pending .error = t.pending .error) (hstat : s.errstat = t.errstat)
    (hpend : s.errpend = t.errpend) :
    (errorService s).1.errstat = (errorService t).1.errstat ∧ (errorService s).1.errpend = (errorService t).1.errpend ∧
      (errorService s).2 = (errorService t).2 := by
  unfold errorService
  rw [hpending, hstat, hpend]
  split
  · exact ⟨rfl, rfl, rfl⟩
  · exact ⟨hstat, hpend, rfl⟩

/-- The error registers and the report after a DISPATCH are those of an error service right after the token-complete service: the
services before TOKEN write `STATUS` only, and the bus reset keeps the error registers (R172, R180, R241). -/
theorem runServices_errors (s : State) : ∃ v, ({ s with status := v } : State).pending .error = s.pending .error ∧
    let u := (tokenService { s with status := v }).1
    (runServices services s).1.errstat = (errorService u).1.errstat ∧
      (runServices services s).1.errpend = (errorService u).1.errpend ∧
      ∀ e ∈ (errorService u).2, e ∈ (runServices services s).2 := by
  obtain ⟨v, hv⟩ := forwards_state s
  refine ⟨v, ?_, ?_⟩
  · rw [← hv]
    simp
  obtain ⟨hstat, hpend, hevents⟩ := errorService_congr (s := (busResetService (tokenService { s with status := v }).1).1)
    (by simp) (busResetService_errstat _) (busResetService_errpend _)
  dsimp only
  rw [← hstat, ← hpend, ← hevents, ← hv]
  simp only [services, runServices, forward_errstat, forward_errpend, List.mem_append]
  exact ⟨trivial, trivial, fun e he => .inr (.inr (.inr (.inr (.inr (.inl he)))))⟩

/-- A violation only adds to an ERROR that is pending. -/
theorem tokenService_error_pending {s : State} (h : s.pending .error = true) : (tokenService s).1.pending .error = true := by
  rcases tokenService_pending s .error with he | ⟨-, he⟩
  · exact he.trans h
  · exact he

/-- The token-complete service writes no transport error (R183). -/
theorem tokenService_errpend (s : State) : (tokenService s).1.errpend = s.errpend := by
  obtain ⟨_, _, _, -, h | h⟩ := tokenService_state s <;> exact (congrArg State.errpend h).trans rfl

/-- A DISPATCH with ERROR pending: `ERRPEND` joins what the token-complete service leaves in `ERRSTAT`, and is reported (R183). -/
theorem runServices_of_error_pending {s : State} (h : s.pending .error = true) :
    ∃ v, (runServices services s).1.errstat = (tokenService { s with status := v }).1.errstat ||| s.errpend.setWidth 8 ∧
      (runServices services s).1.errpend = 0 ∧
      busErrorEvent (runServices services s).1.errstat ∈ (runServices services s).2 := by
  obtain ⟨v, hpending, hstat, hpend, hevents⟩ := runServices_errors s
  rw [errorService_of_pending (tokenService_error_pending (hpending.trans h))] at hstat hpend hevents
  rw [tokenService_errpend] at hstat hevents
  refine ⟨v, hstat, hpend, ?_⟩
  rw [hstat]
  exact hevents _ (List.mem_singleton.mpr rfl)

/-! ### The events of a DISPATCH -/

/-- A forwarding service emits at most one event, of the turn of its kind. -/
theorem forward_turn (c : StatusClass) (k : EventKind) (s : State) :
    (forward c k s).2.length ≤ 1 ∧ ∀ v ∈ (forward c k s).2, v.kind.turn = k.turn := by
  rw [forward_events]
  split <;> simp

/-- The bus-reset service emits BUS_RESET, exactly when RESET is pending (R180). -/
theorem busResetService_events (s : State) :
    (busResetService s).2 = if s.pending .reset then [{ kind := .busReset }] else [] := by
  unfold busResetService
  split <;> rfl

/-- The error service emits BUS_ERROR with the bitmap, exactly when ERROR is pending (R183). -/
theorem errorService_events (s : State) :
    (errorService s).2 = if s.pending .error then [busErrorEvent (s.errstat ||| s.errpend.setWidth 8)] else [] := by
  by_cases h : s.pending .error = true
  · rw [errorService_of_pending h, if_pos h]
  · rw [errorService_of_quiet (Bool.eq_false_iff.mpr h), if_neg h]

theorem busResetService_turn (s : State) :
    (busResetService s).2.length ≤ 1 ∧ ∀ v ∈ (busResetService s).2, v.kind.turn = 4 := by
  rw [busResetService_events]
  split <;> simp [EventKind.turn]

theorem errorService_turn (s : State) :
    (errorService s).2.length ≤ 1 ∧ ∀ v ∈ (errorService s).2, v.kind.turn = 5 := by
  rw [errorService_events]
  split <;> simp [EventKind.turn, busErrorEvent]

/-- Each service emits at most one event, of its own turn in the order of R172. -/
theorem services_turn (j : Nat) (hj : j < services.length) (s : State) :
    ((services[j]) s).2.length ≤ 1 ∧ ∀ v ∈ ((services[j]) s).2, v.kind.turn = 0 + j :=
  match j, hj with
  | 0, _ => forward_turn .tick .tick s
  | 1, _ => forward_turn .detach .detach s
  | 2, _ => forward_turn .sof .sof s
  | 3, _ => tokenService_events s
  | 4, _ => busResetService_turn s
  | 5, _ => errorService_turn s
  | 6, _ => forward_turn .idle .suspend s
  | 7, _ => forward_turn .resume .resume s
  | 8, _ => forward_turn .stall .stall s

/-- The kind of the event a class raises (R172). -/
def StatusClass.eventKind : StatusClass → EventKind
  | .tick => .tick
  | .detach => .detach
  | .sof => .sof
  | .reset => .busReset
  | .error => .busError
  | .idle => .suspend
  | .resume => .resume
  | .stall => .stall

/-- An event of kind `k` is among the events. -/
def Raises (evs : List Event) (k : EventKind) : Prop := ∃ v ∈ evs, v.kind = k

theorem raises_append (a b : List Event) (k : EventKind) : Raises (a ++ b) k ↔ Raises a k ∨ Raises b k := by
  simp only [Raises, List.mem_append, or_and_right, exists_or]

theorem not_raises_nil (k : EventKind) : ¬ Raises [] k := by simp [Raises]

theorem raises_ite_singleton (b : Bool) (v : Event) (k : EventKind) :
    Raises (if b then [v] else []) k ↔ b = true ∧ v.kind = k := by
  cases b <;> simp [Raises]

/-- The token-complete service raises no event of a stored class. -/
theorem tokenService_not_raises (s : State) (c : StatusClass) : ¬ Raises (tokenService s).2 c.eventKind := by
  rintro ⟨v, hv, hk⟩
  have hturn := (tokenService_events s).2 v hv
  rw [hk] at hturn
  cases c <;> cases hturn

/-- A DISPATCH raises the event of a class other than ERROR exactly if the class was pending: no service before the class's own sets
or clears its bit (R172). -/
theorem runServices_raises {s : State} {c : StatusClass} (hc : c ≠ .error) :
    Raises (runServices services s).2 c.eventKind ↔ s.pending c = true := by
  simp only [services, runServices, raises_append, forward_events, busResetService_events, errorService_events,
    raises_ite_singleton, not_raises_nil, tokenService_not_raises, forward_pending, busResetService_pending,
    errorService_pending, tokenService_pending_of_ne, ne_eq, reduceCtorEq, not_false_eq_true]
  cases c <;> simp [StatusClass.eventKind, busErrorEvent] at hc ⊢

/-- A pending ERROR raises its event (R172). -/
theorem runServices_raises_busError {s : State} (h : s.pending .error = true) :
    Raises (runServices services s).2 .busError := by
  obtain ⟨_, -, -, hevent⟩ := runServices_of_error_pending h
  exact ⟨_, hevent, rfl⟩

/-- Settles O24: `runServices_turns` gives the order and the number, `runServices_raises` the classes. -/
theorem dispatchAppendsEventsInOrder : Obligations.DispatchAppendsEventsInOrder := by
  intro s
  obtain ⟨hlen, -, horder⟩ := runServices_turns services 0 services_turn s
  refine ⟨_, _, exec_dispatch s, rfl, congrArg (· ++ _) (runServices_evout s), rfl, hlen, horder, ?_⟩
  exact ⟨runServices_raises (c := .tick) (by decide), runServices_raises (c := .detach) (by decide),
    runServices_raises (c := .sof) (by decide), runServices_raises (c := .reset) (by decide),
    runServices_raises (c := .idle) (by decide), runServices_raises (c := .resume) (by decide),
    runServices_raises (c := .stall) (by decide), runServices_raises_busError⟩

/-! ### One forwarded class -/

/-- A class that DISPATCH only forwards (R173, R184). -/
def StatusClass.Forwarded (c : StatusClass) : Prop := c ≠ .reset ∧ c ≠ .error

/-- With `CQ` empty and one forwarded class pending, a service does nothing or forwards that class. -/
theorem service_of_only {f : State → State × List Event} (hf : f ∈ services) {s : State} {c : StatusClass} (hcq : s.cq = [])
    (honly : ∀ c', s.pending c' = decide (c' = c)) (hc : c.Forwarded) :
    f s = (s, []) ∨ f s = (s.clear c, [{ kind := c.eventKind }]) := by
  have hfwd : ∀ c', forward c' c'.eventKind s = (s, []) ∨ forward c' c'.eventKind s = (s.clear c, [{ kind := c.eventKind }]) :=
    fun c' => by
      by_cases h : c' = c
      · subst h
        exact .inr (forward_of_pending _ (by simp [honly]))
      · exact .inl (forward_of_quiet _ (by simp [honly, h]))
  simp only [services, List.mem_cons, List.not_mem_nil, or_false] at hf
  obtain ⟨hreset, herror⟩ := hc
  rcases hf with rfl | rfl | rfl | rfl | rfl | rfl | rfl | rfl | rfl
  · exact hfwd .tick
  · exact hfwd .detach
  · exact hfwd .sof
  · exact .inl (tokenService_of_empty hcq)
  · exact .inl (if_neg (by simp [honly, hreset.symm]))
  · exact .inl (errorService_of_quiet (by simp [honly, herror.symm]))
  · exact hfwd .idle
  · exact hfwd .resume
  · exact hfwd .stall

/-- Services that find nothing to do leave the state and emit nothing. -/
theorem runServices_idle {fs : List (State → State × List Event)} {s : State} (h : ∀ f ∈ fs, f s = (s, [])) :
    runServices fs s = (s, []) := by
  induction fs with
  | nil => rfl
  | cons f fs ih =>
    simp only [runServices, h f List.mem_cons_self, ih fun g hg => h g (List.mem_cons_of_mem _ hg), List.append_nil]

/-- With `CQ` empty and no class pending, no service has anything to do. -/
theorem service_idle {f : State → State × List Event} (hf : f ∈ services) {s : State} (hcq : s.cq = [])
    (hquiet : s.noClassPending) : f s = (s, []) := by
  rcases mem_services hf with ⟨c, k, rfl, -, -⟩ | rfl | rfl | rfl
  · exact forward_of_quiet k (hquiet c)
  · exact tokenService_of_empty hcq
  · exact if_neg (by simp [hquiet .reset])
  · exact errorService_of_quiet (hquiet .error)

/-- Services with `CQ` empty and one forwarded class pending do nothing, or forward that class once. -/
theorem runServices_of_only {fs : List (State → State × List Event)} (hfs : ∀ f ∈ fs, f ∈ services) {s : State}
    {c : StatusClass} (hcq : s.cq = []) (honly : ∀ c', s.pending c' = decide (c' = c)) (hc : c.Forwarded) :
    runServices fs s = (s, []) ∨ runServices fs s = (s.clear c, [{ kind := c.eventKind }]) := by
  induction fs with
  | nil => exact .inl rfl
  | cons f fs ih =>
    have hrest : ∀ g ∈ fs, g ∈ services := fun g hg => hfs g (List.mem_cons_of_mem _ hg)
    rcases service_of_only (hfs f List.mem_cons_self) hcq honly hc with hf | hf <;> simp only [runServices, hf]
    · exact ih hrest
    · have hidle : runServices fs (s.clear c) = (s.clear c, []) :=
        runServices_idle fun g hg => service_idle (hrest g hg) hcq fun k => by simp [honly]
      exact .inr (by rw [hidle, List.append_nil])

/-- A DISPATCH with one forwarded class pending clears it and appends its event: it cannot leave the class pending. -/
theorem exec_dispatch_of_only {s : State} {c : StatusClass} (hcq : s.cq = [])
    (honly : ∀ c', s.pending c' = decide (c' = c)) (hc : c.Forwarded) :
    exec .dispatch s =
      .next { s with status := s.status &&& ~~~(1#16 <<< c.bit), result := 0, rdata := 1,
                     evout := s.evout ++ [{ kind := c.eventKind }] } := by
  have hserved := runServices_pending s c
  rw [exec_dispatch]
  rcases runServices_of_only (fun _ hf => hf) hcq honly hc with h | h <;> rw [h] at hserved ⊢
  · rw [honly, decide_eq_true rfl] at hserved
    cases hserved
  · rfl

/-- Settles O33, class by class from `exec_dispatch_of_only`. -/
theorem forwardedClassRaisesItsEvent : Obligations.ForwardedClassRaisesItsEvent := by
  intro s c k n hcq honly hmem
  simp only [List.mem_cons, Prod.mk.injEq, List.not_mem_nil, or_false] at hmem
  rcases hmem with ⟨rfl, rfl, rfl⟩ | ⟨rfl, rfl, rfl⟩ | ⟨rfl, rfl, rfl⟩ | ⟨rfl, rfl, rfl⟩ | ⟨rfl, rfl, rfl⟩ | ⟨rfl, rfl, rfl⟩ <;>
    exact (exec_dispatch_of_only hcq honly ⟨by decide, by decide⟩).trans rfl

end Sys2Proof.Machine
end

section
/-! PROOFS. Records of `CQ` that end no transfer (42_dispatch.md R175, R176, R178): a stray completion (O26), a record whose
descriptor the engine owns (O30), and a setup packet (O31). -/

namespace Sys2Proof.Machine

/-- Settles O26: `Channel.completePacket` answers STRAY with the pipe as it was. -/
theorem strayCompletionOnlyRemovesRecord : Obligations.StrayCompletionOnlyRemovesRecord := by
  intro s r rest hquiet hcq hsw hdata hidle
  have htoken := tokenService_of_data hcq hsw hdata (Channel.completePacket_stray hidle)
  rw [State.setChannel_channel_self] at htoken
  rw [exec_dispatch_token (fun k _ => hquiet k) htoken (hquiet .error), List.append_nil]
  rfl

/-- The error service clears the ERROR bit an ownership violation sets (R183, R204). -/
theorem status_or_error_cleared (v : BitVec 16) : (v ||| 0x20) &&& 0xFFDF = v &&& 0xFFDF := by
  rw [BitVec.and_or_distrib_right]
  exact BitVec.or_zero

/-- Settles O30: the token-complete service records the violation and the error service of the same DISPATCH reports it. -/
theorem staleRecordReportsBusError : Obligations.StaleRecordReportsBusError := by
  intro s r rest hquiet hcq hhw err
  have hpend : (State.ownershipViolation { s with cq := rest }).pending .error = true := by simp
  rw [exec_dispatch_error hquiet (tokenService_of_hw hcq hhw) hpend, ← status_or_error_cleared s.status]
  rfl

/-- Settles O31: `State.setupPath` on the endpoint-0 pipe is the whole of the DISPATCH. -/
theorem setupPacketIdlesPipeAndReports : Obligations.SetupPacketIdlesPipeAndReports := by
  intro s d i rest hquiet hcq h q b hsw hsetup
  exact ⟨_, exec_dispatch_token (fun k _ => hquiet k) (tokenService_of_setup hcq hsw ⟨rfl, hsetup⟩) (hquiet .error), rfl,
    channel_of_setChannel h rfl, keepsOtherPipes_of_setChannel h rfl⟩

end Sys2Proof.Machine
end

section
/-! PROOFS. The error service within a DISPATCH (42_dispatch.md R183): what it ORs, clears and reports whatever else is serviced, and
when the completion record adds an ownership violation (O32). -/

namespace Sys2Proof.Machine

/-! ### When the completion record is an ownership violation -/

/-- CompletePacket answers OWNFAIL exactly where a packet is due in a descriptor the engine owns, of a busy transfer that goes on and
is not held (R150, R153, R254). -/
theorem Channel.completePacket_ownFail_iff (p : Params) (c : Channel) (i : Bool) :
    (c.completePacket p i).2 = .ownFail ↔ c.pipe.buf ≠ 0 ∧ c.held = false ∧ ¬ (c.counted i).pipe.isDone (c.bd i).bc = true ∧
      c.pipe.packetDue = true ∧ (c.bd c.pipe.pp).uown = .hw := by
  constructor
  · intro h
    rcases Channel.completePacket_cases p c i with ⟨-, hc⟩ | ⟨-, -, hc⟩ | ⟨-, -, -, hc⟩ |
      ⟨hb, hh, hd, ⟨_, -, hc⟩ | hc | ⟨hdue, -⟩⟩
    · rw [hc] at h; cases h
    · rw [hc] at h; cases h
    · rw [hc] at h; cases h
    · rw [hc] at h; cases h
    · rw [hc] at h; cases h
    · refine ⟨hb, hh, Bool.eq_false_iff.mp hd, hdue, ?_⟩
      cases hown : (c.bd c.pipe.pp).uown with
      | hw => rfl
      | sw =>
        rw [Channel.completePacket_queues p hb hh hd fun _ => hown] at h
        cases h
  · rintro ⟨hb, hh, hd, hdue, hown⟩
    rw [Channel.completePacket_ownFail hb hh rfl (Bool.eq_false_iff.mpr hd) hdue hown]

/-- The head record `r` of `CQ` is an ownership violation (R175, R153): its descriptor is the engine's, or its packet goes on to one
that is. -/
def State.ViolatedBy (s : State) (r : Completion) : Prop :=
  (s.bd r.ep r.dir r.pp).uown = .hw ∨
    ((r.ep ≠ 0 ∨ (s.bd r.ep r.dir r.pp).pid ≠ .setup) ∧
      ((s.channel r.ep r.dir).completePacket s.params r.pp).2 = .ownFail)

/-- The conditions of a violation in the fields of the record's pipe. -/
theorem State.violatedBy_iff (s : State) (r : Completion) :
    let q := s.pipe r.ep r.dir
    let b := s.bd r.ep r.dir r.pp
    s.ViolatedBy r ↔ (b.uown = .hw ∨
      ((r.ep ≠ 0 ∨ b.pid ≠ .setup) ∧ q.buf ≠ 0 ∧ s.held r.ep r.dir = false ∧
        ¬ (b.bc.toNat < q.max.toNat ∨ (q.cnt + b.bc.setWidth 16 = q.size ∧ q.zeroPkt = false)) ∧
        (q.rem ≠ 0 ∨ q.sendZeroPkt = true) ∧ (s.bd r.ep r.dir q.pp).uown = .hw)) := by
  unfold State.ViolatedBy
  rw [Channel.completePacket_ownFail_iff, Pipe.isDone_iff, Pipe.packetDue_iff]
  rfl

/-- The completion path records a violation exactly on OWNFAIL (R179). -/
theorem State.completionPath_errstat (s : State) (r : Completion) :
    (s.completionPath r).1.errstat =
      if ((s.channel r.ep r.dir).completePacket s.params r.pp).2 = .ownFail then s.errstat ||| 0x80 else s.errstat := by
  unfold State.completionPath
  generalize (s.channel r.ep r.dir).completePacket s.params r.pp = co
  obtain ⟨c, o⟩ := co
  cases o <;> rfl

/-- The token-complete service sets OWN exactly if its record is an ownership violation, and keeps the other error bits
(R174, R204). -/
theorem tokenService_errstat (s : State) :
    ((∃ r rest, s.cq = r :: rest ∧ s.ViolatedBy r) → (tokenService s).1.errstat = s.errstat ||| 0x80) ∧
      ((¬ ∃ r rest, s.cq = r :: rest ∧ s.ViolatedBy r) → (tokenService s).1.errstat = s.errstat) := by
  rcases tokenService_cases s with ⟨hcq, h⟩ | ⟨r, rest, hcq, hcases⟩
  · rw [h, hcq]
    exact ⟨fun ⟨_, _, hnil, _⟩ => (nomatch hnil), fun _ => rfl⟩
  have hhead : (∃ r' rest', s.cq = r' :: rest' ∧ s.ViolatedBy r') ↔ s.ViolatedBy r :=
    ⟨fun ⟨_, _, hcq', hv⟩ => (List.cons.inj (hcq.symm.trans hcq')).1 ▸ hv, fun hv => ⟨r, rest, hcq, hv⟩⟩
  rw [hhead]
  unfold State.ViolatedBy
  rcases hcases with ⟨hhw, h⟩ | ⟨hsw, hep, hpid, h⟩ | ⟨hsw, hdata, h⟩ <;> rw [h]
  · exact ⟨fun _ => rfl, fun hno => absurd (.inl hhw) hno⟩
  · refine ⟨?_, fun _ => rfl⟩
    rintro (hhw | ⟨hne | hne, -⟩)
    · cases hsw.symm.trans hhw
    · exact absurd hep hne
    · exact absurd hpid hne
  · rw [State.completionPath_errstat]
    simp only [hsw, hdata, reduceCtorEq, false_or, true_and]
    exact ⟨fun hv => if_pos hv, fun hno => if_neg hno⟩

/-- Settles O32: `errorService_of_pending` alone, `runServices_of_error_pending` with `tokenService_errstat` within a DISPATCH. -/
theorem errorServiceAccumulates : Obligations.ErrorServiceAccumulates := by
  intro s hpending err violation
  refine ⟨errorService_of_pending hpending, ?_, fun hquiet hcq => ?_⟩
  · obtain ⟨v, hstat, hpend, hevent⟩ := runServices_of_error_pending hpending
    have hviolation : violation ↔ ∃ r rest, s.cq = r :: rest ∧ s.ViolatedBy r :=
      exists_congr fun r => exists_congr fun rest => and_congr_right fun _ => (s.violatedBy_iff r).symm
    obtain ⟨hown, hnone⟩ := tokenService_errstat { s with status := v }
    refine ⟨_, _, exec_dispatch s, congrArg (· ++ _) (runServices_evout s), runServices_pending s .error, hpend,
      fun hv => ?_, fun hv => ?_, hevent⟩
    · refine hstat.trans ?_
      rw [hown (hviolation.mp hv), BitVec.or_assoc, BitVec.or_comm 0x80, ← BitVec.or_assoc]
    · refine hstat.trans ?_
      rw [hnone (mt hviolation.mpr hv)]
  · rw [exec_dispatch_error hquiet (tokenService_of_empty hcq) hpending]
    rfl

end Sys2Proof.Machine
end

section
/-! PROOFS. The bus reset within a DISPATCH (42_dispatch.md R180 to R182, 70_reset_and_hazards.md R241): the tables it leaves,
whatever else is serviced (O9). -/

namespace Sys2Proof.Machine

/-- The tables after a DISPATCH with RESET pending are those of the bus-reset service (R182): no later service writes one. -/
theorem runServices_reset_endpoints {s : State} (hw : s.params.wf = true) (hn : 1 ≤ s.numEp) (h : s.pending .reset = true)
    (e : Nat) : (runServices services s).1.endpoint e =
      if e = 0 then
        { rx := armedSetupPipe s.params
          tx := { Channel.powerOn with pipe := { Pipe.powerOn with max := s.params.ep0MaxPacket } }
          epctl := 0x16, epfunc := 0xFF }
      else Endpoint.powerOn e := by
  obtain ⟨v, u, hu, -, heps⟩ := runServices_tables s
  obtain ⟨⟨_, _, _, _, _, hframe⟩, hnumEp⟩ := service_keeps (f := tokenService) (by simp [services])
    (s := { s with status := v }) (t := { s with status := v }) ⟨⟨_, _, _, _, _, rfl⟩, rfl⟩
  have hparams : u.params = s.params := by rw [hu, hframe]
  have hn' : 0 < u.numEp := by rw [hu, hnumEp]; exact hn
  rw [if_pos h] at heps
  have hend := busReset_endpoints (s := u) (hparams ▸ hw) hn' e
  rw [hparams] at hend
  rw [← hend]
  unfold State.endpoint
  rw [heps]

/-- With no completion record and no ERROR pending a DISPATCH leaves the error registers alone (R241). -/
theorem runServices_errors_of_quiet {s : State} (hcq : s.cq = []) (h : s.pending .error = false) :
    (runServices services s).1.errstat = s.errstat ∧ (runServices services s).1.errpend = s.errpend := by
  obtain ⟨v, hpending, hstat, hpend, -⟩ := runServices_errors s
  rw [tokenService_of_empty (s := { s with status := v }) hcq, errorService_of_quiet (hpending.trans h)] at hstat hpend
  exact ⟨hstat, hpend⟩

/-- Every pipe of another endpoint is at its power-on values after a DISPATCH with RESET pending (R182). -/
theorem runServices_reset_channel_of_ne {s : State} (hw : s.params.wf = true) (hn : 1 ≤ s.numEp)
    (h : s.pending .reset = true) {e : Nat} (he : e ≠ 0) (d : Dir) : (runServices services s).1.channel e d = Channel.powerOn := by
  unfold State.channel
  rw [runServices_reset_endpoints hw hn h e, if_neg he]
  cases d <;> rfl

theorem Channel.powerOn_bd (i : Bool) : Channel.powerOn.bd i = Descriptor.powerOn := by cases i <;> rfl

/-- The services write no parameter and no argument register. -/
theorem runServices_operands (s : State) : (runServices services s).1.params = s.params ∧
    (runServices services s).1.arg0 = s.arg0 ∧ (runServices services s).1.arg1 = s.arg1 := by
  obtain ⟨⟨_, _, _, _, _, hrun⟩, -⟩ := runServices_keeps s
  rw [hrun]
  exact ⟨rfl, rfl, rfl⟩

/-- Settles O9: endpoint 0 from `runServices_reset_endpoints`, every other from `runServices_reset_channel_of_ne`. -/
theorem dispatchBusResetLeavesPowerUpTables : Obligations.DispatchBusResetLeavesPowerUpTables := by
  intro s hw hn hreset
  obtain ⟨_, _, -, hcq, -⟩ := runServices_tables s
  obtain ⟨-, hnumEp⟩ := runServices_keeps s
  obtain ⟨hparams, harg0, harg1⟩ := runServices_operands s
  have hend := runServices_reset_endpoints hw hn hreset
  have hzero := (hend 0).trans (if_pos rfl)
  have hother : ∀ e d, e ≠ 0 → (runServices services s).1.channel e d = Channel.powerOn := fun e d he =>
    runServices_reset_channel_of_ne hw hn hreset he d
  refine ⟨_, exec_dispatch s, hnumEp, hcq.trans (if_pos hreset), runServices_pending s .reset, hparams, harg0, harg1,
    fun e _ => ?_, congrArg (fun x => x.rx.pipe) hzero, congrArg (fun x => x.tx.pipe) hzero,
    fun e d he _ => congrArg Channel.pipe (hother e d he.ne'), congrArg (fun x => x.rx.bd0) hzero, fun e d i _ hne => ?_,
    runServices_errors_of_quiet⟩
  · by_cases he : e = 0
    · subst he
      refine ⟨congrArg Endpoint.epctl hzero, congrArg Endpoint.epfunc hzero, fun d => ?_⟩
      cases d
      · exact ⟨congrArg (fun x => x.rx.engPp) hzero, congrArg (fun x => x.rx.held) hzero⟩
      · exact ⟨congrArg (fun x => x.tx.engPp) hzero, congrArg (fun x => x.tx.held) hzero⟩
    · have hpow := (hend e).trans (if_neg he)
      rw [if_neg he]
      exact ⟨(congrArg Endpoint.epctl hpow).trans (if_neg he), congrArg Endpoint.epfunc hpow, fun d =>
        ⟨congrArg Channel.engPp (hother e d he), congrArg Channel.held (hother e d he)⟩⟩
  · by_cases he : e = 0
    · subst he
      cases d with
      | rx =>
        cases i with
        | false => simp at hne
        | true => exact congrArg (fun x => x.rx.bd1) hzero
      | tx => exact (congrArg (fun x => x.tx.bd i) hzero).trans (Channel.powerOn_bd i)
    · exact (congrArg (fun c => c.bd i) (hother e d he)).trans (Channel.powerOn_bd i)

end Sys2Proof.Machine
end

section
/-! PROOFS. Packets the engine completes (60_exceptions.md R220, R221, 20_memory.md R63, R68): what it sends and returns for an
IN (O34), and what it stores and returns for an OUT (O35) and for a SETUP (O36). -/

namespace Sys2Proof.Machine

/-! ### The descriptor returned -/

/-- From `s` to `t` the engine returns the descriptor it serves on (`e`, `d`) as `b`: its pointer inverts, and the tables are
otherwise as before (R220, R221). -/
structure State.Returns (s t : State) (e : Nat) (d : Dir) (b : Descriptor) : Prop where
  served : t.bd e d (s.engPp e d) = b
  other : t.bd e d (!s.engPp e d) = s.bd e d (!s.engPp e d)
  pipe : t.pipe e d = s.pipe e d
  engPp : t.engPp e d = !s.engPp e d
  held : t.held e d = s.held e d
  otherPipes : keepsOtherPipes s t e d

/-- Every state with the tables of `State.engineReturn` is such a `t`. -/
theorem State.returns_of_eps {s t : State} {e : Nat} {d : Dir} (he : e < s.numEp) (f : Descriptor → Descriptor)
    (ht : t.eps = (s.engineReturn e d f).eps) : s.Returns t e d { f (s.engineBd e d) with uown := .sw } := by
  have hch : t.channel e d = (s.channel e d).returned f := channel_of_setChannel he ht
  have hbd : ∀ i, t.bd e d i = ((s.channel e d).returned f).bd i := fun i => congrArg (·.bd i) hch
  exact
    { served := (hbd _).trans ((Channel.returned_bd ..).trans (if_pos rfl))
      other := (hbd _).trans ((Channel.returned_bd ..).trans (if_neg (Bool.not_ne_self _)))
      pipe := (congrArg Channel.pipe hch).trans (Channel.returned_pipe ..)
      engPp := (congrArg Channel.engPp hch).trans (Channel.returned_engPp ..)
      held := (congrArg Channel.held hch).trans (Channel.returned_held ..)
      otherPipes := keepsOtherPipes_of_setChannel he ht }

/-! ### An IN packet -/

/-- Settles O34: the engine sends the packet (`State.SendsOn`) from memory where it has read nothing ahead. -/
theorem inCompletionReturnsDescriptor : Obligations.InCompletionReturnsDescriptor := by
  intro s e rest hinput he i b hen hhshk hhw hstall hroom hfit
  have hsends : s.SendsOn e := ⟨he, hen, hhshk, hhw, hstall, hroom, hfit⟩
  have hstep := (step_of_input hinput).trans (runInput_inToken_of_sendsOn (hsends.of_mem_inputs s.mem rest))
  obtain ⟨hserved, hother, hpipe, hpp, hheld, hpipes⟩ := State.returns_of_eps (s := s)
    (t := State.completeIn { s with inputs := rest } e) he (fun b => { b with pid := .inn }) rfl
  refine ⟨_, _, hstep, rfl, hserved, hother, hpipe, hpp, hheld, hpipes, fun _ => rfl, State.txData_length .., ?_⟩
  intro k hk hunread hrx
  exact (State.txData_getElem? (s := { s with inputs := rest }) hk).trans
    (congrArg some (State.txByte_of_unread (s := { s with inputs := rest }) hunread hrx))

/-! ### An OUT packet -/

/-- A byte of a run of writes reads as it was written. -/
theorem Memory.byteAt_writeBytes_inside {vs : List Byte} {m : List Host.Cell} {k : Nat} {v : Byte} (a : Nat)
    (hm : Memory.wf m) (h : vs[k]? = some v) : Memory.byteAt (Memory.writeBytes m a vs) (a + k) = v := by
  obtain ⟨hk, -⟩ := List.getElem?_eq_some_iff.mp h
  unfold Memory.byteAt
  rw [Memory.lookup_writeBytes vs m a _ hm, if_pos (by omega), Nat.add_sub_cancel_left, h]
  rfl

/-- Settles O35: `State.completeOut` writes one run of bytes and returns the descriptor. -/
theorem outCompletionStoresPacket : Obligations.OutCompletionStoresPacket := by
  rintro s e tog data rest hinput he hm i b hen hhshk hhw hstall hroom rfl hlen hfit
  have hstep := (step_of_input hinput).trans
    ((runInput_outPacket (s := { s with inputs := rest }) he hen hhshk hhw hstall hroom hlen).trans (onBuffer_of_fits hfit))
  obtain ⟨hserved, hother, hpipe, hpp, hheld, hpipes⟩ := State.returns_of_eps (s := s)
    (t := State.completeOut { s with inputs := rest } e data) he
    (fun b => { b with bc := BitVec.ofNat 10 data.length, pid := .out }) rfl
  exact ⟨_, hstep, rfl, hserved, hother, hpipe, hpp, hheld, hpipes,
    fun _ _ hv => Memory.byteAt_writeBytes_inside b.addr hm hv,
    fun a ha => Memory.byteAt_writeBytes_outside data s.mem b.addr a hm ha⟩

/-! ### A SETUP packet -/

/-- The two bytes of a 16-bit field make it up (20_memory.md R63). -/
theorem halfByte_toNat (v : BitVec 16) : (halfByte false v).toNat + 256 * (halfByte true v).toNat = v.toNat := by
  show (v.setWidth 8).toNat + 256 * ((v >>> 8).setWidth 8).toNat = v.toNat
  have hv : v.toNat < 2 ^ 16 := v.isLt
  rw [BitVec.toNat_setWidth, BitVec.toNat_setWidth, BitVec.toNat_ushiftRight, Nat.shiftRight_eq_div_pow]
  omega

/-- The 16-bit fields of a setup packet lie at offsets 2, 4 and 6, the low byte first (30_encoding.md R89). -/
theorem SetupPacket.bytes_field {q : SetupPacket} {k : Nat} {v : BitVec 16}
    (h : (k, v) ∈ [(2, q.wValue), (4, q.wIndex), (6, q.wLength)]) :
    q.bytes[k]? = some (halfByte false v) ∧ q.bytes[k + 1]? = some (halfByte true v) := by
  simp only [List.mem_cons, List.not_mem_nil, or_false, Prod.mk.injEq] at h
  rcases h with ⟨rfl, rfl⟩ | ⟨rfl, rfl⟩ | ⟨rfl, rfl⟩ <;> exact ⟨rfl, rfl⟩

/-- Settles O36: `State.acceptSetup` writes the bytes of the packet and returns the descriptor. -/
theorem setupIsStoredAndReturned : Obligations.SetupIsStoredAndReturned := by
  intro s q rest hinput he hm i b hhw hlen hen hcondis hhshk hroom hfit
  have hstep := (step_of_input hinput).trans
    ((runInput_setup (s := { s with inputs := rest }) (q := q) he hen hhshk hcondis hhw hroom hlen).trans
      (onBuffer_of_fits hfit))
  obtain ⟨hserved, hother, hpipe, hpp, hheld, hpipes⟩ := State.returns_of_eps (s := s)
    (t := State.acceptSetup { s with inputs := rest } q) he
    (fun b => { b with bc := BitVec.ofNat 10 Config.setupLen, pid := .setup, stall := false }) rfl
  have hbyte : ∀ {k v}, q.bytes[k]? = some v → Memory.byteAt (Memory.writeBytes s.mem b.addr q.bytes) (b.addr + k) = v :=
    Memory.byteAt_writeBytes_inside b.addr hm
  refine ⟨_, hstep, rfl, hserved, hother, hpipe, hpp, hheld, hpipes, hbyte (k := 0) rfl, hbyte (k := 1) rfl, ?_,
    fun a ha => Memory.byteAt_writeBytes_outside q.bytes s.mem b.addr a hm ha⟩
  intro k v hfield
  obtain ⟨hlo, hhi⟩ := SetupPacket.bytes_field hfield
  exact (congrArg₂ (fun lo hi : Byte => lo.toNat + 256 * hi.toNat) (hbyte hlo) (hbyte hhi)).trans (halfByte_toNat v)

end Sys2Proof.Machine
end

section
/-! PROOFS. Tokens that complete no packet (60_exceptions.md R220 to R222, 70_reset_and_hazards.md R260): a STALL handshake (O37),
and a token the engine does not serve (O38). -/

namespace Sys2Proof.Machine

/-! ### The step of an answer -/

theorem runInput_inToken_of_answer {s : State} {e : Nat} {acked : Bool} (h : s.answerIn e acked ≠ .complete) :
    runInput (.inToken e acked) s = .next (s.afterAnswer (s.answerIn e acked)) :=
  if_neg h

theorem runInput_outPacket_of_answer {s : State} {e : Nat} {tog : Bool} {data : List Byte}
    (h : s.answerOut e tog data.length ≠ .complete) :
    runInput (.outPacket e tog data) s = .next (s.afterAnswer (s.answerOut e tog data.length)) :=
  if_neg h

/-! ### The STALL handshake -/

/-- Raising a class is an OR into `STATUS`. -/
theorem State.raise_eq (s : State) (c : StatusClass) : s.raise c = { s with status := s.status ||| (1#16 <<< c.bit) } := rfl

/-- Settles O37: the answer is the handshake, which is no completion. -/
theorem stallHandshakeOnlySetsStatus : Obligations.StallHandshakeOnlySetsStatus := by
  intro s e d x rest hinput hx he hen hhshk hhw hstall hroom
  have hdir : State.dirEnabled { s with inputs := rest } e d = true :=
    (State.dirEnabled_iff { s with inputs := rest } e d).mpr ⟨he, hen, hhshk⟩
  have hfull : State.cqFull { s with inputs := rest } = false := State.cqFull_of_room hroom
  refine (step_of_input hinput).trans ?_
  rcases hx with ⟨rfl, acked, rfl⟩ | ⟨rfl, tog, data, rfl⟩
  · have hans := State.answerIn_stall acked hfull hdir hhw hstall
    rw [runInput_inToken_of_answer (by rw [hans]; decide), hans]
    exact congrArg Host.Outcome.next (State.raise_eq _ .stall)
  · have hans := State.answerOut_stall tog data.length hfull hdir hhw hstall
    rw [runInput_outPacket_of_answer (by rw [hans]; decide), hans]
    exact congrArg Host.Outcome.next (State.raise_eq _ .stall)

/-! ### Tokens that are not served -/

/-- The engine serves IN and OUT tokens on (`e`, `d`): it answers with a completion or a STALL handshake, if the packet is
right (R220, R222, R260). -/
structure State.Serves (s : State) (e : Nat) (d : Dir) : Prop where
  enabled : s.dirEnabled e d = true
  engineOwned : (s.engineBd e d).uown = .hw
  room : s.cqFull = false

/-- What keeps the engine from serving a token on (`e`, `d`) (R220, R260, log 10). -/
theorem State.not_serves {s : State} {e : Nat} {d : Dir}
    (h : s.numEp ≤ e ∨ (s.epctl e).getLsbD (match d with | .tx => 1 | .rx => 2) = false ∨ (s.epctl e).getLsbD 4 = false ∨
      (s.engineBd e d).uown = .sw ∨ s.params.statFifoDepth ≤ s.cq.length) : ¬ s.Serves e d := by
  rintro ⟨henabled, howned, hroom⟩
  obtain ⟨he, hen, hhshk⟩ := (State.dirEnabled_iff s e d).mp henabled
  rcases h with habsent | hdir | hnohshk | hsw | hfull
  · exact Nat.not_lt.mpr habsent he
  · cases hdir.symm.trans hen
  · cases hnohshk.symm.trans hhshk
  · cases hsw.symm.trans howned
  · cases hroom.symm.trans ((State.cqFull_iff s).mpr hfull)

theorem Owner.eq_hw_of_ne_sw {o : Owner} (h : o ≠ .sw) : o = .hw := by
  cases o with
  | sw => exact absurd rfl h
  | hw => rfl

/-- A STALL handshake answers an IN only on a stall-armed descriptor the engine serves (R222). -/
theorem State.answerIn_stallHandshake {s : State} {e : Nat} {acked : Bool} (h : s.answerIn e acked = .stallHandshake) :
    s.Serves e .tx ∧ (s.engineBd e .tx).stall = true := by
  simp only [State.answerIn] at h
  split_ifs at h with hdir hsw hfull hstall
  exact ⟨⟨by simpa using hdir, Owner.eq_hw_of_ne_sw hsw, by simpa using hfull⟩, hstall⟩

theorem State.answerOut_stallHandshake {s : State} {e n : Nat} {tog : Bool} (h : s.answerOut e tog n = .stallHandshake) :
    s.Serves e .rx ∧ (s.engineBd e .rx).stall = true := by
  simp only [State.answerOut] at h
  split_ifs at h with hdir hsw hfull hstall
  exact ⟨⟨by simpa using hdir, Owner.eq_hw_of_ne_sw hsw, by simpa using hfull⟩, hstall⟩

/-- An IN changes nothing where the engine does not serve it, or the host does not acknowledge a data packet (R220). -/
theorem runInput_inToken_of_unserved {s : State} {e : Nat} {acked : Bool}
    (h : ¬ s.Serves e .tx ∨ ((s.engineBd e .tx).stall = false ∧ acked = false)) :
    runInput (.inToken e acked) s = .next s := by
  have hcomplete : s.answerIn e acked ≠ .complete := fun ha => by
    obtain ⟨hen, hhw, -, hroom, hacked⟩ := (State.answerIn_complete_iff s e acked).mp ha
    rcases h with hserves | ⟨-, hnack⟩
    · exact hserves ⟨hen, hhw, hroom⟩
    · cases hacked.symm.trans hnack
  have hstall : s.answerIn e acked ≠ .stallHandshake := fun ha => by
    obtain ⟨hserves, harmed⟩ := State.answerIn_stallHandshake ha
    rcases h with hnot | ⟨hdata, -⟩
    · exact hnot hserves
    · cases harmed.symm.trans hdata
  exact (runInput_inToken_of_answer hcomplete).trans (congrArg Host.Outcome.next (State.afterAnswer_of_ne hstall))

/-- An OUT packet changes nothing where the engine does not serve it, or a data descriptor expects the other toggle or fewer
bytes (R220). -/
theorem runInput_outPacket_of_unserved {s : State} {e : Nat} {tog : Bool} {data : List Byte}
    (h : ¬ s.Serves e .rx ∨ ((s.engineBd e .rx).stall = false ∧
      (tog ≠ (s.engineBd e .rx).tog ∨ (s.engineBd e .rx).bc.toNat < data.length))) :
    runInput (.outPacket e tog data) s = .next s := by
  have hcomplete : s.answerOut e tog data.length ≠ .complete := fun ha => by
    obtain ⟨hen, hhw, -, hroom, htog, hlen⟩ := (State.answerOut_complete_iff s e tog data.length).mp ha
    rcases h with hserves | ⟨-, hother | hlong⟩
    · exact hserves ⟨hen, hhw, hroom⟩
    · exact hother htog
    · exact Nat.not_lt.mpr hlen hlong
  have hstall : s.answerOut e tog data.length ≠ .stallHandshake := fun ha => by
    obtain ⟨hserves, harmed⟩ := State.answerOut_stallHandshake ha
    rcases h with hnot | ⟨hdata, -⟩
    · exact hnot hserves
    · cases harmed.symm.trans hdata
  exact (runInput_outPacket_of_answer hcomplete).trans (congrArg Host.Outcome.next (State.afterAnswer_of_ne hstall))

/-- A SETUP that is not accepted gets no handshake (R221). -/
theorem State.answerSetup_ne_stallHandshake (s : State) : s.answerSetup ≠ .stallHandshake := by
  simp only [State.answerSetup]
  split <;> decide

/-- A SETUP changes nothing where the engine does not serve endpoint 0, CONDIS is set, or the descriptor has no room for its 8
bytes (R221). -/
theorem runInput_setup_of_unserved {s : State} (q : SetupPacket)
    (h : ¬ s.Serves 0 .rx ∨ (s.epctl 0).getLsbD 3 = true ∨ (s.engineBd 0 .rx).bc.toNat < 8) :
    runInput (.setup q) s = .next s := by
  have haccept : s.answerSetup ≠ .accept := fun ha => by
    obtain ⟨hen, hcondis, hhw, hlen, hroom⟩ := (State.answerSetup_accept_iff s).mp ha
    rcases h with hserves | hdis | hshort
    · exact hserves ⟨hen, hhw, hroom⟩
    · cases hdis.symm.trans hcondis
    · exact Nat.not_lt.mpr hlen hshort
  exact (if_neg haccept).trans (congrArg Host.Outcome.next (State.afterAnswer_of_ne s.answerSetup_ne_stallHandshake))

/-- Settles O38: each reason keeps the engine from serving the token (`State.not_serves`), or makes the packet the wrong one. -/
theorem unservedTokensChangeNothing : Obligations.UnservedTokensChangeNothing := by
  intro s e x rest hinput bi bo full hx
  refine (step_of_input hinput).trans ?_
  rcases hx with ⟨acked, rfl, h⟩ | ⟨tog, data, rfl, h⟩ | ⟨q, rfl, rfl, h⟩
  · refine runInput_inToken_of_unserved (Or.imp_left State.not_serves ?_)
    rw [or_assoc, or_assoc, or_assoc, or_assoc]
    exact h
  · refine runInput_outPacket_of_unserved (Or.imp_left State.not_serves ?_)
    rw [or_assoc, or_assoc, or_assoc, or_assoc]
    exact h
  · refine runInput_setup_of_unserved q ?_
    rcases h with habsent | hdir | hdis | hnohshk | hsw | hshort | hfull
    · exact .inl (State.not_serves (.inl habsent))
    · exact .inl (State.not_serves (.inr (.inl hdir)))
    · exact .inr (.inl hdis)
    · exact .inl (State.not_serves (.inr (.inr (.inl hnohshk))))
    · exact .inl (State.not_serves (.inr (.inr (.inr (.inl hsw)))))
    · exact .inr (.inr hshort)
    · exact .inl (State.not_serves (.inr (.inr (.inr (.inr hfull)))))

end Sys2Proof.Machine
end

section
/-! PROOFS. The pending classes (60_exceptions.md R206, R207, R223): the environment's steps set their bits (O41), the interrupt
line follows the classes, and only DISPATCH clears one (O59). -/

namespace Sys2Proof.Machine

/-! ### Environment steps -/

theorem runInput_transportError {m : BitVec 5} (s : State) (h : m ≠ 0) :
    runInput (.transportError m) s = .next { s.raise .error with errpend := s.errpend ||| m } :=
  if_neg h

/-- Settles O41, input by input. -/
theorem environmentStepsSetTheirBits : Obligations.EnvironmentStepsSetTheirBits := by
  intro s x rest hinput
  refine ⟨fun n hx => ?_, ?_, ?_⟩
  · simp only [List.mem_cons, List.not_mem_nil, or_false, Prod.mk.injEq] at hx
    rcases hx with ⟨rfl, rfl⟩ | ⟨rfl, rfl⟩ | ⟨rfl, rfl⟩ | ⟨rfl, rfl⟩ | ⟨rfl, rfl⟩ | ⟨rfl, rfl⟩ <;>
      exact step_of_input hinput
  · rintro m rfl hm
    exact (step_of_input hinput).trans (runInput_transportError _ hm)
  · rintro rfl
    exact step_of_input hinput

/-! ### The interrupt line -/

/-- The line is high exactly while a bit of `STATUS` reads as 1. -/
theorem State.irq_iff_bit (s : State) : s.irq = true ↔ ∃ n, s.statusRead.getLsbD n = true := by
  unfold State.irq
  rw [bne_iff_ne]
  constructor
  · exact fun h => ⟨_, BitVec.getLsbD_true_ctz_of_ne_zero h⟩
  · rintro ⟨n, hn⟩ hzero
    simp [hzero] at hn

/-- Where the reserved bits and TOKEN are 0, a stored bit of `STATUS` is that of a class (R48). -/
theorem State.pending_of_status_bit {s : State} {n : Nat} (hs : s.status &&& 0xFE08 = 0) (hn : s.status.getLsbD n = true) :
    ∃ k, s.pending k = true := by
  have hclass : ∀ n < 16, (0xFE08 : BitVec 16).getLsbD n = false → n ∈ [0, 1, 2, 4, 5, 6, 7, 8] := by decide
  have hmask : (0xFE08 : BitVec 16).getLsbD n = false := by
    have hbit : (s.status &&& 0xFE08).getLsbD n = false := by rw [hs]; exact BitVec.getLsbD_zero
    rwa [BitVec.getLsbD_and, hn, Bool.true_and] at hbit
  have hmem := hclass n (BitVec.lt_of_getLsbD hn) hmask
  simp only [List.mem_cons, List.not_mem_nil, or_false] at hmem
  rcases hmem with rfl | rfl | rfl | rfl | rfl | rfl | rfl | rfl
  exacts [⟨.tick, hn⟩, ⟨.detach, hn⟩, ⟨.sof, hn⟩, ⟨.reset, hn⟩, ⟨.error, hn⟩, ⟨.idle, hn⟩, ⟨.resume, hn⟩, ⟨.stall, hn⟩]

/-- The line is high exactly while a class is pending, TOKEN as derived (R207). -/
theorem State.irq_iff {s : State} (hs : s.status &&& 0xFE08 = 0) :
    s.irq = true ↔ (∃ k, s.pending k = true) ∨ s.cq ≠ [] := by
  rw [State.irq_iff_bit]
  constructor
  · rintro ⟨n, hn⟩
    rw [State.statusRead_getLsbD] at hn
    split at hn
    · exact .inr (by simpa using hn)
    · exact .inl (State.pending_of_status_bit hs hn)
  · rintro (⟨k, hk⟩ | hcq)
    · refine ⟨k.bit, (State.statusRead_getLsbD s k.bit).trans ((if_neg ?_).trans hk)⟩
      cases k <;> decide
    · exact ⟨3, (State.statusRead_getLsbD s 3).trans ((if_pos rfl).trans (by simpa using hcq))⟩

/-! ### Pending classes -/

/-- Every pending class stays pending, and no record leaves `CQ`. -/
def State.KeepsPending (s t : State) : Prop := (∀ k, s.pending k = true → t.pending k = true) ∧ ∃ l, t.cq = s.cq ++ l

theorem State.KeepsPending.of_eq {s t : State} (hstatus : t.status = s.status) (hcq : t.cq = s.cq) : s.KeepsPending t := by
  refine ⟨fun k hk => ?_, [], by rw [hcq, List.append_nil]⟩
  unfold State.pending
  rwa [hstatus]

/-- Raising a class keeps the others pending (R206). -/
theorem State.KeepsPending.of_raise {s t : State} {c : StatusClass} (hstatus : t.status = (s.raise c).status)
    (hcq : t.cq = s.cq) : s.KeepsPending t := by
  refine ⟨fun k hk => ?_, [], by rw [hcq, List.append_nil]⟩
  have hraise : (s.raise c).pending k = true := by rw [State.raise_pending, hk, Bool.or_true]
  unfold State.pending
  rwa [hstatus]

/-- The engine only appends to `CQ` and raises STALL (R220 to R222). -/
theorem engineStep_keepsPending {x : Input} {s t : State} (hx : x.isEngine = true) (h : runInput x s = .next t) :
    s.KeepsPending t := by
  rcases engineStep_cases hx h with rfl | rfl | ⟨_, -, -, -, -, rfl⟩ | ⟨_, _, -, -, -, -, -, -, rfl⟩ |
    ⟨_, -, -, -, -, -, rfl⟩ | ⟨_, _, _, _, rfl⟩
  · exact .of_eq rfl rfl
  · exact .of_raise rfl rfl
  · exact ⟨fun _ hk => hk, _, rfl⟩
  · exact ⟨fun _ hk => hk, _, rfl⟩
  · exact ⟨fun _ hk => hk, _, rfl⟩
  · exact .of_eq rfl rfl

/-- Of the commands only DISPATCH clears a class or takes a record. -/
theorem exec_keepsPending {i : Instr} {s t : State} (hi : i ≠ .dispatch) (h : exec i s = .next t) : s.KeepsPending t := by
  obtain ⟨t', ht, hcases⟩ := exec_cases i s
  obtain rfl := Host.Outcome.next.inj (ht.symm.trans h)
  rcases hcases with ⟨_, -, rfl⟩ | rfl | ⟨_, rfl⟩ | ⟨_, _, _, _, -, -, rfl⟩ | ⟨_, -, -, rfl⟩ | ⟨_, _, _, _, -, -, rfl⟩ |
    ⟨-, rfl⟩ | ⟨hd, -⟩
  · exact .of_eq rfl rfl
  · exact .of_raise (c := .error) rfl rfl
  · exact .of_eq rfl rfl
  · exact .of_eq rfl rfl
  · exact .of_eq rfl rfl
  · exact .of_eq rfl rfl
  · exact .of_eq rfl rfl
  · exact absurd hd hi

theorem runInput_keepsPending {x : Input} {s t : State} (h : runInput x s = .next t)
    (hcmd : ∀ v, x = .regWrite 0x00 .word v → decode v ≠ .ok .dispatch) : s.KeepsPending t := by
  rcases runInput_cases h with he | ⟨v, i, rfl, hd, hexec⟩ | rfl | ⟨_, rfl⟩ | ⟨_, rfl⟩ | ⟨_, _, _, rfl⟩ | ⟨-, rfl⟩ |
    ⟨_, _, -, rfl⟩ | ⟨c, _, rfl⟩
  · exact engineStep_keepsPending he h
  · refine exec_keepsPending ?_ hexec
    rintro rfl
    exact hcmd v rfl hd
  · exact .of_eq rfl rfl
  · exact .of_eq rfl rfl
  · exact .of_eq rfl rfl
  · exact .of_eq rfl rfl
  · exact .of_eq rfl rfl
  · exact .of_eq rfl rfl
  · exact .of_raise (c := c) rfl rfl

/-- A step that is no DISPATCH keeps the pending classes and the records. -/
theorem step_keepsPending {s t : State} (h : step s = .next t)
    (hcmd : ∀ v rest, s.inputs = .regWrite 0x00 .word v :: rest → decode v ≠ .ok .dispatch) : s.KeepsPending t := by
  rcases step_cases h with ⟨-, rfl⟩ | ⟨x, rest, hinput, hx⟩
  · exact .of_eq rfl rfl
  · show State.KeepsPending { s with inputs := rest } t
    exact runInput_keepsPending hx fun v hv => hcmd v rest (hv ▸ hinput)

/-- Settles O59: the line by the bits of `STATUS` as it reads, the classes by everything a step can do. -/
theorem interruptLineFollowsPendingClasses : Obligations.InterruptLineFollowsPendingClasses :=
  ⟨fun _ hs => State.irq_iff hs.statusReserved, fun _ _ => step_keepsPending⟩

end Sys2Proof.Machine
end

section
/-! PROOFS. Every command completes with a result code (60_exceptions.md R203, 30_encoding.md R90): O53. -/

namespace Sys2Proof.Machine

/-- Every command ends by `State.ok` or `State.fail` (00_scope.md R12). -/
theorem exec_ends (i : Instr) (s : State) :
    ∃ t, exec i s = .next t ∧ ((∃ u v, t = State.ok u v) ∨ ∃ u c, t = State.fail u c) := by
  obtain ⟨t, ht, hcases⟩ := exec_cases i s
  refine ⟨t, ht, ?_⟩
  rcases hcases with ⟨c, -, h⟩ | h | ⟨v, h⟩ | ⟨_, _, _, _, -, -, h⟩ | ⟨_, -, -, h⟩ | ⟨_, _, _, _, -, -, h⟩ | ⟨-, h⟩ | ⟨-, h⟩
  · exact .inr ⟨_, _, h⟩
  · exact .inr ⟨_, _, h⟩
  · exact .inl ⟨_, _, h⟩
  · exact .inl ⟨_, _, h⟩
  · exact .inl ⟨_, _, h⟩
  · exact .inl ⟨_, _, h⟩
  · exact .inl ⟨_, _, h⟩
  · exact .inl ⟨_, _, h⟩

/-- Every command answers a next state with one of the seven codes, and `RDATA` 0 unless it is OK (R90). -/
theorem exec_result (i : Instr) (s : State) :
    ∃ t, exec i s = .next t ∧ t.result.toNat ≤ 6 ∧ (t.result ≠ 0 → t.rdata = 0) := by
  obtain ⟨t, ht, ⟨u, v, rfl⟩ | ⟨u, c, rfl⟩⟩ := exec_ends i s
  · exact ⟨_, ht, Nat.zero_le _, fun hne => absurd rfl hne⟩
  · exact ⟨_, ht, c.toByte_le, fun _ => rfl⟩

/-- A command whose body is `State.ok` answers OK on an endpoint that exists. -/
theorem State.inRange_ok_result {s : State} {ep : Nat} (u : State) (v : Word) (h : ep < s.numEp) :
    (s.inRange ep (u.ok v)).result = 0 := by
  rw [State.inRange_of_lt _ h]
  rfl

/-- Settles O53: `exec_result`, and the commands that have no way to fail on an endpoint that exists. -/
theorem everyCommandCompletes : Obligations.EveryCommandCompletes := by
  intro i s
  obtain ⟨t, ht, hcode, hrdata⟩ := exec_result i s
  refine ⟨t, ht, hcode, hrdata, ?_⟩
  cases i with
  | start | setEpfunc => trivial
  | readErr | dispatch =>
    obtain rfl := Host.Outcome.next.inj ht
    rfl
  | configure | stall | unstall | flush | queryStall =>
    obtain rfl := Host.Outcome.next.inj ht
    exact State.inRange_ok_result _ _

end Sys2Proof.Machine
end

section
/-! PROOFS. Power-on and reset (70_reset_and_hazards.md R240): the value of every register and table (O7), no engine step is
enabled (O8), and every invariant holds (O47). -/

namespace Sys2Proof.Machine

/-! ### The state at power-on -/

@[simp] theorem State.powerOn_numEp (n : Nat) (p : Params) : (State.powerOn n p).numEp = n := by
  simp [State.numEp, State.powerOn]

/-- Every pipe is idle and unconfigured at power-on. -/
@[simp] theorem State.powerOn_pipe (n : Nat) (p : Params) (e : Nat) (d : Dir) : (State.powerOn n p).pipe e d = Pipe.powerOn :=
  congrArg Channel.pipe (State.powerOn_channel n p e d)

@[simp] theorem State.powerOn_engPp (n : Nat) (p : Params) (e : Nat) (d : Dir) : (State.powerOn n p).engPp e d = false :=
  congrArg Channel.engPp (State.powerOn_channel n p e d)

/-- No transfer is held at power-on (log 21). -/
@[simp] theorem State.powerOn_held (n : Nat) (p : Params) (e : Nat) (d : Dir) : (State.powerOn n p).held e d = false :=
  congrArg Channel.held (State.powerOn_channel n p e d)

@[simp] theorem State.powerOn_bd (n : Nat) (p : Params) (e : Nat) (d : Dir) (i : Bool) :
    (State.powerOn n p).bd e d i = Descriptor.powerOn :=
  (congrArg (fun c => c.bd i) (State.powerOn_channel n p e d)).trans (Channel.powerOn_bd i)

@[simp] theorem State.powerOn_epctl (n : Nat) (p : Params) (e : Nat) :
    (State.powerOn n p).epctl e = if e = 0 then 0x00 else 0x08 :=
  congrArg Endpoint.epctl (State.powerOn_endpoint n p e)

@[simp] theorem State.powerOn_epfunc (n : Nat) (p : Params) (e : Nat) : (State.powerOn n p).epfunc e = 0xFF :=
  congrArg Endpoint.epfunc (State.powerOn_endpoint n p e)

/-- No class is pending, TOKEN included: `CQ` is empty. -/
@[simp] theorem State.powerOn_statusRead (n : Nat) (p : Params) : (State.powerOn n p).statusRead = 0 :=
  (by decide : putBit (0 : BitVec 16) 3 (!true) = 0)

@[simp] theorem State.powerOn_irq (n : Nat) (p : Params) : (State.powerOn n p).irq = false := by
  simp [State.irq]

/-- Settles O7: the registers and queues as `State.powerOn` gives them, the tables endpoint by endpoint. -/
theorem powerOnValues : Obligations.PowerOnValues := by
  intro n p s
  refine ⟨State.powerOn_numEp n p, rfl, rfl, rfl, rfl, rfl, State.powerOn_statusRead n p, State.powerOn_irq n p, rfl, rfl, rfl,
    fun e _ => ⟨State.powerOn_epctl n p e, State.powerOn_epfunc n p e, fun d => ?_⟩⟩
  exact ⟨State.powerOn_engPp n p e d, State.powerOn_held n p e d, State.powerOn_pipe n p e d,
    fun i => State.powerOn_bd n p e d i⟩

/-! ### The engine at power-on -/

/-- The block owns every descriptor at power-on, so the engine serves no token. -/
theorem State.powerOn_not_serves (n : Nat) (p : Params) (e : Nat) (d : Dir) : ¬ (State.powerOn n p).Serves e d := fun h => by
  have howned : Descriptor.powerOn.uown = .hw := State.powerOn_bd n p e d _ ▸ h.engineOwned
  cases howned

/-- A byte the engine may not read ahead is not read (R76). -/
theorem runInput_txFetch_of_not_mayFetch {s : State} {e k : Nat} {i : Bool} (h : ¬ s.mayFetch e i k = true) :
    runInput (.txFetch e i k) s = .next s :=
  if_neg h

theorem State.powerOn_not_mayFetch (n : Nat) (p : Params) (e : Nat) (i : Bool) (k : Nat) :
    ¬ (State.powerOn n p).mayFetch e i k = true := by
  simp [State.mayFetch, Descriptor.powerOn]

/-- Settles O8: a token finds a descriptor the engine does not own, and so does an early read. -/
theorem powerOnEnablesNoEngineStep : Obligations.PowerOnEnablesNoEngineStep := by
  intro n p x hx
  cases x with
  | inToken e acked => exact runInput_inToken_of_unserved (.inl (State.powerOn_not_serves n p e .tx))
  | outPacket e tog data => exact runInput_outPacket_of_unserved (.inl (State.powerOn_not_serves n p e .rx))
  | setup q => exact runInput_setup_of_unserved q (.inl (State.powerOn_not_serves n p 0 .rx))
  | txFetch e i k => exact runInput_txFetch_of_not_mayFetch (State.powerOn_not_mayFetch n p e i k)
  | _ => cases hx

/-! ### The invariants at power-on -/

theorem State.powerOn_tablesConsistent (n : Nat) {p : Params} (hp : p.wf = true) : (State.powerOn n p).TablesConsistent :=
  (State.tablesConsistent_iff _).mpr ⟨hp, Nat.two_pow_pos _, fun e d => by
    rw [State.powerOn_channel]
    exact (Channel.consistent_kept p).powerOn⟩

theorem State.powerOn_registersLegal (n : Nat) (p : Params) : (State.powerOn n p).RegistersLegal := by
  have hends : ∀ e, ((State.powerOn n p).endpoint e).Legal e := fun e => by
    rw [State.powerOn_endpoint]
    exact Endpoint.powerOn_legal e
  exact ⟨fun e => (hends e).reserved, fun e => (hends e).condis, fun e => (hends e).epfunc, BitVec.zero_and,
    BitVec.zero_and, Nat.zero_le _, fun _ => rfl⟩

/-- Nothing is written yet, whatever the bytes of buffer memory are (log 4). -/
theorem State.powerOn_memoryCanonical (n : Nat) (p : Params) : (State.powerOn n p).MemoryCanonical :=
  ⟨List.Pairwise.nil, fun _ hc => absurd hc List.not_mem_nil⟩

theorem State.powerOn_queueBounded (n : Nat) (p : Params) : (State.powerOn n p).QueueBounded :=
  ⟨Nat.zero_le _, fun _ hr => absurd hr List.not_mem_nil⟩

theorem State.powerOn_buffersFit (n : Nat) {p : Params} (hsetup : p.setupBufAddr + 8 ≤ 2 ^ p.addrBits) :
    (State.powerOn n p).BuffersFit :=
  (State.buffersFit_iff _).mpr ⟨hsetup, fun e d => by
    rw [State.powerOn_channel]
    exact (Channel.fits_kept p).powerOn⟩

theorem State.powerOn_parametersInRange {n : Nat} {p : Params} (hp : p.wf = true) (hpos : 1 ≤ n) (hmax : n ≤ 16) :
    (State.powerOn n p).ParametersInRange :=
  ⟨hp, (State.powerOn_numEp n p).symm ▸ hpos, (State.powerOn_numEp n p).symm ▸ hmax⟩

/-- Settles O47, invariant by invariant; reset is a power-on, with parameters in their ranges. -/
theorem resetMeetsInvariants : Obligations.ResetMeetsInvariants := by
  have hwf : Config.vectorParams.wf = true := by decide
  have hsetup : Config.vectorParams.setupBufAddr + 8 ≤ 2 ^ Config.vectorParams.addrBits := by decide
  refine ⟨fun n p hp hfit => ?_, State.powerOn_tablesConsistent _ hwf, State.powerOn_registersLegal _ _,
    State.powerOn_memoryCanonical _ _, State.powerOn_queueBounded _ _, State.powerOn_buffersFit _ hsetup,
    State.powerOn_parametersInRange hwf (by decide) (by decide)⟩
  exact ⟨State.powerOn_tablesConsistent n hp, State.powerOn_registersLegal n p, State.powerOn_memoryCanonical n p,
    State.powerOn_queueBounded n p, State.powerOn_buffersFit n hfit, State.powerOn_parametersInRange hp⟩

end Sys2Proof.Machine
end
